-- ==== Sys2Proof/Word.lean ====
section
/-! DEFINITION. The words the machine's rules treat as bits (spec/00_scope.md R6, R8). -/

namespace Sys2Proof

/-- A 64-bit register, address or ALU operand (R6). -/
abbrev Word := BitVec 64

/-- A byte of Memory (20_memory.md R41). -/
abbrev Byte := BitVec 8

/-- A 32-bit instruction word (30_encoding.md R70). -/
abbrev IWord := BitVec 32

end Sys2Proof
end

