-- ==== Sys2Proof/Syntax.lean ====
section
/-! DEFINITION. The instructions (spec/00_scope.md R2): one constructor per row of spec/opcode_table.json, its
operands those of 30_encoding.md R72 to R78. Bits the machine ignores (R90) are no operands. -/

namespace Sys2Proof

/-- A register field of an instruction (30_encoding.md R79): `X0 .. X30`, or `XZR` for the value 31. -/
inductive Reg where
  | x (n : Fin 31)
  | xzr
deriving DecidableEq, Repr

/-- The 22 instructions (R2). Immediates are the raw fields; their extension is the decode unit's (R80 to R84). -/
inductive Instr where
  | movz (rd : Reg) (hw : BitVec 2) (imm16 : BitVec 16)
  | movk (rd : Reg) (hw : BitVec 2) (imm16 : BitVec 16)
  | add (rd rn rm : Reg)
  | adds (rd rn rm : Reg)
  | sub (rd rn rm : Reg)
  | subs (rd rn rm : Reg)
  | addi (rd rn : Reg) (imm12 : BitVec 12)
  | addis (rd rn : Reg) (imm12 : BitVec 12)
  | subi (rd rn : Reg) (imm12 : BitVec 12)
  | subis (rd rn : Reg) (imm12 : BitVec 12)
  | ldur (rt rn : Reg) (off9 : BitVec 9)
  | ldurb (rt rn : Reg) (off9 : BitVec 9)
  | ldurh (rt rn : Reg) (off9 : BitVec 9)
  | ldursw (rt rn : Reg) (off9 : BitVec 9)
  | stur (rt rn : Reg) (off9 : BitVec 9)
  | sturb (rt rn : Reg) (off9 : BitVec 9)
  | sturh (rt rn : Reg) (off9 : BitVec 9)
  | sturw (rt rn : Reg) (off9 : BitVec 9)
  | hlt
  | b (off26 : BitVec 26)
  | cbz (rt : Reg) (off19 : BitVec 19)
  | cbnz (rt : Reg) (off19 : BitVec 19)
deriving DecidableEq, Repr

end Sys2Proof
end

