-- ==== Sys2Proof/WellFormed.lean ====
section
/-! DEFINITION. The one check on an instruction beyond its fields' widths: a destination is not `XZR`
(30_encoding.md R89: "Any instruction format that encodes register 31 as a destination is rejected at decode for
every opcode class that can target a destination register"). Sources may be `XZR` (R79). -/

namespace Sys2Proof

/-- Whether the instruction may be executed: its destination, where it has one, is one of `X0 .. X30` (R89). -/
def Instr.wellFormed : Instr → Bool
  | .movz rd _ _ => rd != .xzr
  | .movk rd _ _ => rd != .xzr
  | .add rd _ _ => rd != .xzr
  | .adds rd _ _ => rd != .xzr
  | .sub rd _ _ => rd != .xzr
  | .subs rd _ _ => rd != .xzr
  | .addi rd _ _ => rd != .xzr
  | .addis rd _ _ => rd != .xzr
  | .subi rd _ _ => rd != .xzr
  | .subis rd _ _ => rd != .xzr
  | .ldur rt _ _ => rt != .xzr
  | .ldurb rt _ _ => rt != .xzr
  | .ldurh rt _ _ => rt != .xzr
  | .ldursw rt _ _ => rt != .xzr
  | .stur _ _ _ => true
  | .sturb _ _ _ => true
  | .sturh _ _ _ => true
  | .sturw _ _ _ => true
  | .hlt => true
  | .b _ => true
  | .cbz _ _ => true
  | .cbnz _ _ => true

end Sys2Proof
end

