-- ==== Sys2Proof/Decode.lean ====
section
/-! DEFINITION. The decoder (spec/30_encoding.md) and, after it, the encoder, both from the same rows (R86) and
field layouts (R72 to R78). All bit positions and opcode numbers are the spec's decisions D1 and D2, from general
knowledge of LEGv8 (log 1, log 2). -/

namespace Sys2Proof

/-- Why a sequence of bytes is no instruction. -/
inductive DecodeReject where
  /-- The word matches no row of R86 (R88). -/
  | unknownOpcode
  /-- Fewer than the four bytes of an instruction word (R70). -/
  | truncated
deriving DecidableEq, Repr

/-- The opcode class of a word: one of the 22 mnemonics (00_scope.md glossary, "Opcode class"). -/
inductive OpClass where
  | movz | movk | add | adds | sub | subs | addi | addis | subi | subis
  | ldur | ldurb | ldurh | ldursw | stur | sturb | sturh | sturw | hlt | b | cbz | cbnz
deriving DecidableEq, Repr

/-- A row of R86: the class, and its opcode, a prefix of the word of `width` bits (R71). -/
structure OpRow where
  cls : OpClass
  width : Nat
  opcode : IWord
deriving DecidableEq, Repr

/-- The opcode map (R86), in the table's order. -/
def opcodeRows : List OpRow :=
  [ ⟨.movz, 9, 0b110100101⟩, ⟨.movk, 9, 0b111100101⟩,
    ⟨.add, 11, 0b10001011000⟩, ⟨.adds, 11, 0b10101011000⟩,
    ⟨.sub, 11, 0b11001011000⟩, ⟨.subs, 11, 0b11101011000⟩,
    ⟨.addi, 10, 0b1001000100⟩, ⟨.addis, 10, 0b1011000100⟩,
    ⟨.subi, 10, 0b1101000100⟩, ⟨.subis, 10, 0b1111000100⟩,
    ⟨.ldur, 11, 0b11111000010⟩, ⟨.ldurb, 11, 0b00111000010⟩ ] ++
  [ ⟨.ldurh, 11, 0b01111000010⟩, ⟨.ldursw, 11, 0b10111000100⟩,
    ⟨.stur, 11, 0b11111000000⟩, ⟨.sturb, 11, 0b00111000000⟩,
    ⟨.sturh, 11, 0b01111000000⟩, ⟨.sturw, 11, 0b10111000000⟩,
    ⟨.hlt, 11, 0b11010100010⟩, ⟨.b, 6, 0b000101⟩,
    ⟨.cbz, 8, 0b10110100⟩, ⟨.cbnz, 8, 0b10110101⟩ ]

/-- The word starts with the row's opcode (R71). -/
def OpRow.selects (r : OpRow) (w : IWord) : Bool := w >>> (32 - r.width) == r.opcode

/-- The row's mask in R86: ones over the opcode's bits. -/
def OpRow.mask (r : OpRow) : IWord := BitVec.allOnes 32 <<< (32 - r.width)

/-- The row's match value in R86. -/
def OpRow.matchValue (r : OpRow) : IWord := r.opcode <<< (32 - r.width)

/-- Class recovery (46_pipeline_stages.md R176): the row the word matches, if any. -/
def classOf (w : IWord) : Option OpClass := (opcodeRows.find? fun r => r.selects w).map (·.cls)

/-- The bit field of `len` bits from bit `lo` up (00_scope.md R8). -/
def bits (w : IWord) (lo len : Nat) : BitVec len := w.extractLsb' lo len

/-- A register field's value as a register (R79). -/
def Reg.ofField (f : BitVec 5) : Reg := if h : f.toNat < 31 then .x ⟨f.toNat, h⟩ else .xzr

/-- The register field of a word at bit `lo` (R72 to R77). -/
def regAt (w : IWord) (lo : Nat) : Reg := Reg.ofField (bits w lo 5)

/-- Field extraction per format: IM (R75), R (R72), I (R73), D (R74), SYS (R78), B (R76), CB (R77). -/
def instrOf (w : IWord) : OpClass → Instr
  | .movz => .movz (regAt w 0) (bits w 21 2) (bits w 5 16)
  | .movk => .movk (regAt w 0) (bits w 21 2) (bits w 5 16)
  | .add => .add (regAt w 0) (regAt w 5) (regAt w 16)
  | .adds => .adds (regAt w 0) (regAt w 5) (regAt w 16)
  | .sub => .sub (regAt w 0) (regAt w 5) (regAt w 16)
  | .subs => .subs (regAt w 0) (regAt w 5) (regAt w 16)
  | .addi => .addi (regAt w 0) (regAt w 5) (bits w 10 12)
  | .addis => .addis (regAt w 0) (regAt w 5) (bits w 10 12)
  | .subi => .subi (regAt w 0) (regAt w 5) (bits w 10 12)
  | .subis => .subis (regAt w 0) (regAt w 5) (bits w 10 12)
  | .ldur => .ldur (regAt w 0) (regAt w 5) (bits w 12 9)
  | .ldurb => .ldurb (regAt w 0) (regAt w 5) (bits w 12 9)
  | .ldurh => .ldurh (regAt w 0) (regAt w 5) (bits w 12 9)
  | .ldursw => .ldursw (regAt w 0) (regAt w 5) (bits w 12 9)
  | .stur => .stur (regAt w 0) (regAt w 5) (bits w 12 9)
  | .sturb => .sturb (regAt w 0) (regAt w 5) (bits w 12 9)
  | .sturh => .sturh (regAt w 0) (regAt w 5) (bits w 12 9)
  | .sturw => .sturw (regAt w 0) (regAt w 5) (bits w 12 9)
  | .hlt => .hlt
  | .b => .b (bits w 0 26)
  | .cbz => .cbz (regAt w 0) (bits w 5 19)
  | .cbnz => .cbnz (regAt w 0) (bits w 5 19)

/-- Decoding of one instruction word: total, rejecting a word of no row by name (R88). A destination of 31 decodes
(its class is known, R176); the fatal error it raises is the decode unit's (R181). -/
def decode (w : IWord) : Except DecodeReject Instr :=
  match classOf w with
  | some c => .ok (instrOf w c)
  | none => .error .unknownOpcode

/-- The word whose four bytes in memory order are given, the most significant first (20_memory.md R51, R52). -/
def wordOfBytes (b0 b1 b2 b3 : Byte) : IWord := b0 ++ b1 ++ b2 ++ b3

/-- The four bytes of a word in memory order, the most significant first (20_memory.md R43). -/
def bytesOfWord (w : IWord) : List Byte :=
  [w.extractLsb' 24 8, w.extractLsb' 16 8, w.extractLsb' 8 8, w.extractLsb' 0 8]

/-- Decoding of any sequence of bytes in memory order: the instruction and the bytes after it. -/
def decodeBytes : List Byte → Except DecodeReject (Instr × List Byte)
  | b0 :: b1 :: b2 :: b3 :: rest =>
    match decode (wordOfBytes b0 b1 b2 b3) with
    | .ok i => .ok (i, rest)
    | .error e => .error e
  | _ => .error .truncated

/-- The instruction word whose bits, numbered as the opcode table numbers them, are the low `nbits` of `w`. -/
def tableWord (nbits w : Nat) : IWord := BitVec.ofNat 32 (w % 2 ^ nbits)

/-- The instruction the decoder reads from a table word laid out in memory's byte order. -/
def decodeTableWord (nbits w : Nat) : Option Instr :=
  match decodeBytes (bytesOfWord (tableWord nbits w)) with
  | .ok (i, _) => some i
  | .error _ => none

/-! ## The encoder -/

/-- A register's field value (R79). -/
def Reg.field : Reg → BitVec 5
  | .x n => BitVec.ofNat 5 n.val
  | .xzr => 31#5

/-- R format (R72); `shamt` is written as 0 (R90). -/
def encodeR (op : BitVec 11) (rd rn rm : Reg) : IWord := op ++ rm.field ++ 0#6 ++ rn.field ++ rd.field

/-- I format (R73). -/
def encodeI (op : BitVec 10) (rd rn : Reg) (imm12 : BitVec 12) : IWord := op ++ imm12 ++ rn.field ++ rd.field

/-- D format (R74); bits 11:10 are written as 0 (R90). -/
def encodeD (op : BitVec 11) (rt rn : Reg) (off9 : BitVec 9) : IWord := op ++ off9 ++ 0#2 ++ rn.field ++ rt.field

/-- IM format (R75). -/
def encodeIM (op : BitVec 9) (rd : Reg) (hw : BitVec 2) (imm16 : BitVec 16) : IWord := op ++ hw ++ imm16 ++ rd.field

/-- B format (R76). -/
def encodeB (op : BitVec 6) (off26 : BitVec 26) : IWord := op ++ off26

/-- CB format (R77). -/
def encodeCB (op : BitVec 8) (rt : Reg) (off19 : BitVec 19) : IWord := op ++ off19 ++ rt.field

/-- SYS layout (R78); bits 20:0 are written as 0 (R90). -/
def encodeSYS (op : BitVec 11) : IWord := op ++ 0#21

/-- The word of an instruction: opcodes of R86, fields of R72 to R78, ignored bits 0 (R90). -/
def encode : Instr → IWord
  | .movz rd hw imm16 => encodeIM 0b110100101 rd hw imm16
  | .movk rd hw imm16 => encodeIM 0b111100101 rd hw imm16
  | .add rd rn rm => encodeR 0b10001011000 rd rn rm
  | .adds rd rn rm => encodeR 0b10101011000 rd rn rm
  | .sub rd rn rm => encodeR 0b11001011000 rd rn rm
  | .subs rd rn rm => encodeR 0b11101011000 rd rn rm
  | .addi rd rn imm12 => encodeI 0b1001000100 rd rn imm12
  | .addis rd rn imm12 => encodeI 0b1011000100 rd rn imm12
  | .subi rd rn imm12 => encodeI 0b1101000100 rd rn imm12
  | .subis rd rn imm12 => encodeI 0b1111000100 rd rn imm12
  | .ldur rt rn off9 => encodeD 0b11111000010 rt rn off9
  | .ldurb rt rn off9 => encodeD 0b00111000010 rt rn off9
  | .ldurh rt rn off9 => encodeD 0b01111000010 rt rn off9
  | .ldursw rt rn off9 => encodeD 0b10111000100 rt rn off9
  | .stur rt rn off9 => encodeD 0b11111000000 rt rn off9
  | .sturb rt rn off9 => encodeD 0b00111000000 rt rn off9
  | .sturh rt rn off9 => encodeD 0b01111000000 rt rn off9
  | .sturw rt rn off9 => encodeD 0b10111000000 rt rn off9
  | .hlt => encodeSYS 0b11010100010
  | .b off26 => encodeB 0b000101 off26
  | .cbz rt off19 => encodeCB 0b10110100 rt off19
  | .cbnz rt off19 => encodeCB 0b10110101 rt off19

end Sys2Proof
end

