-- ==== Sys2Proof/Config.lean ====
section
/-! DEFINITION. What an implementation of the core fixes, and the values the model gives its parameters at reset.
The parameters that a run carries (MEM_SIZE, OOB_READ_BYTE) stand in State, so that every statement about a state
holds for every value of them; here are only their values in `State.reset`. -/

namespace Sys2Proof.Config

/-- `RESET_PC`: the PC after power-on and after `reset()` (10_state.md R14, R33; the spec's decision D11, log 5). -/
def resetPc : Word := 0

/-- `IMAGE_BASE`: the byte address of the first flashed word (20_memory.md R43; the spec's decision D12, log 7). -/
def imageBase : Nat := 0

/-- What a byte of Memory that nothing has written holds (20_memory.md R43: "every byte above the image is 0 at
creation"; the spec's decision D12, log 7). -/
def unlistedByte : Byte := 0

/-- `MEM_SIZE` in `State.reset`. DESIGN CHOICE (log 6): R41 leaves the size to the platform; unsafe. -/
def resetMemSize : Nat := 65536

/-- `OOB_READ_BYTE` in `State.reset` (20_memory.md R45; the spec's decision D13, log 8). -/
def resetOobReadByte : Byte := 0x00

end Sys2Proof.Config
end

