-- ==== Sys2Proof/Machine/State.lean ====
section
/-! DEFINITION. The machine's state as plain data (spec/10_state.md R10), the ways a step can stop, and the state
right after reset (R33). -/

namespace Sys2Proof.Machine

/-- Memory's contents: (address, byte) pairs, addresses strictly rising, no byte equal to what an unlisted address
reads as (`Config.unlistedByte`). -/
abbrev Memory := List Host.Cell

/-- The ALU's four flags (R17). -/
structure Flags where
  n : Bool
  z : Bool
  c : Bool
  v : Bool
deriving DecidableEq, Repr

/-- Latch IFID's record (R26). -/
structure IFID where
  instr : IWord
  ipc : Word
deriving DecidableEq, Repr

/-- Latch IDEX's record (R27). -/
structure IDEX where
  instr : IWord
  ipc : Word
  a : Word
  b : Word
  imm : Word
  reserved : Bool
deriving DecidableEq, Repr

/-- Latch EXMEM's record (R28). -/
structure EXMEM where
  instr : IWord
  res : Word
  wdata : Word
deriving DecidableEq, Repr

/-- Latch MEMWB's record (R29). -/
structure MEMWB where
  instr : IWord
  val : Word
deriving DecidableEq, Repr

/-- A stage's in-flight task (R31): nothing, launched on an input and not completed, or completed and not yet
cleared by the controller. -/
inductive Task (α : Type) where
  | none
  | running (input : α)
  | done
deriving DecidableEq, Repr

/-- The two causes of a fatal error (R23, 60_exceptions.md R240, R241). -/
inductive FatalCause where
  | zeroRegisterWrite
  | unknownOpcode
deriving DecidableEq, Repr

/-- The five stages (00_scope.md R3). -/
inductive Stage where
  | fetch
  | decode
  | execute
  | memory
  | writeback
deriving DecidableEq, Repr

/-- What can happen to the machine (47_pipeline_control.md R215), and two fixed sequences of such events that serve
as one: the reference schedule's tick (R220) and one instruction alone in the pipeline (R231, log 4). -/
inductive Event where
  /-- The external clock's `pulse()` (R200, R203, R204). -/
  | pulse
  /-- A launched stage's own step (46_pipeline_stages.md R192). -/
  | stage (st : Stage)
  /-- One tick of the reference schedule (R220). -/
  | tick
  /-- One instruction, fetched and carried through the empty pipeline alone (R231). -/
  | instruction
  /-- The controller's `reset()` (R210). -/
  | reset
  /-- The host creates Memory, once, with the given size, all zero (70_reset_and_hazards.md R271). -/
  | createMemory (size : Nat)
  /-- The host resets Memory to zero (20_memory.md R42). -/
  | zeroMemory
  /-- The host creates Memory by flashing an image; Memory is then exactly the image (R41, R43, R271). -/
  | flash (image : List IWord)
  /-- The host writes an image into the Memory that exists (R43, R271). -/
  | load (image : List IWord)
deriving DecidableEq, Repr

/-- How far the host has brought the machine (70_reset_and_hazards.md R271, R272; log 34). -/
inductive Phase where
  /-- Powered on; Memory has the size the parameters give it, and the host may still create it with another. -/
  | unsized
  /-- Memory has been created; no pulse has been delivered since power-on or the last `reset()`. -/
  | ready
  /-- The first pulse has been delivered. -/
  | started
deriving DecidableEq, Repr

/-- The parameters of the machine, fixed for a run (R34): nothing changes them but the one creation of Memory before
the first pulse (70_reset_and_hazards.md R271). -/
structure Params where
  /-- `MEM_SIZE` (20_memory.md R41). -/
  memSize : Nat
  /-- `OOB_READ_BYTE` (20_memory.md R45). -/
  oobReadByte : Byte
deriving DecidableEq, Repr

/-- The complete state of the core (R10), its parameters (R34), and the events still to come. -/
structure State where
  /-- `X[0..30]` (R11); index 31 is no storage (R12). -/
  regs : Vector Word 31
  /-- `PC` (R14). -/
  pc : Word
  /-- `N`, `Z`, `C`, `V` (R17). -/
  flags : Flags
  /-- `MEM` (20_memory.md R41). -/
  mem : Memory
  /-- `MAR` (R24). -/
  mar : Word
  /-- `MDR` (R24). -/
  mdr : Word
  /-- The LockQueue, head first (R25). -/
  lq : List (Fin 31)
  /-- Latch IFID (R26). -/
  ifid : Option IFID
  /-- Latch IDEX (R27). -/
  idex : Option IDEX
  /-- Latch EXMEM (R28). -/
  exmem : Option EXMEM
  /-- Latch MEMWB (R29). -/
  memwb : Option MEMWB
  /-- `busy[IF]` (R20). -/
  busyIF : Bool
  /-- `busy[ID]` (R20). -/
  busyID : Bool
  /-- `busy[EX]` (R20). -/
  busyEX : Bool
  /-- `busy[MEM]` (R20). -/
  busyMEM : Bool
  /-- `busy[WB]` (R20). -/
  busyWB : Bool
  /-- The fetch task (R31); it has no input. -/
  taskIF : Task Unit
  /-- The decode task (R31). -/
  taskID : Task IFID
  /-- The execute task (R31). -/
  taskEX : Task IDEX
  /-- The memory-access task (R31). -/
  taskMEM : Task EXMEM
  /-- The writeback task (R31). -/
  taskWB : Task MEMWB
  /-- `exFlushing` (R21). -/
  exFlushing : Bool
  /-- `halted` (R22). -/
  halted : Bool
  /-- `fatal` (R23). -/
  fatal : Option FatalCause
  /-- The parameters (R34). -/
  params : Params
  /-- THE MODEL'S OWN FIELD (log 34): whether Memory has been created and the run has started, which the guards of
  the host's actions read. -/
  phase : Phase
  /-- THE MODEL'S OWN FIELD (log 4): the events still to happen, oldest first. When it is empty the step takes
  the next event itself (`defaultEvent`). -/
  schedule : List Event
deriving DecidableEq, Repr

/-- Why the machine stops with nothing enabled. -/
inductive Fault where
  /-- `halted` is set and the event needs the clock: no `pulse()` is delivered any more (60_exceptions.md R245).
  Raised by `performEvent` for a pulse, a tick or an instruction. Safe: the spec gives no next state. -/
  | clockStopped
  /-- `fatal` is set and the event is a pulse, a stage's step, a tick or an instruction: none is enabled any more, and
  only `reset()` leaves the condition (60_exceptions.md R242). Raised by `performEvent`. Safe: the state is terminal in
  the spec too. -/
  | fatalError (cause : FatalCause)
  /-- Writeback dequeued from an empty LockQueue (46_pipeline_stages.md R170, 93 U10). Raised by `writebackStep`; no
  state that meets the pipeline invariant raises it. Safe. -/
  | emptyLockQueue
deriving DecidableEq, Repr

/-- Why the model gives no meaning. -/
inductive Refusal where
  /-- An instruction without a meaning yet, by its mnemonic. Safe. -/
  | notModelled (mnemonic : String)
  /-- The schedule names an event that is not enabled, which is no run of the machine (47_pipeline_control.md R215): a
  stage whose guard is false, an instruction while work is in flight, a host action on Memory at a time
  70_reset_and_hazards.md R271 does not give it. Raised by `performEvent`. Safe. -/
  | eventNotEnabled
  /-- The host loads an image larger than the Memory that exists (20_memory.md R43 gives no effect). Raised by
  `performEvent`. Safe. -/
  | imageExceedsMemory
deriving DecidableEq, Repr

/-- All four flags 0 (40_alu.md R106). -/
def Flags.cleared : Flags := ⟨false, false, false, false⟩

/-- The state right after power-on (10_state.md R33, 70_reset_and_hazards.md R270): every value is the spec's
decision D11 or D28 (log 5), the parameters' values are log 6 and log 8, the empty schedule is log 4, the phase log 34. -/
def State.reset : State where
  regs := Vector.replicate 31 0
  pc := Config.resetPc
  flags := Flags.cleared
  mem := []
  mar := 0
  mdr := 0
  lq := []
  ifid := none
  idex := none
  exmem := none
  memwb := none
  busyIF := false
  busyID := false
  busyEX := false
  busyMEM := false
  busyWB := false
  taskIF := .none
  taskID := .none
  taskEX := .none
  taskMEM := .none
  taskWB := .none
  exFlushing := false
  halted := false
  fatal := none
  params := { memSize := Config.resetMemSize, oobReadByte := Config.resetOobReadByte }
  phase := .unsized
  schedule := []

end Sys2Proof.Machine
end

