-- ==== Sys2Proof/Machine/Flags.lean ====
section
/-! DEFINITION. The ALU and the flags (spec/40_alu.md): `add`, `negate`, `multiply`, `clear_flags`, by their results,
as R103 specifies them, and beside them the bit-serial forms the source describes (log 10). -/

namespace Sys2Proof.Machine

/-- The flags of an addition from its operands, its carry and its sum (R102). -/
def addFlags (a b sum : Word) (carry : Bool) : Flags where
  n := sum.getLsbD 63
  z := sum == 0
  c := carry
  v := a.getLsbD 63 == b.getLsbD 63 && sum.getLsbD 63 != a.getLsbD 63

/-- The carry out of bit 63 of an addition without carry-in (R101). -/
def carryOut (a b : Word) : Bool := decide (2 ^ 64 ≤ a.toNat + b.toNat)

/-- `ALU.add(a, b)`: the sum modulo 2^64 (R101) and all four flags (R102). -/
def aluAdd (a b : Word) : Word × Flags := (a + b, addFlags a b (a + b) (carryOut a b))

/-- `ALU.negate(a)` (R104). Its flags are never seen: every use is followed at once by an `add` (R107, log 11). -/
def aluNegate (a : Word) : Word := ~~~a + 1

/-- Subtraction, by negate-then-add, with the flags of that addition (R107). -/
def aluSub (a b : Word) : Word × Flags := aluAdd a (aluNegate b)

/-- `ALU.multiply(a, b) -> (high64, low64)`, unsigned (R105; the spec's decision D10, log 11). -/
def aluMultiply (a b : Word) : Word × Word :=
  (BitVec.ofNat 64 (a.toNat * b.toNat / 2 ^ 64), BitVec.ofNat 64 (a.toNat * b.toNat))

/-- `ALU.clear_flags()` (R106). -/
def clearFlags : Flags := Flags.cleared

/-- The flags after an instruction that is neither arithmetic nor HLT (R110: "cleared explicitly between
non-flag-setting operations"; the spec's decision D8, log 9). -/
def flagsAfterNonAlu : Flags := clearFlags

/-! ## The bit-serial forms (R103) -/

/-- A half adder: sum and carry (R103). -/
def halfAdder (p q : Bool) : Bool × Bool := (p ^^ q, p && q)

/-- A full adder: sum and carry (R103). -/
def fullAdder (p q cin : Bool) : Bool × Bool :=
  ((halfAdder (halfAdder p q).1 cin).1, (halfAdder p q).2 || (halfAdder (halfAdder p q).1 cin).2)

/-- The carry into bit `i` when full adders ripple from bit 0 with carry-in 0 (R103). -/
def rippleCarry (a b : Word) : Nat → Bool
  | 0 => false
  | i + 1 => (fullAdder (a.getLsbD i) (b.getLsbD i) (rippleCarry a b i)).2

/-- The low `i` bits of the rippled sum (R103). -/
def rippleSum (a b : Word) : Nat → Word
  | 0 => 0
  | i + 1 =>
    rippleSum a b i |||
      (BitVec.ofBool (fullAdder (a.getLsbD i) (b.getLsbD i) (rippleCarry a b i)).1).setWidth 64 <<< i

/-- `ALU.add` as 64 rippled full adders (R103), its flags from the rippled sum and carry (R102). -/
def rippleAdd (a b : Word) : Word × Flags :=
  (rippleSum a b 64, addFlags a b (rippleSum a b 64) (rippleCarry a b 64))

/-- The running 128-bit sum after `i` steps of shift-and-conditional-add (R105). -/
def shiftAddLoop (a b : Word) : Nat → BitVec 128
  | 0 => 0
  | i + 1 => shiftAddLoop a b i + (if b.getLsbD i then a.setWidth 128 <<< i else 0)

/-- `ALU.multiply` as 64 steps of shift-and-conditional-add (R105). -/
def shiftAddMultiply (a b : Word) : Word × Word :=
  ((shiftAddLoop a b 64).extractLsb' 64 64, (shiftAddLoop a b 64).extractLsb' 0 64)

end Sys2Proof.Machine
end

