-- ==== Sys2Proof/Machine/Ops.lean ====
section
/-! DEFINITION. The named operations over registers, Memory, the MMU, the LockQueue and the control state: the
primitives of spec/00_scope.md R9, the only ways a rule touches state. -/

namespace Sys2Proof.Machine

/-- Sequencing of two parts of one step: the second runs on the state the first answers. -/
def andThen (o : Host.Outcome State Fault Refusal) (f : State → Host.Outcome State Fault Refusal) :
    Host.Outcome State Fault Refusal :=
  match o with
  | .next s => f s
  | .fault r => .fault r
  | .refused r => .refused r

/-! ## Registers (10_state.md) -/

/-- The register read `x[i]` (R11): index 31 reads 0. -/
def State.x (s : State) : Reg → Word
  | .x n => s.regs[n]
  | .xzr => 0

/-- A register source that an instruction may lack: 0 where it has none (46_pipeline_stages.md R180). -/
def State.xOpt (s : State) : Option Reg → Word
  | some r => s.x r
  | none => 0

/-- The register write `x[i] <- v`, to one of X0 to X30 (R12). -/
def writeReg (n : Fin 31) (v : Word) (s : State) : State := { s with regs := s.regs.set n v }

/-! ## Ending a run (60_exceptions.md): the only exception entry the machine has -/

/-- `raise Fatal(cause)` (R242): the cause is recorded and nothing else changes; nothing is enabled afterwards. -/
def raiseFatal (cause : FatalCause) (s : State) : State := { s with fatal := some cause }

/-- `request_halt()` (R245): idempotent; the step that calls it carries on. -/
def requestHalt (s : State) : State := { s with halted := true }

/-- `request_halt()` when a byte address does not exist (20_memory.md R45, R46). -/
def requestHaltUnless (ok : Bool) (s : State) : State := { s with halted := s.halted || !ok }

/-- The phase after `reset()`: the run has not started, and a Memory that was there is still there (R271). -/
def Phase.afterReset : Phase → Phase
  | .unsized => .unsized
  | .ready => .ready
  | .started => .ready

/-- The first pulse of a run starts it (70_reset_and_hazards.md R272); a later one finds it started. -/
def beginRun (s : State) : State := { s with phase := .started }

/-- The core is running: a pulse has been delivered since the last reset and the clock has not stopped. It is not
running when halted, fatal or not yet started (70_reset_and_hazards.md R274). -/
def State.running (s : State) : Bool := s.phase == .started && !s.halted && s.fatal.isNone

/-- `reset()` (47_pipeline_control.md R210, 10_state.md R33): everything but Memory returns to its power-on value.
It is the only way out of a fatal error or a halt (60_exceptions.md R243). Memory's size and the parameters are no
part of it, nor are the host's further events (log 26); a Memory that exists is not created again (log 34). -/
def resetCore (s : State) : State :=
  { State.reset with mem := s.mem, params := s.params, phase := s.phase.afterReset, schedule := s.schedule }

/-! ## Memory as data -/

/-- The byte at an address; an unlisted one reads `Config.unlistedByte` (20_memory.md R43, R44). -/
def Memory.read : Memory → Nat → Byte
  | [], _ => Config.unlistedByte
  | (k, c) :: m, a => if a = k then c else Memory.read m a

/-- Put a byte in front of the cells that follow it, unless it is what an unlisted address reads as. -/
def Memory.cons (a : Nat) (b : Byte) (m : Memory) : Memory := if b = Config.unlistedByte then m else (a, b) :: m

/-- Write a byte, keeping the canonical form (20_memory.md R44). -/
def Memory.write : Memory → Nat → Byte → Memory
  | [], a, b => Memory.cons a b []
  | (k, c) :: m, a, b =>
    if a < k then Memory.cons a b ((k, c) :: m)
    else if a = k then Memory.cons a b m
    else (k, c) :: Memory.write m a b

/-- Addresses strictly rising from `lo` on, and no byte an unlisted address would read as. -/
def Memory.wfFrom : Nat → Memory → Bool
  | _, [] => true
  | lo, (k, c) :: m => decide (lo ≤ k) && c != Config.unlistedByte && Memory.wfFrom (k + 1) m

/-- The canonical form. -/
def Memory.wf (m : Memory) : Bool := Memory.wfFrom 0 m

/-- No byte is listed at or above `size` (20_memory.md R41). -/
def Memory.within (size : Nat) (m : Memory) : Bool := m.all fun c => decide (c.1 < size)

/-- Write consecutive bytes from an address up. -/
def Memory.writeList : Memory → Nat → List Byte → Memory
  | m, _, [] => m
  | m, a, b :: bs => Memory.writeList (Memory.write m a b) (a + 1) bs

/-- The bytes of an image, each word most significant byte first (20_memory.md R43). -/
def imageBytes (image : List IWord) : List Byte := image.flatMap bytesOfWord

/-! ## Byte access and the bounds rule (20_memory.md) -/

/-- The byte address exists (R41). -/
def State.inRange (s : State) (a : Word) : Bool := decide (a.toNat < s.params.memSize)

/-- All `n` bytes from `a` up exist; byte addresses are modulo 2^64 (R62). -/
def State.spanInRange (s : State) (a : Word) (n : Nat) : Bool :=
  (List.range n).all fun i => s.inRange (a + BitVec.ofNat 64 i)

/-- The byte `MemByteRead(a)` returns: the byte in range, `OOB_READ_BYTE` out of range (R44, R45). -/
def State.byteAt (s : State) (a : Word) : Byte :=
  if s.inRange a then Memory.read s.mem a.toNat else s.params.oobReadByte

/-- `MemByteRead(a)` (R44, R45): the state it leaves and the byte. -/
def memByteRead (s : State) (a : Word) : State × Byte :=
  (requestHaltUnless (s.inRange a) s, s.byteAt a)

/-- `MemByteWrite(a, b)` (R44, R46). -/
def memByteWrite (s : State) (a : Word) (b : Byte) : State :=
  requestHaltUnless (s.inRange a)
    { s with mem := if s.inRange a then Memory.write s.mem a.toNat b else s.mem }

/-! ## The MMU (20_memory.md R47 to R50) -/

/-- The eight bytes from `a` up, the most significant at `a` (R48), as `MemByteRead` returns them. -/
def State.wordAt (s : State) (a : Word) : Word :=
  s.byteAt a ++ s.byteAt (a + 1) ++ s.byteAt (a + 2) ++ s.byteAt (a + 3)
    ++ s.byteAt (a + 4) ++ s.byteAt (a + 5) ++ s.byteAt (a + 6) ++ s.byteAt (a + 7)

/-- `MMURead(a)` (R48): MAR and MDR are loaded, and a halt is requested unless all eight bytes exist (R62). The
client takes the answer from MDR (R47). -/
def mmuRead (a : Word) (s : State) : State :=
  requestHaltUnless (s.spanInRange a 8) { s with mar := a, mdr := s.wordAt a }

/-- The widths an MMU write may have (R49). -/
inductive Width where
  | byte
  | half
  | word
  | double
deriving DecidableEq, Repr

/-- A width in bytes. -/
def Width.bytes : Width → Nat
  | .byte => 1
  | .half => 2
  | .word => 4
  | .double => 8

/-- The low `n` bytes of a value, the most significant of them first (R49). -/
def lowBytes (v : Word) : Nat → List Byte
  | 0 => []
  | n + 1 => v.extractLsb' (8 * n) 8 :: lowBytes v n

/-- Memory after byte writes from `a` up, those out of bounds ignored (R46, R49, R62). -/
def writtenMem (size : Nat) : List Byte → Word → Memory → Memory
  | [], _, m => m
  | b :: bs, a, m => writtenMem size bs (a + 1) (if a.toNat < size then Memory.write m a.toNat b else m)

/-- `MMUWrite(a, w, v)` (R49): a halt is requested unless all the bytes exist (R62). -/
def mmuWrite (a : Word) (w : Width) (v : Word) (s : State) : State :=
  requestHaltUnless (s.spanInRange a w.bytes)
    { s with mar := a, mdr := v, mem := writtenMem s.params.memSize (lowBytes v w.bytes) a s.mem }

/-! ### The MMU's operations byte by byte, as R48, R49 and R62 tell them -/

/-- `n` byte reads from `a` up, one after the other. -/
def touchBytes : Nat → Word → State → State
  | 0, _, s => s
  | n + 1, a, s => touchBytes n (a + 1) (memByteRead s a).1

/-- Byte writes from `a` up, one after the other. -/
def writeBytes : List Byte → Word → State → State
  | [], _, s => s
  | b :: bs, a, s => writeBytes bs (a + 1) (memByteWrite s a b)

/-! ## The LockQueue (46_pipeline_stages.md R168 to R171) -/

/-- `LQ.contains(i)` (R168); index 31 is never in the queue. -/
def State.locked (s : State) : Reg → Bool
  | .x n => s.lq.contains n
  | .xzr => false

/-- `LQ.enqueue(i)` (R169). -/
def lqEnqueue (n : Fin 31) (s : State) : State := { s with lq := s.lq ++ [n] }

/-- `LQ.remove_newest()` (R171). -/
def lqRemoveNewest (s : State) : State := { s with lq := s.lq.dropLast }

/-! ## Flush (47_pipeline_control.md R207) -/

/-- Whether IDEX holds an instruction that made a reservation. -/
def State.idexReserved (s : State) : Bool :=
  match s.idex with
  | some d => d.reserved
  | none => false

/-- `flush(new_pc)` (R207), as one indivisible step: the fetch and decode tasks are dropped, the reservation of the
instruction in IDEX is removed, IFID and IDEX are emptied, the PC is set and the flushing gate released. -/
def flush (newPc : Word) (s : State) : State :=
  let s1 := if s.idexReserved then lqRemoveNewest s else s
  { s1 with
    taskIF := .none, busyIF := false
    taskID := .none, busyID := false
    ifid := none, idex := none
    pc := newPc
    exFlushing := false }

/-! ## Host actions on Memory (20_memory.md R41 to R43, 70_reset_and_hazards.md R271) -/

/-- Memory is created with `size` bytes, all 0. -/
def createMemory (size : Nat) (s : State) : State :=
  { s with mem := [], params := { s.params with memSize := size }, phase := .ready }

/-- Memory is reset to zero; its size stays (R42). -/
def zeroMemory (s : State) : State := { s with mem := [] }

/-- An image is written from `IMAGE_BASE` up into the Memory that exists (R43). -/
def loadImage (image : List IWord) (s : State) : State :=
  { s with mem := Memory.writeList s.mem Config.imageBase (imageBytes image) }

/-- Memory becomes exactly the image: `MEM_SIZE = 4 × len(IMAGE)` (R41, R43). -/
def flashImage (image : List IWord) (s : State) : State :=
  loadImage image (createMemory (4 * image.length) s)

/-! ## Observation (60_exceptions.md R262) -/

/-- What external viewers read. -/
structure Observation where
  registers : List Word
  pc : Word
  ifid : Option IFID
  idex : Option IDEX
  exmem : Option EXMEM
  memwb : Option MEMWB
deriving DecidableEq, Repr

/-- Read-only observation: X0 to X30 and 0 for index 31, the PC and the four latches (R262). -/
def State.observe (s : State) : Observation where
  registers := s.regs.toList ++ [0]
  pc := s.pc
  ifid := s.ifid
  idex := s.idex
  exmem := s.exmem
  memwb := s.memwb

end Sys2Proof.Machine
end

