-- ==== Sys2Proof/Machine/Operands.lean ====
section
/-! DEFINITION. Operands as decode extracts them (spec/30_encoding.md R79 to R85), the address and target
arithmetic, and the views of loaded data (20_memory.md R50). -/

namespace Sys2Proof.Machine

/-- The first source register (R85). -/
def src1 : Instr → Option Reg
  | .movz _ _ _ => none
  | .movk rd _ _ => some rd
  | .add _ rn _ => some rn
  | .adds _ rn _ => some rn
  | .sub _ rn _ => some rn
  | .subs _ rn _ => some rn
  | .addi _ rn _ => some rn
  | .addis _ rn _ => some rn
  | .subi _ rn _ => some rn
  | .subis _ rn _ => some rn
  | .ldur _ rn _ => some rn
  | .ldurb _ rn _ => some rn
  | .ldurh _ rn _ => some rn
  | .ldursw _ rn _ => some rn
  | .stur _ rn _ => some rn
  | .sturb _ rn _ => some rn
  | .sturh _ rn _ => some rn
  | .sturw _ rn _ => some rn
  | .hlt => none
  | .b _ => none
  | .cbz rt _ => some rt
  | .cbnz rt _ => some rt

/-- The second source register (R85). -/
def src2 : Instr → Option Reg
  | .movz _ _ _ => none
  | .movk _ _ _ => none
  | .add _ _ rm => some rm
  | .adds _ _ rm => some rm
  | .sub _ _ rm => some rm
  | .subs _ _ rm => some rm
  | .addi _ _ _ => none
  | .addis _ _ _ => none
  | .subi _ _ _ => none
  | .subis _ _ _ => none
  | .ldur _ _ _ => none
  | .ldurb _ _ _ => none
  | .ldurh _ _ _ => none
  | .ldursw _ _ _ => none
  | .stur rt _ _ => some rt
  | .sturb rt _ _ => some rt
  | .sturh rt _ _ => some rt
  | .sturw rt _ _ => some rt
  | .hlt => none
  | .b _ => none
  | .cbz _ _ => none
  | .cbnz _ _ => none

/-- The destination register (R85): stores, branches and HLT have none (46_pipeline_stages.md R182). -/
def dst : Instr → Option Reg
  | .movz rd _ _ => some rd
  | .movk rd _ _ => some rd
  | .add rd _ _ => some rd
  | .adds rd _ _ => some rd
  | .sub rd _ _ => some rd
  | .subs rd _ _ => some rd
  | .addi rd _ _ => some rd
  | .addis rd _ _ => some rd
  | .subi rd _ _ => some rd
  | .subis rd _ _ => some rd
  | .ldur rt _ _ => some rt
  | .ldurb rt _ _ => some rt
  | .ldurh rt _ _ => some rt
  | .ldursw rt _ _ => some rt
  | .stur _ _ _ => none
  | .sturb _ _ _ => none
  | .sturh _ _ _ => none
  | .sturw _ _ _ => none
  | .hlt => none
  | .b _ => none
  | .cbz _ _ => none
  | .cbnz _ _ => none

/-- MOVZ/MOVK immediate: zero-extended (R80; the spec's decision D6, log 22). -/
def moveImm (imm16 : BitVec 16) : Word := imm16.setWidth 64

/-- ALU immediate: sign-extended from 12 bits (R81). -/
def aluImm (imm12 : BitVec 12) : Word := imm12.signExtend 64

/-- Load/store offset: sign-extended from 9 bits, in bytes (R82). -/
def offsetImm (off9 : BitVec 9) : Word := off9.signExtend 64

/-- CBZ/CBNZ offset: sign-extended from 19 bits, in words (R83). -/
def condOffset (off19 : BitVec 19) : Word := off19.signExtend 64

/-- B offset: sign-extended from 26 bits, in words (R84). -/
def branchOffset (off26 : BitVec 26) : Word := off26.signExtend 64

/-- The extended immediate decode puts into IDEX; 0 for the R format and HLT (R85). -/
def immOf : Instr → Word
  | .movz _ _ imm16 => moveImm imm16
  | .movk _ _ imm16 => moveImm imm16
  | .add _ _ _ => 0
  | .adds _ _ _ => 0
  | .sub _ _ _ => 0
  | .subs _ _ _ => 0
  | .addi _ _ imm12 => aluImm imm12
  | .addis _ _ imm12 => aluImm imm12
  | .subi _ _ imm12 => aluImm imm12
  | .subis _ _ imm12 => aluImm imm12
  | .ldur _ _ off9 => offsetImm off9
  | .ldurb _ _ off9 => offsetImm off9
  | .ldurh _ _ off9 => offsetImm off9
  | .ldursw _ _ off9 => offsetImm off9
  | .stur _ _ off9 => offsetImm off9
  | .sturb _ _ off9 => offsetImm off9
  | .sturh _ _ off9 => offsetImm off9
  | .sturw _ _ off9 => offsetImm off9
  | .hlt => 0
  | .b off26 => branchOffset off26
  | .cbz _ off19 => condOffset off19
  | .cbnz _ off19 => condOffset off19

/-- The move-wide shift amount, `hw × 16`, computed with `ALU.multiply` (41_move_wide.md R117). -/
def moveShift (hw : BitVec 2) : Nat := (aluMultiply (hw.setWidth 64) 16).2.toNat

/-- The effective address of a load or store, `ALU.add(base, imm)` (43_load_store.md R135). -/
def effectiveAddress (base imm : Word) : Word := (aluAdd base imm).1

/-- The branch target, `ALU.add(ipc, imm << 2)` (45_branch.md R156). -/
def branchTarget (ipc imm : Word) : Word := (aluAdd ipc (imm <<< 2)).1

/-- The doubleword view of an 8-byte read (20_memory.md R50). -/
def viewDouble (d : Word) : Word := d

/-- The word view, sign-extended from bit 31 (43_load_store.md R139). -/
def viewSignedWord (d : Word) : Word := (d.extractLsb' 32 32).signExtend 64

/-- The halfword view, zero-extended (43_load_store.md R138; the spec's decision D5, log 22). -/
def viewHalf (d : Word) : Word := (d.extractLsb' 48 16).setWidth 64

/-- The byte view, zero-extended (43_load_store.md R137; the spec's decision D5, log 22). -/
def viewByte (d : Word) : Word := (d.extractLsb' 56 8).setWidth 64

/-! ## The shapes that instructions share -/

/-- What the execute unit makes of an instruction other than HLT (46_pipeline_stages.md R186): what it publishes
into EXMEM, the flags it leaves, and the target where a branch is taken. -/
structure ExOut where
  res : Word
  wdata : Word
  flags : Flags
  taken : Option Word
deriving DecidableEq, Repr

/-- A register result with the flags given. -/
def ExOut.value (res : Word) (flags : Flags) : ExOut := ⟨res, 0, flags, none⟩

/-- A load's or store's effective address and payload (43_load_store.md R135). -/
def ExOut.access (ea wdata : Word) : ExOut := ⟨ea, wdata, flagsAfterNonAlu, none⟩

/-- A branch: a register-less record, and the target if taken (45_branch.md R155). -/
def ExOut.branch (taken : Option Word) : ExOut := ⟨0, 0, flagsAfterNonAlu, taken⟩

/-- The flags an instruction leaves. -/
def setFlags (f : Flags) (s : State) : State := { s with flags := f }

/-- The net effect of an instruction with a register result (42_arithmetic.md R120, 41_move_wide.md R115): a
destination of 31 is the fatal error of 60_exceptions.md R240, otherwise the result is written. -/
def retireValue (rd : Reg) (o : ExOut) (s : State) : Host.Outcome State Fault Refusal :=
  match rd with
  | .xzr => .next (raiseFatal .zeroRegisterWrite s)
  | .x n => .next (writeReg n o.res (setFlags o.flags s))

/-- A load's memory access: the 8-byte read and the view of it that is the loaded value (20_memory.md R50). -/
def loadVia (view : Word → Word) (ea : Word) (s : State) : State × Word :=
  (mmuRead ea s, view (mmuRead ea s).mdr)

/-- A store's memory access (43_load_store.md R135): it forwards no value. -/
def storeVia (w : Width) (ea wdata : Word) (s : State) : State × Word := (mmuWrite ea w wdata s, 0)

/-- A load's access and, where it commits, its register write; a destination of 31 is fatal. -/
def retireLoadIf (commits : Bool) (rt : Reg) (o : ExOut) (access : Word → State → State × Word) (s : State) :
    Host.Outcome State Fault Refusal :=
  match rt with
  | .xzr => .next (raiseFatal .zeroRegisterWrite s)
  | .x n =>
    let r := access o.res (setFlags o.flags s)
    .next (if commits then writeReg n r.2 r.1 else r.1)

/-- The net effect of a load: one with a byte out of bounds halts and never commits (60_exceptions.md R247,
log 12). -/
def retireLoad (rt : Reg) (o : ExOut) (access : Word → State → State × Word) (s : State) :
    Host.Outcome State Fault Refusal :=
  retireLoadIf (s.spanInRange o.res 8) rt o access s

/-- A load as the sequential machine retires it: it always commits (47_pipeline_control.md R231). -/
def retireLoadSeq (rt : Reg) (o : ExOut) (access : Word → State → State × Word) (s : State) :
    Host.Outcome State Fault Refusal :=
  retireLoadIf true rt o access s

/-- The net effect of a store. -/
def retireStore (o : ExOut) (access : Word → Word → State → State × Word) (s : State) :
    Host.Outcome State Fault Refusal :=
  .next (access o.res o.wdata (setFlags o.flags s)).1

/-- The net effect of a branch (45_branch.md R157 to R159). -/
def retireBranch (o : ExOut) (s : State) : Host.Outcome State Fault Refusal :=
  match o.taken with
  | some target => .next { setFlags o.flags s with pc := target }
  | none => .next (setFlags o.flags s)

end Sys2Proof.Machine
end

