-- ==== Sys2Proof/Machine/Arithmetic.lean ====
section
/-! DEFINITION. Integer add and subtract (spec/42_arithmetic.md): for each instruction its execute step and its
meaning. The forms with S keep the flags of the addition, the plain forms clear them (R120, 40_alu.md R110). -/

namespace Sys2Proof.Machine

/-- An arithmetic result whose flags are retained (R120, the S forms). -/
def keepFlags (r : Word × Flags) : ExOut := ExOut.value r.1 r.2

/-- An arithmetic result whose flags are cleared immediately after (R120, the plain forms). -/
def dropFlags (r : Word × Flags) : ExOut := ExOut.value r.1 clearFlags

/-- ADD's execute step (R121). -/
def exAdd (a b : Word) : ExOut := dropFlags (aluAdd a b)

/-- ADDS's execute step (R122). -/
def exAdds (a b : Word) : ExOut := keepFlags (aluAdd a b)

/-- SUB's execute step (R123). -/
def exSub (a b : Word) : ExOut := dropFlags (aluSub a b)

/-- SUBS's execute step (R124). -/
def exSubs (a b : Word) : ExOut := keepFlags (aluSub a b)

/-- ADDI's execute step (R125). -/
def exAddi (a imm : Word) : ExOut := dropFlags (aluAdd a imm)

/-- ADDIS's execute step (R126). -/
def exAddis (a imm : Word) : ExOut := keepFlags (aluAdd a imm)

/-- SUBI's execute step (R127). -/
def exSubi (a imm : Word) : ExOut := dropFlags (aluSub a imm)

/-- SUBIS's execute step (R128). -/
def exSubis (a imm : Word) : ExOut := keepFlags (aluSub a imm)

/-- ADD (R121). -/
def execAdd (rd rn rm : Reg) (s : State) : Host.Outcome State Fault Refusal :=
  retireValue rd (exAdd (s.x rn) (s.x rm)) s

/-- ADDS (R122). -/
def execAdds (rd rn rm : Reg) (s : State) : Host.Outcome State Fault Refusal :=
  retireValue rd (exAdds (s.x rn) (s.x rm)) s

/-- SUB (R123). -/
def execSub (rd rn rm : Reg) (s : State) : Host.Outcome State Fault Refusal :=
  retireValue rd (exSub (s.x rn) (s.x rm)) s

/-- SUBS (R124). -/
def execSubs (rd rn rm : Reg) (s : State) : Host.Outcome State Fault Refusal :=
  retireValue rd (exSubs (s.x rn) (s.x rm)) s

/-- ADDI (R125). -/
def execAddi (rd rn : Reg) (imm12 : BitVec 12) (s : State) : Host.Outcome State Fault Refusal :=
  retireValue rd (exAddi (s.x rn) (aluImm imm12)) s

/-- ADDIS (R126). -/
def execAddis (rd rn : Reg) (imm12 : BitVec 12) (s : State) : Host.Outcome State Fault Refusal :=
  retireValue rd (exAddis (s.x rn) (aluImm imm12)) s

/-- SUBI (R127). -/
def execSubi (rd rn : Reg) (imm12 : BitVec 12) (s : State) : Host.Outcome State Fault Refusal :=
  retireValue rd (exSubi (s.x rn) (aluImm imm12)) s

/-- SUBIS (R128). -/
def execSubis (rd rn : Reg) (imm12 : BitVec 12) (s : State) : Host.Outcome State Fault Refusal :=
  retireValue rd (exSubis (s.x rn) (aluImm imm12)) s

end Sys2Proof.Machine
end

