-- ==== Sys2Proof/Machine/Branch.lean ====
section
/-! DEFINITION. Control transfer (spec/45_branch.md): for each instruction its execute step and its meaning. In a
meaning the state's PC is the incremented PC, the instruction's own address plus 4 (R156). -/

namespace Sys2Proof.Machine

/-- The zero flag of a register, by a flag-only add against zero (R158). -/
def isZero (a : Word) : Bool := (aluAdd a 0).2.z

/-- B's execute step (R157): always taken. -/
def exB (ipc imm : Word) : ExOut := ExOut.branch (some (branchTarget ipc imm))

/-- CBZ's execute step (R158). -/
def exCbz (ipc a imm : Word) : ExOut := ExOut.branch (if isZero a then some (branchTarget ipc imm) else none)

/-- CBNZ's execute step (R159). -/
def exCbnz (ipc a imm : Word) : ExOut := ExOut.branch (if isZero a then none else some (branchTarget ipc imm))

/-- B (R157). -/
def execB (off26 : BitVec 26) (s : State) : Host.Outcome State Fault Refusal :=
  retireBranch (exB s.pc (branchOffset off26)) s

/-- CBZ (R158). -/
def execCbz (rt : Reg) (off19 : BitVec 19) (s : State) : Host.Outcome State Fault Refusal :=
  retireBranch (exCbz s.pc (s.x rt) (condOffset off19)) s

/-- CBNZ (R159). -/
def execCbnz (rt : Reg) (off19 : BitVec 19) (s : State) : Host.Outcome State Fault Refusal :=
  retireBranch (exCbnz s.pc (s.x rt) (condOffset off19)) s

end Sys2Proof.Machine
end

