-- ==== Sys2Proof/Machine/LoadStore.lean ====
section
/-! DEFINITION. Loads and stores (spec/43_load_store.md): for each instruction its execute step (the effective
address and the payload, R135), its memory-access step (46_pipeline_stages.md R188) and its meaning. -/

namespace Sys2Proof.Machine

/-- LDUR's execute step (R135). -/
def exLdur (a imm : Word) : ExOut := ExOut.access (effectiveAddress a imm) 0

/-- LDUR's memory access (R136). -/
def memLdur (ea : Word) (s : State) : State × Word := loadVia viewDouble ea s

/-- LDUR (R136). -/
def execLdur (rt rn : Reg) (off9 : BitVec 9) (s : State) : Host.Outcome State Fault Refusal :=
  retireLoad rt (exLdur (s.x rn) (offsetImm off9)) memLdur s

/-- LDURB's execute step (R135). -/
def exLdurb (a imm : Word) : ExOut := ExOut.access (effectiveAddress a imm) 0

/-- LDURB's memory access (R137). -/
def memLdurb (ea : Word) (s : State) : State × Word := loadVia viewByte ea s

/-- LDURB (R137). -/
def execLdurb (rt rn : Reg) (off9 : BitVec 9) (s : State) : Host.Outcome State Fault Refusal :=
  retireLoad rt (exLdurb (s.x rn) (offsetImm off9)) memLdurb s

/-- LDURH's execute step (R135). -/
def exLdurh (a imm : Word) : ExOut := ExOut.access (effectiveAddress a imm) 0

/-- LDURH's memory access (R138). -/
def memLdurh (ea : Word) (s : State) : State × Word := loadVia viewHalf ea s

/-- LDURH (R138). -/
def execLdurh (rt rn : Reg) (off9 : BitVec 9) (s : State) : Host.Outcome State Fault Refusal :=
  retireLoad rt (exLdurh (s.x rn) (offsetImm off9)) memLdurh s

/-- LDURSW's execute step (R135). -/
def exLdursw (a imm : Word) : ExOut := ExOut.access (effectiveAddress a imm) 0

/-- LDURSW's memory access (R139). -/
def memLdursw (ea : Word) (s : State) : State × Word := loadVia viewSignedWord ea s

/-- LDURSW (R139). -/
def execLdursw (rt rn : Reg) (off9 : BitVec 9) (s : State) : Host.Outcome State Fault Refusal :=
  retireLoad rt (exLdursw (s.x rn) (offsetImm off9)) memLdursw s

/-- STUR's execute step (R135). -/
def exStur (a b imm : Word) : ExOut := ExOut.access (effectiveAddress a imm) b

/-- STUR's memory access (R140). -/
def memStur (ea wdata : Word) (s : State) : State × Word := storeVia .double ea wdata s

/-- STUR (R140). -/
def execStur (rt rn : Reg) (off9 : BitVec 9) (s : State) : Host.Outcome State Fault Refusal :=
  retireStore (exStur (s.x rn) (s.x rt) (offsetImm off9)) memStur s

/-- STURB's execute step (R135). -/
def exSturb (a b imm : Word) : ExOut := ExOut.access (effectiveAddress a imm) b

/-- STURB's memory access (R141). -/
def memSturb (ea wdata : Word) (s : State) : State × Word := storeVia .byte ea wdata s

/-- STURB (R141). -/
def execSturb (rt rn : Reg) (off9 : BitVec 9) (s : State) : Host.Outcome State Fault Refusal :=
  retireStore (exSturb (s.x rn) (s.x rt) (offsetImm off9)) memSturb s

/-- STURH's execute step (R135). -/
def exSturh (a b imm : Word) : ExOut := ExOut.access (effectiveAddress a imm) b

/-- STURH's memory access (R142). -/
def memSturh (ea wdata : Word) (s : State) : State × Word := storeVia .half ea wdata s

/-- STURH (R142). -/
def execSturh (rt rn : Reg) (off9 : BitVec 9) (s : State) : Host.Outcome State Fault Refusal :=
  retireStore (exSturh (s.x rn) (s.x rt) (offsetImm off9)) memSturh s

/-- STURW's execute step (R135). -/
def exSturw (a b imm : Word) : ExOut := ExOut.access (effectiveAddress a imm) b

/-- STURW's memory access (R143). -/
def memSturw (ea wdata : Word) (s : State) : State × Word := storeVia .word ea wdata s

/-- STURW (R143). -/
def execSturw (rt rn : Reg) (off9 : BitVec 9) (s : State) : Host.Outcome State Fault Refusal :=
  retireStore (exSturw (s.x rn) (s.x rt) (offsetImm off9)) memSturw s

end Sys2Proof.Machine
end

