-- ==== Sys2Proof/Machine/MoveWide.lean ====
section
/-! DEFINITION. Move wide (spec/41_move_wide.md): for each instruction its execute step and its meaning. -/

namespace Sys2Proof.Machine

/-- MOVZ's execute step (R115). -/
def exMovz (hw : BitVec 2) (imm : Word) : ExOut := ExOut.value (imm <<< moveShift hw) flagsAfterNonAlu

/-- MOVK's execute step (R116): the field is replaced, the other 48 bits of the old value are kept. -/
def exMovk (hw : BitVec 2) (a imm : Word) : ExOut :=
  ExOut.value ((a &&& ~~~((0xFFFF : Word) <<< moveShift hw)) ||| (imm <<< moveShift hw)) flagsAfterNonAlu

/-- MOVZ (R115). -/
def execMovz (rd : Reg) (hw : BitVec 2) (imm16 : BitVec 16) (s : State) : Host.Outcome State Fault Refusal :=
  retireValue rd (exMovz hw (moveImm imm16)) s

/-- MOVK (R116). -/
def execMovk (rd : Reg) (hw : BitVec 2) (imm16 : BitVec 16) (s : State) : Host.Outcome State Fault Refusal :=
  retireValue rd (exMovk hw (s.x rd) (moveImm imm16)) s

end Sys2Proof.Machine
end

