-- ==== Sys2Proof/Machine/System.lean ====
section
/-! DEFINITION. The system instruction HLT (spec/44_system.md). -/

namespace Sys2Proof.Machine

/-- HLT's execute step (R150): the clock is asked to stop; nothing is published and the flags stay. -/
def exHlt (s : State) : State := requestHalt s

/-- HLT (R150), every older instruction having retired. -/
def execHlt (s : State) : Host.Outcome State Fault Refusal := .next (exHlt s)

end Sys2Proof.Machine
end

