-- ==== Sys2Proof/Machine/Dispatch.lean ====
section
/-! DEFINITION. From an instruction to its meaning: the net effect on the state after the instruction's fetch
(spec/47_pipeline_control.md R231; for a load out of bounds 60_exceptions.md R247, log 12), one arm per
constructor. -/

namespace Sys2Proof.Machine

def exec (i : Instr) (s : State) : Host.Outcome State Fault Refusal :=
  match i with
  | .movz rd hw imm16 => Sys2Proof.Machine.execMovz rd hw imm16 s
  | .movk rd hw imm16 => Sys2Proof.Machine.execMovk rd hw imm16 s
  | .add rd rn rm => Sys2Proof.Machine.execAdd rd rn rm s
  | .adds rd rn rm => Sys2Proof.Machine.execAdds rd rn rm s
  | .sub rd rn rm => Sys2Proof.Machine.execSub rd rn rm s
  | .subs rd rn rm => Sys2Proof.Machine.execSubs rd rn rm s
  | .addi rd rn imm12 => Sys2Proof.Machine.execAddi rd rn imm12 s
  | .addis rd rn imm12 => Sys2Proof.Machine.execAddis rd rn imm12 s
  | .subi rd rn imm12 => Sys2Proof.Machine.execSubi rd rn imm12 s
  | .subis rd rn imm12 => Sys2Proof.Machine.execSubis rd rn imm12 s
  | .ldur rt rn off9 => Sys2Proof.Machine.execLdur rt rn off9 s
  | .ldurb rt rn off9 => Sys2Proof.Machine.execLdurb rt rn off9 s
  | .ldurh rt rn off9 => Sys2Proof.Machine.execLdurh rt rn off9 s
  | .ldursw rt rn off9 => Sys2Proof.Machine.execLdursw rt rn off9 s
  | .stur rt rn off9 => Sys2Proof.Machine.execStur rt rn off9 s
  | .sturb rt rn off9 => Sys2Proof.Machine.execSturb rt rn off9 s
  | .sturh rt rn off9 => Sys2Proof.Machine.execSturh rt rn off9 s
  | .sturw rt rn off9 => Sys2Proof.Machine.execSturw rt rn off9 s
  | .hlt => Sys2Proof.Machine.execHlt s
  | .b off26 => Sys2Proof.Machine.execB off26 s
  | .cbz rt off19 => Sys2Proof.Machine.execCbz rt off19 s
  | .cbnz rt off19 => Sys2Proof.Machine.execCbnz rt off19 s

end Sys2Proof.Machine
end

