-- ==== Sys2Proof/Machine/Pipeline.lean ====
section
/-! DEFINITION. The five stage units as guarded indivisible steps (spec/46_pipeline_stages.md): what each unit does
with an instruction, when its step is enabled (R192), and the step. -/

namespace Sys2Proof.Machine

/-! ## Fetch -/

/-- The fetch unit's read (R172, R173): an 8-byte MMU read at the PC, the PC advanced by 4; the word kept is the
upper half of MDR (20_memory.md R52). -/
def fetchAccess (s : State) : State := { mmuRead s.pc s with pc := s.pc + 4 }

/-- The word a fetch keeps: the upper 32 bits of the 8-byte read (20_memory.md R52). -/
def upperWord (d : Word) : IWord := d.extractLsb' 32 32

/-- The word at the PC, as a fetch reads it. -/
def State.fetchedWord (s : State) : IWord := upperWord (s.wordAt s.pc)

/-- The fetch step (R173). -/
def fetchStep (s : State) : State :=
  let s1 := fetchAccess s
  { s1 with ifid := some ⟨upperWord s1.mdr, s1.pc⟩, taskIF := .done }

/-! ## Decode -/

/-- A source register that is not in the LockQueue, or none (R179). -/
def State.sourceFree (s : State) : Option Reg → Bool
  | some r => !s.locked r
  | none => true

/-- Every source register of the instruction is unlocked (R179). -/
def State.sourcesFree (s : State) (i : Instr) : Bool := s.sourceFree (src1 i) && s.sourceFree (src2 i)

/-- The reservation decode makes (R182): the destination, one of X0 to X30, or none. -/
def reservation (i : Instr) : Option (Fin 31) :=
  match dst i with
  | some (.x n) => some n
  | some .xzr => none
  | none => none

/-- The instruction writes index 31 (R181). -/
def writesXzr (i : Instr) : Bool := dst i == some .xzr

/-- The record decode publishes into IDEX (R183). -/
def idexRecord (d : IFID) (i : Instr) (s : State) : IDEX where
  instr := d.instr
  ipc := d.ipc
  a := s.xOpt (src1 i)
  b := s.xOpt (src2 i)
  imm := immOf i
  reserved := (reservation i).isSome

/-- The reservation enters the LockQueue, if there is one (R182). -/
def reserve (i : Instr) (s : State) : State :=
  match reservation i with
  | some n => lqEnqueue n s
  | none => s

/-- The decode step is enabled (R192, R177, R181): at once for a word of no row; otherwise when the sources are
unlocked, and, unless the destination is 31, IDEX is empty. -/
def decodeEnabled (d : IFID) (s : State) : Bool :=
  match decode d.instr with
  | .error _ => true
  | .ok i => s.sourcesFree i && (writesXzr i || s.idex.isNone)

/-- The decode step (R183), with the two fatal errors of R177 and R181. -/
def decodeStep (d : IFID) (s : State) : State :=
  match decode d.instr with
  | .error _ => raiseFatal .unknownOpcode s
  | .ok i =>
    if writesXzr i then raiseFatal .zeroRegisterWrite s
    else { reserve i s with idex := some (idexRecord d i s), taskID := .done }

/-! ## Execute -/

/-- The execute unit on an instruction (R186): `none` for HLT, which publishes nothing. -/
def executeUnit (i : Instr) (ipc a b imm : Word) : Option ExOut :=
  match i with
  | .movz _ hw _ => some (exMovz hw imm)
  | .movk _ hw _ => some (exMovk hw a imm)
  | .add _ _ _ => some (exAdd a b)
  | .adds _ _ _ => some (exAdds a b)
  | .sub _ _ _ => some (exSub a b)
  | .subs _ _ _ => some (exSubs a b)
  | .addi _ _ _ => some (exAddi a imm)
  | .addis _ _ _ => some (exAddis a imm)
  | .subi _ _ _ => some (exSubi a imm)
  | .subis _ _ _ => some (exSubis a imm)
  | .ldur _ _ _ => some (exLdur a imm)
  | .ldurb _ _ _ => some (exLdurb a imm)
  | .ldurh _ _ _ => some (exLdurh a imm)
  | .ldursw _ _ _ => some (exLdursw a imm)
  | .stur _ _ _ => some (exStur a b imm)
  | .sturb _ _ _ => some (exSturb a b imm)
  | .sturh _ _ _ => some (exSturh a b imm)
  | .sturw _ _ _ => some (exSturw a b imm)
  | .hlt => none
  | .b _ => some (exB ipc imm)
  | .cbz _ _ => some (exCbz ipc a imm)
  | .cbnz _ _ => some (exCbnz ipc a imm)

/-- The execute step is enabled (R186, R192): HLT when memory access and writeback report idle (44_system.md
R151), every other class when EXMEM is empty. DESIGN CHOICE (log 24): the unreachable consistency check of R185 is
raised at once; R185 names no wait, R192 lists it in the row whose guard has `EXMEM empty`. -/
def executeEnabled (d : IDEX) (s : State) : Bool :=
  match decode d.instr with
  | .error _ => true
  | .ok .hlt => !s.busyMEM && !s.busyWB
  | .ok _ => s.exmem.isNone

/-- A taken branch sets the flushing mark and invokes flush; otherwise nothing (45_branch.md R155). -/
def resolveBranch (taken : Option Word) (s : State) : State :=
  match taken with
  | some target => flush target { s with exFlushing := true }
  | none => s

/-- The execute step (R186), with the consistency check of R185. -/
def executeStep (d : IDEX) (s : State) : State :=
  match decode d.instr with
  | .error _ => raiseFatal .unknownOpcode s
  | .ok i =>
    match executeUnit i d.ipc d.a d.b d.imm with
    | none => { exHlt s with taskEX := .done }
    | some o =>
      { resolveBranch o.taken (setFlags o.flags s) with
        exmem := some ⟨d.instr, o.res, o.wdata⟩, taskEX := .done }

/-! ## Memory access -/

/-- The memory-access unit on an instruction (R188): loads read, stores write, all others pass the result. -/
def memoryUnit (i : Instr) (res wdata : Word) (s : State) : State × Word :=
  match i with
  | .ldur _ _ _ => memLdur res s
  | .ldurb _ _ _ => memLdurb res s
  | .ldurh _ _ _ => memLdurh res s
  | .ldursw _ _ _ => memLdursw res s
  | .stur _ _ _ => memStur res wdata s
  | .sturb _ _ _ => memSturb res wdata s
  | .sturh _ _ _ => memSturh res wdata s
  | .sturw _ _ _ => memSturw res wdata s
  | .movz _ _ _ => (s, res)
  | .movk _ _ _ => (s, res)
  | .add _ _ _ => (s, res)
  | .adds _ _ _ => (s, res)
  | .sub _ _ _ => (s, res)
  | .subs _ _ _ => (s, res)
  | .addi _ _ _ => (s, res)
  | .addis _ _ _ => (s, res)
  | .subi _ _ _ => (s, res)
  | .subis _ _ _ => (s, res)
  | .hlt => (s, res)
  | .b _ => (s, res)
  | .cbz _ _ => (s, res)
  | .cbnz _ _ => (s, res)

/-- The memory-access step (R188); a word of no row, which cannot arrive, is passed like every other (log 24). -/
def memoryStep (e : EXMEM) (s : State) : State :=
  let r := match decode e.instr with
    | .ok i => memoryUnit i e.res e.wdata s
    | .error _ => (s, e.res)
  { r.1 with memwb := some ⟨e.instr, r.2⟩, taskMEM := .done }

/-! ## Writeback -/

/-- The classes that only signal completion: branches and stores, and HLT, which never arrives (R189, R190). -/
def onlySignals : Instr → Bool
  | .stur _ _ _ => true
  | .sturb _ _ _ => true
  | .sturh _ _ _ => true
  | .sturw _ _ _ => true
  | .hlt => true
  | .b _ => true
  | .cbz _ _ => true
  | .cbnz _ _ => true
  | .movz _ _ _ => false
  | .movk _ _ _ => false
  | .add _ _ _ => false
  | .adds _ _ _ => false
  | .sub _ _ _ => false
  | .subs _ _ _ => false
  | .addi _ _ _ => false
  | .addis _ _ _ => false
  | .subi _ _ _ => false
  | .subis _ _ _ => false
  | .ldur _ _ _ => false
  | .ldurb _ _ _ => false
  | .ldurh _ _ _ => false
  | .ldursw _ _ _ => false

/-- Writeback dequeues for this word (R190): every class but those that only signal (log 24 for a word of no row). -/
def dequeues (w : IWord) : Bool :=
  match decode w with
  | .ok i => !onlySignals i
  | .error _ => true

/-- The writeback step (R190): the register written is the one dequeued from the LockQueue. -/
def writebackStep (m : MEMWB) (s : State) : Host.Outcome State Fault Refusal :=
  if dequeues m.instr then
    match s.lq with
    | n :: rest => .next { writeReg n m.val s with lq := rest, taskWB := .done }
    | [] => .fault .emptyLockQueue
  else .next { s with taskWB := .done }

/-! ## The stages together -/

/-- The step of a stage is enabled (R192). -/
def stageEnabled (st : Stage) (s : State) : Bool :=
  match st with
  | .fetch =>
    match s.taskIF with
    | .running _ => true
    | .none => false
    | .done => false
  | .decode =>
    match s.taskID with
    | .running d => decodeEnabled d s
    | .none => false
    | .done => false
  | .execute =>
    match s.taskEX with
    | .running d => executeEnabled d s
    | .none => false
    | .done => false
  | .memory =>
    match s.taskMEM with
    | .running _ => s.memwb.isNone
    | .none => false
    | .done => false
  | .writeback =>
    match s.taskWB with
    | .running _ => true
    | .none => false
    | .done => false

/-- The step of a stage on the task it runs; a stage without a running task does nothing. -/
def stageStep (st : Stage) (s : State) : Host.Outcome State Fault Refusal :=
  match st with
  | .fetch => .next (fetchStep s)
  | .decode =>
    match s.taskID with
    | .running d => .next (decodeStep d s)
    | .none => .next s
    | .done => .next s
  | .execute =>
    match s.taskEX with
    | .running d => .next (executeStep d s)
    | .none => .next s
    | .done => .next s
  | .memory =>
    match s.taskMEM with
    | .running e => .next (memoryStep e s)
    | .none => .next s
    | .done => .next s
  | .writeback =>
    match s.taskWB with
    | .running m => writebackStep m s
    | .none => .next s
    | .done => .next s

end Sys2Proof.Machine
end

