-- ==== Sys2Proof/Machine/Controller.lean ====
section
/-! DEFINITION. The pipeline controller (spec/47_pipeline_control.md): `pulse()`, the reference schedule's tick, the
sequential machine, and the events a run is made of (R215). -/

namespace Sys2Proof.Machine

/-- A task whose work has completed. -/
def Task.isDone {α : Type} : Task α → Bool
  | .done => true
  | .none => false
  | .running _ => false

/-! ## pulse() (R203, R204): tail first, each stage cleared and then launched -/

/-- Writeback: clear the busy flag of completed work. -/
def clearWB (s : State) : State :=
  if s.busyWB && s.taskWB.isDone then { s with busyWB := false, taskWB := .none } else s

/-- Writeback: pop MEMWB and launch. -/
def launchWB (s : State) : State :=
  match s.memwb with
  | some m => if s.busyWB then s else { s with taskWB := .running m, memwb := none, busyWB := true }
  | none => s

/-- Memory access: clear the busy flag of completed work. -/
def clearMEM (s : State) : State :=
  if s.busyMEM && s.taskMEM.isDone then { s with busyMEM := false, taskMEM := .none } else s

/-- Memory access: pop EXMEM and launch. -/
def launchMEM (s : State) : State :=
  match s.exmem with
  | some e => if s.busyMEM then s else { s with taskMEM := .running e, exmem := none, busyMEM := true }
  | none => s

/-- Execute: clear the busy flag of completed work. -/
def clearEX (s : State) : State :=
  if s.busyEX && s.taskEX.isDone then { s with busyEX := false, taskEX := .none } else s

/-- Execute: pop IDEX and launch, unless the execute unit is mid-flush (R21, R208). -/
def launchEX (s : State) : State :=
  match s.idex with
  | some d =>
    if s.busyEX || s.exFlushing then s else { s with taskEX := .running d, idex := none, busyEX := true }
  | none => s

/-- Decode: clear the busy flag of completed work. -/
def clearID (s : State) : State :=
  if s.busyID && s.taskID.isDone then { s with busyID := false, taskID := .none } else s

/-- Decode: pop IFID and launch. -/
def launchID (s : State) : State :=
  match s.ifid with
  | some d => if s.busyID then s else { s with taskID := .running d, ifid := none, busyID := true }
  | none => s

/-- Fetch: clear the busy flag of completed work (R204). -/
def clearIF (s : State) : State :=
  if s.busyIF && s.taskIF.isDone then { s with busyIF := false, taskIF := .none } else s

/-- Fetch: launch when IFID is empty and fetch is idle (R204). -/
def launchIF (s : State) : State :=
  match s.ifid with
  | some _ => s
  | none => if s.busyIF then s else { s with taskIF := .running (), busyIF := true }

/-- `pulse()` as one indivisible step (R203, R204): it only admits. -/
def pulse (s : State) : State :=
  launchIF (clearIF (launchID (clearID (launchEX (clearEX (launchMEM (clearMEM (launchWB (clearWB s)))))))))

/-! ## The reference schedule (R220) -/

/-- In the settle phase: the stage's step, if it is enabled and the run has not ended in a fatal error. -/
def settleStage (st : Stage) (s : State) : Host.Outcome State Fault Refusal :=
  if s.fatal.isNone && stageEnabled st s then stageStep st s else .next s

/-- The settle phase: the oldest instruction first (R220). -/
def settle (s : State) : Host.Outcome State Fault Refusal :=
  andThen (andThen (andThen (andThen (settleStage .writeback s)
    (settleStage .memory)) (settleStage .execute)) (settleStage .decode)) (settleStage .fetch)

/-- The admission phase: a pulse, unless the run has ended (R220). -/
def admitPhase (s : State) : State := if s.halted || s.fatal.isSome then s else pulse (beginRun s)

/-- One tick of the reference schedule (R220). -/
def tick (s : State) : Host.Outcome State Fault Refusal :=
  andThen (settle s) fun s' => .next (admitPhase s')

/-! ## One instruction at a time -/

/-- Nothing is in flight: at most a fetch has been launched, whose step has not happened (log 4). -/
def State.quiescent (s : State) : Bool :=
  s.ifid.isNone && s.idex.isNone && s.exmem.isNone && s.memwb.isNone
    && s.taskIF != .done && s.taskID == .none && s.taskEX == .none && s.taskMEM == .none && s.taskWB == .none
    && !s.busyID && !s.busyEX && !s.busyMEM && !s.busyWB && s.lq.isEmpty && !s.exFlushing

/-- Decode the word and give it the meaning; a word of no row is the fatal error of 60_exceptions.md R241. -/
def execWord (meaning : Instr → State → Host.Outcome State Fault Refusal) (w : IWord) (s : State) :
    Host.Outcome State Fault Refusal :=
  match decode w with
  | .ok i => meaning i s
  | .error _ => .next (raiseFatal .unknownOpcode s)

/-- One instruction carried alone through the empty pipeline: the fetch, and, unless the fetch requested a halt
(no pulse then hands the word to decode, 60_exceptions.md R245), its meaning (log 4, log 12). -/
def instructionStep (s : State) : Host.Outcome State Fault Refusal :=
  if (fetchAccess s).halted then .next (fetchAccess s)
  else execWord exec (upperWord (fetchAccess s).mdr) (fetchAccess s)

/-! ## Events (R215) -/

/-- An event that needs the clock: enabled only while `halted = 0` and `fatal = none` (R200). -/
def whenClocked (s : State) (o : Host.Outcome State Fault Refusal) : Host.Outcome State Fault Refusal :=
  match s.fatal with
  | some c => .fault (.fatalError c)
  | none => if s.halted then .fault .clockStopped else o

/-- A host action that the spec gives a time: enabled only then (70_reset_and_hazards.md R271). -/
def whenAllowed (ok : Bool) (o : Host.Outcome State Fault Refusal) : Host.Outcome State Fault Refusal :=
  if ok then o else .refused .eventNotEnabled

/-- A stage's step: enabled by its guard, after a halt request too (R217, log 17), never after a fatal error
(60_exceptions.md R242). -/
def stageEvent (st : Stage) (s : State) : Host.Outcome State Fault Refusal :=
  match s.fatal with
  | some c => .fault (.fatalError c)
  | none => if stageEnabled st s then stageStep st s else .refused .eventNotEnabled

/-- What an event does (R215). Memory is created once, before the first pulse, and so `MEM_SIZE` is fixed for a run
(10_state.md R34, 70_reset_and_hazards.md R271); Memory is zeroed or loaded while the core is not running (R271,
log 18). -/
def performEvent (e : Event) (s : State) : Host.Outcome State Fault Refusal :=
  match e with
  | .pulse => whenClocked s (.next (pulse (beginRun s)))
  | .stage st => stageEvent st s
  | .tick => whenClocked s (tick s)
  | .instruction => whenClocked s (if s.quiescent then instructionStep (beginRun s) else .refused .eventNotEnabled)
  | .reset => .next (resetCore s)
  | .createMemory size => whenAllowed (s.phase == .unsized) (.next (createMemory size s))
  | .zeroMemory => whenAllowed (!s.running) (.next (zeroMemory s))
  | .flash image => whenAllowed (s.phase == .unsized) (.next (flashImage image s))
  | .load image => whenAllowed (!s.running)
    (if 4 * image.length ≤ s.params.memSize then .next (loadImage image s) else .refused .imageExceedsMemory)

/-- The event the step takes when the schedule names none: one instruction when nothing is in flight, a reference
tick otherwise (DESIGN CHOICE, log 4). -/
def defaultEvent (s : State) : Event := if s.quiescent then .instruction else .tick

/-- One step of the machine: the next event of the schedule, or the default. -/
def nextEvent (s : State) : Host.Outcome State Fault Refusal :=
  match s.schedule with
  | [] => performEvent (defaultEvent s) s
  | e :: rest => performEvent e { s with schedule := rest }

/-! ## The sequential machine (R231) -/

/-- An instruction's part of `step_seq()` (R231): its meaning, but that a load always commits (log 12). -/
def execSeq (i : Instr) (s : State) : Host.Outcome State Fault Refusal :=
  match i with
  | .ldur rt rn off9 => retireLoadSeq rt (exLdur (s.x rn) (offsetImm off9)) memLdur s
  | .ldurb rt rn off9 => retireLoadSeq rt (exLdurb (s.x rn) (offsetImm off9)) memLdurb s
  | .ldurh rt rn off9 => retireLoadSeq rt (exLdurh (s.x rn) (offsetImm off9)) memLdurh s
  | .ldursw rt rn off9 => retireLoadSeq rt (exLdursw (s.x rn) (offsetImm off9)) memLdursw s
  | .movz rd hw imm16 => exec (.movz rd hw imm16) s
  | .movk rd hw imm16 => exec (.movk rd hw imm16) s
  | .add rd rn rm => exec (.add rd rn rm) s
  | .adds rd rn rm => exec (.adds rd rn rm) s
  | .sub rd rn rm => exec (.sub rd rn rm) s
  | .subs rd rn rm => exec (.subs rd rn rm) s
  | .addi rd rn imm12 => exec (.addi rd rn imm12) s
  | .addis rd rn imm12 => exec (.addis rd rn imm12) s
  | .subi rd rn imm12 => exec (.subi rd rn imm12) s
  | .subis rd rn imm12 => exec (.subis rd rn imm12) s
  | .stur rt rn off9 => exec (.stur rt rn off9) s
  | .sturb rt rn off9 => exec (.sturb rt rn off9) s
  | .sturh rt rn off9 => exec (.sturh rt rn off9) s
  | .sturw rt rn off9 => exec (.sturw rt rn off9) s
  | .hlt => exec .hlt s
  | .b off26 => exec (.b off26) s
  | .cbz rt off19 => exec (.cbz rt off19) s
  | .cbnz rt off19 => exec (.cbnz rt off19) s

/-- `step_seq()` (R231): guarded by the run not having ended; the fetched word is given its meaning even where its
fetch requested a halt. -/
def stepSeq (s : State) : Host.Outcome State Fault Refusal :=
  whenClocked s (execWord execSeq (upperWord (fetchAccess s).mdr) (fetchAccess s))

/-! ## Placing an instruction where the next step fetches it -/

/-- The pipeline emptied and the clock running, so that the next step runs one instruction. -/
def readyToFetch (s : State) : State :=
  { s with
    lq := [], ifid := none, idex := none, exmem := none, memwb := none
    busyIF := false, busyID := false, busyEX := false, busyMEM := false, busyWB := false
    taskIF := .none, taskID := .none, taskEX := .none, taskMEM := .none, taskWB := .none
    exFlushing := false, halted := false, fatal := none, schedule := [] }

/-- Memory made large enough for the 8-byte fetch at the PC (20_memory.md R52). -/
def growForFetch (s : State) : State :=
  { s with params := { s.params with memSize := max s.params.memSize (s.pc.toNat + 8) } }

/-- The word's four bytes stored at the PC, most significant first. -/
def storeFetchWord (w : IWord) (s : State) : State :=
  { s with mem := writtenMem s.params.memSize (bytesOfWord w) s.pc s.mem }

end Sys2Proof.Machine
end

