-- ==== Sys2Proof/Machine/Step.lean ====
section
/-! DEFINITION. The machine's step and the placing of an instruction for it. -/

namespace Sys2Proof.Machine

/-- One step: the next event of the schedule, or, when the schedule names none, one instruction if nothing is in
flight and a tick of the reference schedule otherwise (`nextEvent`, log 4). -/
def step (s : State) : Host.Outcome State Fault Refusal := nextEvent s

/-- The state with the instruction word stored where the next step fetches it: at the PC, the pipeline empty, the
clock running, Memory large enough for the fetch (log 19). -/
def State.withFetchWord (s : State) (nbits w : Nat) : State :=
  storeFetchWord (tableWord nbits w) (growForFetch (readyToFetch s))

end Sys2Proof.Machine
end

