-- ==== Sys2Proof/Safety.lean ====
section
/-! DEFINITION. What counts as a good state and a good run, in the terms the statements use: the canonical Memory,
the controller's bookkeeping (spec/10_state.md R25, R30, R31), the drain condition of HLT (44_system.md R151), the
alignment of the PC (10_state.md R16), the state the instructions in flight will leave (47_pipeline_control.md R216),
and what "nothing else changes" means. -/

namespace Sys2Proof.Machine

/-! ## Memory -/

/-- Memory is in canonical form and lists no byte at or above `MEM_SIZE` (20_memory.md R41). -/
def State.MemoryOk (s : State) : Prop :=
  Memory.wf s.mem = true ∧ Memory.within s.params.memSize s.mem = true

/-! ## The controller's bookkeeping -/

/-- A task other than `none`. -/
def Task.isActive {α : Type} : Task α → Bool
  | .none => false
  | .running _ => true
  | .done => true

/-- The input of a running task. -/
def Task.inputs {α : Type} : Task α → List α
  | .none => []
  | .running a => [a]
  | .done => []

/-- `busy[s] = 1` exactly when the task of `s` is not `none` (10_state.md R31). -/
def State.BusyOk (s : State) : Prop :=
  s.busyIF = s.taskIF.isActive ∧ s.busyID = s.taskID.isActive ∧ s.busyEX = s.taskEX.isActive
    ∧ s.busyMEM = s.taskMEM.isActive ∧ s.busyWB = s.taskWB.isActive

/-- Between steps the flushing gate is released (47_pipeline_control.md R208), and IFID is empty while a fetch is
running (46_pipeline_stages.md R173). -/
def State.GateOk (s : State) : Prop :=
  s.exFlushing = false ∧ (s.taskIF = .running () → s.ifid = none)

/-- The words past execute, oldest first: the writeback task, MEMWB, the memory-access task, EXMEM. -/
def State.pastExecute (s : State) : List IWord :=
  s.taskWB.inputs.map (·.instr) ++ s.memwb.toList.map (·.instr)
    ++ s.taskMEM.inputs.map (·.instr) ++ s.exmem.toList.map (·.instr)

/-- The words that decode has published and writeback has not retired, oldest first: the six places of 10_state.md
R25. -/
def State.inFlight (s : State) : List IWord :=
  s.pastExecute ++ s.taskEX.inputs.map (·.instr) ++ s.idex.toList.map (·.instr)

/-- The reservation an instruction word makes at decode, as a list of at most one index (46_pipeline_stages.md
R182). -/
def reservesOf (w : IWord) : List (Fin 31) :=
  match decode w with
  | .ok i => (reservation i).toList
  | .error _ => []

/-- Every word in flight was accepted by decode: its class is known and its destination is not 31
(46_pipeline_stages.md R177, R181). HLT is never past execute (44_system.md R150). IDEX says whether its instruction
made a reservation (10_state.md R27). -/
def State.AcceptedOk (s : State) : Prop :=
  (∀ w ∈ s.inFlight, ∃ i, decode w = .ok i ∧ i.wellFormed = true)
    ∧ (∀ w ∈ s.pastExecute, decode w ≠ .ok .hlt)
    ∧ (∀ d, s.idex = some d → d.reserved = !(reservesOf d.instr).isEmpty)

/-- The LockQueue is the list of the reservations of the instructions in flight, in program order (10_state.md
R25). -/
def State.LockQueueOk (s : State) : Prop := s.lq = s.inFlight.flatMap reservesOf

/-- A populated latch past execute is accounted for by a busy flag: MEMWB by writeback or memory access, and, while
HLT is in the execute task, EXMEM by memory access (44_system.md R151). -/
def State.DrainOk (s : State) : Prop :=
  (s.memwb ≠ none → s.busyWB = true ∨ s.busyMEM = true)
    ∧ (∀ d, s.taskEX = .running d → decode d.instr = .ok .hlt → s.exmem ≠ none → s.busyMEM = true)

/-- Before the first pulse of a run no stage has a task and every latch is empty (70_reset_and_hazards.md R272). -/
def State.IdleOk (s : State) : Prop :=
  s.phase ≠ .started →
    s.taskIF = .none ∧ s.taskID = .none ∧ s.taskEX = .none ∧ s.taskMEM = .none ∧ s.taskWB = .none
      ∧ s.ifid = none ∧ s.idex = none ∧ s.exmem = none ∧ s.memwb = none

/-- The pipeline's bookkeeping, all of it. -/
def State.PipelineOk (s : State) : Prop :=
  s.BusyOk ∧ s.GateOk ∧ s.AcceptedOk ∧ s.LockQueueOk ∧ s.DrainOk ∧ s.IdleOk

/-- The record is of a branch that is taken: B, or CBZ or CBNZ whose register value meets the condition (45_branch.md
R157 to R159). -/
def IDEX.takesBranch (d : IDEX) : Prop :=
  (∃ off26, decode d.instr = .ok (.b off26)) ∨ (∃ rt off19, decode d.instr = .ok (.cbz rt off19) ∧ d.a = 0)
    ∨ (∃ rt off19, decode d.instr = .ok (.cbnz rt off19) ∧ d.a ≠ 0)

/-! ## The program counter -/

/-- A multiple of 4. -/
def aligned (w : Word) : Prop := w.toNat % 4 = 0

/-- The PC, and every incremented PC carried behind execute, is a multiple of 4 (10_state.md R16). -/
def State.PcOk (s : State) : Prop :=
  aligned s.pc ∧ (∀ d, s.ifid = some d → aligned d.ipc) ∧ (∀ d, s.taskID = .running d → aligned d.ipc)
    ∧ (∀ d, s.idex = some d → aligned d.ipc) ∧ (∀ d, s.taskEX = .running d → aligned d.ipc)

/-- The words between fetch and decode are consecutive: the PC is the incremented PC of the youngest of them
(10_state.md R14, R30). -/
def State.FetchOrderOk (s : State) : Prop :=
  (∀ d, s.ifid = some d → s.pc = d.ipc)
    ∧ (∀ d, s.taskID = .running d → s.ifid = none → s.pc = d.ipc)
    ∧ (∀ d f, s.taskID = .running d → s.ifid = some f → f.ipc = d.ipc + 4)

/-! ## What the instructions in flight will leave -/

/-- A record in writeback, retired: its value in its destination register, where it has one. -/
def retireMEMWB (m : MEMWB) (s : State) : State :=
  match reservesOf m.instr with
  | n :: _ => writeReg n m.val s
  | [] => s

/-- A record in memory access, carried to its retirement. -/
def retireEXMEM (e : EXMEM) (s : State) : State :=
  match decode e.instr with
  | .ok i =>
    let r := memoryUnit i e.res e.wdata s
    retireMEMWB ⟨e.instr, r.2⟩ r.1
  | .error _ => s

/-- What the execute unit will make of a record: nothing for HLT. -/
def IDEX.outcome (d : IDEX) : Option ExOut :=
  match decode d.instr with
  | .ok i => executeUnit i d.ipc d.a d.b d.imm
  | .error _ => none

/-- A record in execute, carried to its retirement: its flags, its target if it is a taken branch, its access and
its register. -/
def retireIDEX (d : IDEX) (s : State) : State :=
  match d.outcome with
  | some o =>
    let s1 := retireEXMEM ⟨d.instr, o.res, o.wdata⟩ (setFlags o.flags s)
    match o.taken with
    | some target => { s1 with pc := target }
    | none => s1
  | none => s

/-- A record after which no younger instruction in the pipeline is executed: a taken branch or HLT. -/
def IDEX.endsPath (d : IDEX) : Bool :=
  match d.outcome with
  | some o => o.taken.isSome
  | none => true

/-- The address of the next word decode will see, when no older branch is taken. -/
def State.nextAddress (s : State) : Word :=
  match s.taskID, s.ifid with
  | .running d, _ => d.ipc - 4
  | .none, some d => d.ipc - 4
  | .done, some d => d.ipc - 4
  | .none, none => s.pc
  | .done, none => s.pc

/-- The state with every instruction that decode has published carried to its retirement, oldest first, except one
that a taken branch or HLT in the execute task will keep from executing, and with the PC at the next instruction on
the path. Only its registers, PC, flags and Memory are meant. -/
def State.completed (s : State) : State :=
  let s0 := { s with pc := s.nextAddress }
  let s1 := s.taskWB.inputs.foldl (fun t m => retireMEMWB m t) s0
  let s2 := s.memwb.toList.foldl (fun t m => retireMEMWB m t) s1
  let s3 := s.taskMEM.inputs.foldl (fun t e => retireEXMEM e t) s2
  let s4 := s.exmem.toList.foldl (fun t e => retireEXMEM e t) s3
  let s5 := s.taskEX.inputs.foldl (fun t d => retireIDEX d t) s4
  if s.taskEX.inputs.any (·.endsPath) then s5
  else s.idex.toList.foldl (fun t d => retireIDEX d t) s5

/-! ## Comparing states -/

/-- The registers, PC, flags, Memory and run-state bits are equal: what a program and its host see of a run
(47_pipeline_control.md R231). -/
def State.SameArch (s t : State) : Prop :=
  t.regs = s.regs ∧ t.pc = s.pc ∧ t.flags = s.flags ∧ t.mem = s.mem ∧ t.halted = s.halted ∧ t.fatal = s.fatal

/-- Every piece of control state is equal: the LockQueue, the latches, the busy flags and tasks, the flushing gate,
the fatal condition, the parameters, the phase and the events still to come. -/
def State.SameControl (s t : State) : Prop :=
  t.lq = s.lq ∧ t.ifid = s.ifid ∧ t.idex = s.idex ∧ t.exmem = s.exmem ∧ t.memwb = s.memwb
    ∧ t.busyIF = s.busyIF ∧ t.busyID = s.busyID ∧ t.busyEX = s.busyEX ∧ t.busyMEM = s.busyMEM ∧ t.busyWB = s.busyWB
    ∧ t.taskIF = s.taskIF ∧ t.taskID = s.taskID ∧ t.taskEX = s.taskEX ∧ t.taskMEM = s.taskMEM ∧ t.taskWB = s.taskWB
    ∧ t.exFlushing = s.exFlushing ∧ t.fatal = s.fatal ∧ t.params = s.params ∧ t.phase = s.phase
    ∧ t.schedule = s.schedule

/-- Every register reads as before. -/
def State.SameRegisters (s t : State) : Prop := ∀ r, t.x r = s.x r

/-- Every register but one reads as before. -/
def State.SameRegistersBut (n : Fin 31) (s t : State) : Prop := ∀ r, r ≠ .x n → t.x r = s.x r

/-- Every byte of Memory reads as before, and the list that holds it is the same. -/
def State.SameMemory (s t : State) : Prop := (∀ a, t.byteAt a = s.byteAt a) ∧ t.mem = s.mem

/-- The MMU's staging registers are unchanged. -/
def State.SameStaging (s t : State) : Prop := t.mar = s.mar ∧ t.mdr = s.mdr

/-- The frame of an instruction that writes one register and the flags and touches no memory: all else is
unchanged. -/
def State.OnlyRegister (n : Fin 31) (s t : State) : Prop :=
  s.SameRegistersBut n t ∧ s.SameMemory t ∧ s.SameStaging t ∧ t.pc = s.pc ∧ t.halted = s.halted ∧ s.SameControl t

/-- The frame of an instruction that writes no register and touches no memory: all but the PC and the flags is
unchanged. -/
def State.OnlyPcAndFlags (s t : State) : Prop :=
  s.SameRegisters t ∧ s.SameMemory t ∧ s.SameStaging t ∧ t.halted = s.halted ∧ s.SameControl t

/-- The run is over: nothing is enabled but what a halt leaves to launched stages (60_exceptions.md R242, R245). -/
def State.ended (s : State) : Prop := s.halted = true ∨ s.fatal ≠ none

/-- The fetch at the PC touches no byte out of bounds (20_memory.md R52). -/
def State.fetchInRange (s : State) : Prop := s.spanInRange s.pc 8 = true

/-- The conditions under which a step fetches and runs one instruction: nothing scheduled, nothing in flight, the
clock running (log 4). -/
def State.Ready (s : State) : Prop :=
  s.schedule = [] ∧ s.quiescent = true ∧ s.halted = false ∧ s.fatal = none

/-! ## The tables and families the statements range over -/

/-- The opcode map with its mask and match columns, as 30_encoding.md R86 prints them. -/
def maskMatchRows : List (OpClass × IWord × IWord) :=
  [ (.movz, 0xFF800000, 0xD2800000), (.movk, 0xFF800000, 0xF2800000),
    (.add, 0xFFE00000, 0x8B000000), (.adds, 0xFFE00000, 0xAB000000),
    (.sub, 0xFFE00000, 0xCB000000), (.subs, 0xFFE00000, 0xEB000000),
    (.addi, 0xFFC00000, 0x91000000), (.addis, 0xFFC00000, 0xB1000000),
    (.subi, 0xFFC00000, 0xD1000000), (.subis, 0xFFC00000, 0xF1000000),
    (.ldur, 0xFFE00000, 0xF8400000) ] ++
  [ (.ldurb, 0xFFE00000, 0x38400000), (.ldurh, 0xFFE00000, 0x78400000),
    (.ldursw, 0xFFE00000, 0xB8800000), (.stur, 0xFFE00000, 0xF8000000),
    (.sturb, 0xFFE00000, 0x38000000), (.sturh, 0xFFE00000, 0x78000000),
    (.sturw, 0xFFE00000, 0xB8000000), (.hlt, 0xFFE00000, 0xD4400000),
    (.b, 0xFC000000, 0x14000000), (.cbz, 0xFF000000, 0xB4000000), (.cbnz, 0xFF000000, 0xB5000000) ]

/-- The load of a width (43_load_store.md R136 to R139). -/
def loadInstr (w : Width) (rt rn : Reg) (off9 : BitVec 9) : Instr :=
  match w with
  | .byte => .ldurb rt rn off9
  | .half => .ldurh rt rn off9
  | .word => .ldursw rt rn off9
  | .double => .ldur rt rn off9

/-- The store of a width (43_load_store.md R140 to R143). -/
def storeInstr (w : Width) (rt rn : Reg) (off9 : BitVec 9) : Instr :=
  match w with
  | .byte => .sturb rt rn off9
  | .half => .sturh rt rn off9
  | .word => .sturw rt rn off9
  | .double => .stur rt rn off9

/-- The flags an addition must leave, said of the numbers (40_alu.md R101, R102). -/
def FlagsOfAddition (f : Flags) (a b : Word) : Prop :=
  (f.n = true ↔ (a + b).toInt < 0) ∧ (f.z = true ↔ (a.toNat + b.toNat) % 2 ^ 64 = 0)
    ∧ (f.c = true ↔ 2 ^ 64 ≤ a.toNat + b.toNat)
    ∧ (f.v = true ↔ a.toInt + b.toInt < -2 ^ 63 ∨ 2 ^ 63 ≤ a.toInt + b.toInt)

/-- A word that is a number modulo 2^64 (00_scope.md R8). -/
def isNumber (v : Word) (k : Int) : Prop := (v.toNat : Int) = k % 2 ^ 64

/-- The events that carry one instruction alone through the empty pipeline (log 4). -/
def isolatedSchedule : List Event :=
  [.pulse, .stage .fetch, .pulse, .stage .decode, .pulse, .stage .execute, .pulse, .stage .memory, .pulse,
    .stage .writeback]

/-- For a load: all eight bytes at its effective address exist (20_memory.md R50). For every other instruction:
nothing. -/
def loadInRange (i : Instr) (s : State) : Prop :=
  match i with
  | .ldur _ rn off9 => s.spanInRange (s.x rn + off9.signExtend 64) 8 = true
  | .ldurb _ rn off9 => s.spanInRange (s.x rn + off9.signExtend 64) 8 = true
  | .ldurh _ rn off9 => s.spanInRange (s.x rn + off9.signExtend 64) 8 = true
  | .ldursw _ rn off9 => s.spanInRange (s.x rn + off9.signExtend 64) 8 = true
  | .movz _ _ _ => True
  | .movk _ _ _ => True
  | .add _ _ _ => True
  | .adds _ _ _ => True
  | .sub _ _ _ => True
  | .subs _ _ _ => True
  | .addi _ _ _ => True
  | .addis _ _ _ => True
  | .subi _ _ _ => True
  | .subis _ _ _ => True
  | .stur _ _ _ => True
  | .sturb _ _ _ => True
  | .sturh _ _ _ => True
  | .sturw _ _ _ => True
  | .hlt => True
  | .b _ => True
  | .cbz _ _ => True
  | .cbnz _ _ => True

end Sys2Proof.Machine
end

