-- ==== Sys2Proof/Certificates/Slice0/Obligations.lean ====
section
/-! DEFINITION. The statements for the provers, from the numbered rules of spec/. In a statement about a meaning
(`exec`), the state is the one after the instruction's fetch: its PC is the incremented PC (45_branch.md R156). -/

open Sys2Proof Sys2Proof.Machine

/-! ## Encoding (30_encoding.md) -/

/-- R72 to R78, R86 (the spec's decisions D1, D2, log 1, log 2): decoding the word of an instruction gives the
instruction back, whatever its operands. -/
def Obligations.DecodeOfEncodeGivesTheInstruction : Prop :=
  ∀ i : Instr, decode (encode i) = .ok i

/-- R86, R87 (D1, D2, log 1, log 2): a word is of a class exactly when it matches that class's row of the table,
`w & mask = match`, and the instruction's class is that row's. -/
def Obligations.ClassIsTheMatchingTableRow : Prop :=
  ∀ (w : IWord) (c : OpClass),
    classOf w = some c ↔ ∃ r ∈ maskMatchRows, r.1 = c ∧ w &&& r.2.1 = r.2.2

/-- R90 (the spec's decision D3, log 3): `shamt` of the R format, bits 11:10 of the D format and bits 20:0 of HLT
take no part in decoding. -/
def Obligations.IgnoredBitsDoNotMatter : Prop :=
  (∀ w v : IWord, classOf w ∈ [some OpClass.add, some .adds, some .sub, some .subs] →
      decode (w ^^^ (v &&& 0x0000FC00)) = decode w)
    ∧ (∀ w v : IWord, classOf w ∈ [some OpClass.ldur, some .ldurb, some .ldurh, some .ldursw, some .stur, some .sturb,
        some .sturh, some .sturw] → decode (w ^^^ (v &&& 0x00000C00)) = decode w)
    ∧ (∀ w v : IWord, classOf w = some .hlt → decode (w ^^^ (v &&& 0x001FFFFF)) = decode w)

/-- R94 (worked encodings; D1, D2, log 1, log 2): the words written out in the table decode to what stands beside
them. -/
def Obligations.WorkedEncodingsDecode : Prop :=
  decode 0x8B020020 = .ok (.add (.x 0) (.x 1) (.x 2)) ∧ decode 0xD28000A1 = .ok (.movz (.x 1) 0 5)
    ∧ decode 0xD10004A5 = .ok (.subi (.x 5) (.x 5) 1) ∧ decode 0xB5FFFFC5 = .ok (.cbnz (.x 5) 0x7FFFE)
    ∧ decode 0x14000006 = .ok (.b 6) ∧ decode 0x38000022 = .ok (.sturb (.x 2) (.x 1) 0)
    ∧ decode 0x38400023 = .ok (.ldurb (.x 3) (.x 1) 0) ∧ decode 0xF8400024 = .ok (.ldur (.x 4) (.x 1) 0)
    ∧ decode 0xD4400000 = .ok .hlt

/-! ## The ALU (40_alu.md) -/

/-- R101, R102 (the flag formulas are the spec's decision D9, log 10): the sum modulo 2^64, N its sign, Z its being
zero, C the carry out of bit 63, V signed overflow. -/
def Obligations.AluAddGivesSumAndFlags : Prop :=
  ∀ a b : Word, (aluAdd a b).1.toNat = (a.toNat + b.toNat) % 2 ^ 64 ∧ FlagsOfAddition (aluAdd a b).2 a b

/-- R104: negation is `(2^64 − u(a)) mod 2^64`, equal to `(~a) + 1`; `negate(0) = 0` and
`negate(0x8000000000000000)` is itself. The flags after a bare negate are unspecified there and are no part of the
operation (log 11). -/
def Obligations.AluNegateIsTwosComplement : Prop :=
  (∀ a : Word, (aluNegate a).toNat = (2 ^ 64 - a.toNat) % 2 ^ 64 ∧ aluNegate a = ~~~a + 1)
    ∧ aluNegate 0 = 0 ∧ aluNegate 0x8000000000000000 = 0x8000000000000000

/-- R107 (derived there; flag formulas D9, log 10): subtraction is modulo 2^64; C is clear for `b = 0` and otherwise
says `u(a) ≥ u(b)`; V is `a[63]` for `b = 0x8000000000000000` and otherwise says signed overflow; N and Z are the
result's. -/
def Obligations.SubtractionFlagsHaveTheTwoCorners : Prop :=
  ∀ a b : Word,
    isNumber (aluSub a b).1 ((a.toNat : Int) - b.toNat)
      ∧ ((aluSub a b).2.n = true ↔ (aluSub a b).1.toInt < 0) ∧ ((aluSub a b).2.z = true ↔ a = b)
      ∧ (b = 0 → (aluSub a b).2.c = false) ∧ (b ≠ 0 → ((aluSub a b).2.c = true ↔ b.toNat ≤ a.toNat))
      ∧ (b = 0x8000000000000000 → (aluSub a b).2.v = a.getLsbD 63)
      ∧ (b ≠ 0x8000000000000000 →
          ((aluSub a b).2.v = true ↔ a.toInt - b.toInt < -2 ^ 63 ∨ 2 ^ 63 ≤ a.toInt - b.toInt))

/-- R103 (from general knowledge there, log 10): 64 rippled full adders give the sum, carry and flags of the
addition. -/
def Obligations.RippledAdderIsTheAddition : Prop :=
  ∀ a b : Word, rippleAdd a b = aluAdd a b

/-- R105 (the spec's decision D10, log 11): 64 steps of shift-and-conditional-add give the unsigned 128-bit product,
and so do the two halves of `ALU.multiply`. -/
def Obligations.ShiftAndAddIsTheProduct : Prop :=
  ∀ a b : Word, shiftAddMultiply a b = aluMultiply a b
    ∧ (aluMultiply a b).1.toNat * 2 ^ 64 + (aluMultiply a b).2.toNat = a.toNat * b.toNat

/-! ## Registers (10_state.md) -/

/-- R11: "a read of index 31 returns 0, whatever was done before. Registers 0 to 30 hold what was last written to
them"; a write reaches no other register. -/
def Obligations.RegisterReadsWhatWasLastWritten : Prop :=
  ∀ (s : State) (n : Fin 31) (v : Word),
    (writeReg n v s).x (.x n) = v ∧ (∀ r, r ≠ .x n → (writeReg n v s).x r = s.x r)
      ∧ s.x .xzr = 0 ∧ (writeReg n v s).x .xzr = 0

/-! ## Memory and the MMU (20_memory.md) -/

/-- R44: a byte in range is read without any change, and a write sets that byte and changes nothing else. -/
def Obligations.ByteAccessInRange : Prop :=
  ∀ (s : State) (a : Word) (b : Byte), a.toNat < s.params.memSize →
    memByteRead s a = (s, Memory.read s.mem a.toNat)
      ∧ (Memory.wf s.mem = true → (memByteWrite s a b).byteAt a = b)
      ∧ (∀ a', a' ≠ a → (memByteWrite s a b).byteAt a' = s.byteAt a')
      ∧ memByteWrite s a b = { s with mem := (memByteWrite s a b).mem }

/-- R45, R46 (the byte returned is the parameter `OOB_READ_BYTE`, the spec's decision D13, log 8): a byte out of
bounds requests a halt; the read returns the parameter, the write is ignored, and nothing else changes. -/
def Obligations.ByteAccessOutOfBoundsRequestsHalt : Prop :=
  ∀ (s : State) (a : Word) (b : Byte), s.params.memSize ≤ a.toNat →
    memByteRead s a = ({ s with halted := true }, s.params.oobReadByte)
      ∧ memByteWrite s a b = { s with halted := true }

/-- R48, R62: `MMURead(a)` loads MAR with `a` and MDR with the eight bytes `a .. a+7`, the most significant at `a`;
it requests a halt exactly when one of them is out of bounds, and changes nothing else. -/
def Obligations.MmuReadIsEightBytesBigEndian : Prop :=
  ∀ (s : State) (a : Word),
    (∀ i : Nat, i < 8 → (mmuRead a s).mdr.extractLsb' (8 * (7 - i)) 8 = s.byteAt (a + BitVec.ofNat 64 i))
      ∧ ((mmuRead a s).halted = true ↔
          s.halted = true ∨ ∃ i : Nat, i < 8 ∧ s.params.memSize ≤ (a + BitVec.ofNat 64 i).toNat)
      ∧ mmuRead a s = { s with mar := a, mdr := (mmuRead a s).mdr, halted := (mmuRead a s).halted }

/-- R49, R62: `MMUWrite(a, w, v)` writes the low `w/8` bytes of `v`, the most significant of them first, from `a` up;
bytes out of bounds are ignored and request a halt; no other byte and nothing else changes. -/
def Obligations.MmuWriteStoresTheLowBytes : Prop :=
  ∀ (s : State) (a : Word) (w : Width) (v : Word), Memory.wf s.mem = true →
    (∀ i : Nat, i < w.bytes → s.inRange (a + BitVec.ofNat 64 i) = true →
        (mmuWrite a w v s).byteAt (a + BitVec.ofNat 64 i) = v.extractLsb' (8 * (w.bytes - 1 - i)) 8)
      ∧ (∀ a', (∀ i : Nat, i < w.bytes → a' ≠ a + BitVec.ofNat 64 i) → (mmuWrite a w v s).byteAt a' = s.byteAt a')
      ∧ ((mmuWrite a w v s).halted = true ↔ s.halted = true ∨ s.spanInRange a w.bytes = false)
      ∧ mmuWrite a w v s =
          { s with mar := a, mdr := v, mem := (mmuWrite a w v s).mem, halted := (mmuWrite a w v s).halted }

/-- R43, R271 (`IMAGE_BASE = 0` and the zero fill are the spec's decision D12, log 7; the phase is the model's, log 34):
while Memory has not been created, a flashed image makes a Memory of four bytes a word, each word most significant byte
first from byte address 0 up; registers and PC stay. -/
def Obligations.FlashedImageIsBigEndianFromZero : Prop :=
  ∀ (s : State) (image : List IWord), s.phase = .unsized → ∃ t, performEvent (.flash image) s = .next t
    ∧ t.params.memSize = 4 * image.length ∧ t.MemoryOk ∧ t.regs = s.regs ∧ t.pc = s.pc
    ∧ ∀ (k : Nat) (hk : k < image.length),
        Memory.read t.mem (4 * k) = image[k].extractLsb' 24 8
          ∧ Memory.read t.mem (4 * k + 1) = image[k].extractLsb' 16 8
          ∧ Memory.read t.mem (4 * k + 2) = image[k].extractLsb' 8 8
          ∧ Memory.read t.mem (4 * k + 3) = image[k].extractLsb' 0 8

/-! ## Move wide (41_move_wide.md) -/

/-- R115, R117 (zero extension is the spec's decision D6, the cleared flags D8; log 9, log 22): MOVZ completes with
`imm16 × 2^(16·hw)` in its destination, flags 0, and nothing else changed. -/
def Obligations.MovzWritesTheShiftedImmediate : Prop :=
  ∀ (n : Fin 31) (hw : BitVec 2) (imm16 : BitVec 16) (s : State),
    ∃ t, exec (.movz (.x n) hw imm16) s = .next t
      ∧ (t.x (.x n)).toNat = imm16.toNat * 2 ^ (16 * hw.toNat) ∧ t.flags = ⟨false, false, false, false⟩
      ∧ s.OnlyRegister n t

/-- R116, R117 (D6, D8; log 9, log 22): MOVK completes with the selected 16 bits replaced by the immediate and the
other 48 bits of the old value kept, flags 0, and nothing else changed. -/
def Obligations.MovkReplacesSixteenBits : Prop :=
  ∀ (n : Fin 31) (hw : BitVec 2) (imm16 : BitVec 16) (s : State),
    ∃ t, exec (.movk (.x n) hw imm16) s = .next t
      ∧ (∀ k : Nat, k < 64 → (t.x (.x n)).getLsbD k =
          if 16 * hw.toNat ≤ k ∧ k < 16 * hw.toNat + 16 then imm16.getLsbD (k - 16 * hw.toNat)
          else (s.x (.x n)).getLsbD k)
      ∧ t.flags = ⟨false, false, false, false⟩ ∧ s.OnlyRegister n t

/-! ## Arithmetic (42_arithmetic.md) -/

/-- R120, R121, R122 (flag formulas D9, log 10): ADD and ADDS complete with the sum modulo 2^64; ADD leaves the flags
0, ADDS leaves those of the addition; nothing else changes. -/
def Obligations.AddAndAddsResultFlagsAndFrame : Prop :=
  ∀ (n : Fin 31) (rn rm : Reg) (s : State),
    (∃ t, exec (.add (.x n) rn rm) s = .next t
        ∧ (t.x (.x n)).toNat = ((s.x rn).toNat + (s.x rm).toNat) % 2 ^ 64
        ∧ t.flags = ⟨false, false, false, false⟩ ∧ s.OnlyRegister n t)
      ∧ (∃ t, exec (.adds (.x n) rn rm) s = .next t
        ∧ (t.x (.x n)).toNat = ((s.x rn).toNat + (s.x rm).toNat) % 2 ^ 64
        ∧ FlagsOfAddition t.flags (s.x rn) (s.x rm) ∧ s.OnlyRegister n t)

/-- R120, R123, R124, R107 (flag formulas D9, log 10): SUB and SUBS complete with the difference modulo 2^64; SUB
leaves the flags 0, SUBS leaves those of adding the negation; nothing else changes. -/
def Obligations.SubAndSubsResultFlagsAndFrame : Prop :=
  ∀ (n : Fin 31) (rn rm : Reg) (s : State),
    (∃ t, exec (.sub (.x n) rn rm) s = .next t
        ∧ isNumber (t.x (.x n)) (((s.x rn).toNat : Int) - (s.x rm).toNat)
        ∧ t.flags = ⟨false, false, false, false⟩ ∧ s.OnlyRegister n t)
      ∧ (∃ t, exec (.subs (.x n) rn rm) s = .next t
        ∧ isNumber (t.x (.x n)) (((s.x rn).toNat : Int) - (s.x rm).toNat)
        ∧ FlagsOfAddition t.flags (s.x rn) (0 - s.x rm) ∧ s.OnlyRegister n t)

/-- R81, R120, R125, R126 (flag formulas D9, clearing D7; log 9, log 10): ADDI and ADDIS complete with the sum of the
register and the signed 12-bit immediate modulo 2^64; ADDI leaves the flags 0, ADDIS those of the addition; nothing
else changes. -/
def Obligations.AddiAndAddisResultFlagsAndFrame : Prop :=
  ∀ (n : Fin 31) (rn : Reg) (imm12 : BitVec 12) (s : State),
    (∃ t, exec (.addi (.x n) rn imm12) s = .next t
        ∧ isNumber (t.x (.x n)) (((s.x rn).toNat : Int) + imm12.toInt)
        ∧ t.flags = ⟨false, false, false, false⟩ ∧ s.OnlyRegister n t)
      ∧ (∃ t, exec (.addis (.x n) rn imm12) s = .next t
        ∧ isNumber (t.x (.x n)) (((s.x rn).toNat : Int) + imm12.toInt)
        ∧ FlagsOfAddition t.flags (s.x rn) (BitVec.ofInt 64 imm12.toInt) ∧ s.OnlyRegister n t)

/-- R81, R120, R127, R128, R107 (flag formulas D9, clearing D7; log 9, log 10): SUBI and SUBIS complete with the
register less the signed 12-bit immediate modulo 2^64; SUBI leaves the flags 0, SUBIS those of adding the negation;
nothing else changes. -/
def Obligations.SubiAndSubisResultFlagsAndFrame : Prop :=
  ∀ (n : Fin 31) (rn : Reg) (imm12 : BitVec 12) (s : State),
    (∃ t, exec (.subi (.x n) rn imm12) s = .next t
        ∧ isNumber (t.x (.x n)) (((s.x rn).toNat : Int) - imm12.toInt)
        ∧ t.flags = ⟨false, false, false, false⟩ ∧ s.OnlyRegister n t)
      ∧ (∃ t, exec (.subis (.x n) rn imm12) s = .next t
        ∧ isNumber (t.x (.x n)) (((s.x rn).toNat : Int) - imm12.toInt)
        ∧ FlagsOfAddition t.flags (s.x rn) (0 - BitVec.ofInt 64 imm12.toInt) ∧ s.OnlyRegister n t)

/-! ## Loads and stores (43_load_store.md) -/

/-- R135 to R139, R50 (zero extension is D5, log 22; the cleared flags D8, log 9; addresses modulo 2^64 D14, log 25):
with the eight bytes at the effective address in range, each load completes with its value in the destination: LDUR all
eight bytes, LDURB and LDURH the first one and two zero-extended, LDURSW the first four as a signed number. Flags are 0
and nothing else changes but MAR and MDR. That those two hold the access afterwards is the model's choice (log 15: R24
and U9 allow any value between operations). -/
def Obligations.LoadsInRangeWriteTheirView : Prop :=
  ∀ (w : Width) (n : Fin 31) (rn : Reg) (off9 : BitVec 9) (ea : Word) (s : State),
    isNumber ea (((s.x rn).toNat : Int) + off9.toInt) → s.spanInRange ea 8 = true →
    ∃ t, exec (loadInstr w (.x n) rn off9) s = .next t
      ∧ (match w with
        | .double => ∀ i : Nat, i < 8 → (t.x (.x n)).extractLsb' (8 * (7 - i)) 8 = s.byteAt (ea + BitVec.ofNat 64 i)
        | .byte => (t.x (.x n)).toNat = (s.byteAt ea).toNat
        | .half => (t.x (.x n)).toNat = 2 ^ 8 * (s.byteAt ea).toNat + (s.byteAt (ea + 1)).toNat
        | .word => (t.x (.x n)).toInt = 2 ^ 24 * (s.byteAt ea).toInt + 2 ^ 16 * ((s.byteAt (ea + 1)).toNat : Int)
            + 2 ^ 8 * ((s.byteAt (ea + 2)).toNat : Int) + ((s.byteAt (ea + 3)).toNat : Int))
      ∧ t.flags = ⟨false, false, false, false⟩ ∧ t.mar = ea ∧ t.mdr = s.wordAt ea
      ∧ s.SameRegistersBut n t ∧ s.SameMemory t ∧ t.pc = s.pc ∧ t.halted = s.halted ∧ s.SameControl t

/-- R136 (corner case), R247 (derived there; log 12): a load with one of its eight bytes out of bounds requests a
halt and never commits: every register keeps its value, and Memory, the PC and all control state are unchanged. The
cleared flags are D8 (log 9), addresses modulo 2^64 D14 (log 25); that MAR and MDR hold the access afterwards is the
model's choice (log 15: U9 allows any value). -/
def Obligations.LoadOutOfBoundsNeverCommits : Prop :=
  ∀ (w : Width) (n : Fin 31) (rn : Reg) (off9 : BitVec 9) (ea : Word) (s : State),
    isNumber ea (((s.x rn).toNat : Int) + off9.toInt) → s.spanInRange ea 8 = false →
    ∃ t, exec (loadInstr w (.x n) rn off9) s = .next t
      ∧ t.halted = true ∧ t.flags = ⟨false, false, false, false⟩ ∧ t.mar = ea ∧ t.mdr = s.wordAt ea
      ∧ s.SameRegisters t ∧ s.SameMemory t ∧ t.pc = s.pc ∧ s.SameControl t

/-- R135, R140 to R143, R62 (the cleared flags are D8, log 9; addresses modulo 2^64 D14, log 25): each store completes;
the bytes of its width at the effective address that are in range hold the low bytes of the payload, most significant
first, and every other byte reads as before; a byte out of bounds requests a halt. Flags are 0 and nothing else changes
but MAR and MDR. That those two hold the access afterwards is the model's choice (log 15: U9 allows any value). -/
def Obligations.StoresWriteTheLowBytes : Prop :=
  ∀ (w : Width) (rt rn : Reg) (off9 : BitVec 9) (ea : Word) (s : State), Memory.wf s.mem = true →
    isNumber ea (((s.x rn).toNat : Int) + off9.toInt) →
    ∃ t, exec (storeInstr w rt rn off9) s = .next t
      ∧ (∀ i : Nat, i < w.bytes → s.inRange (ea + BitVec.ofNat 64 i) = true →
          t.byteAt (ea + BitVec.ofNat 64 i) = (s.x rt).extractLsb' (8 * (w.bytes - 1 - i)) 8)
      ∧ (∀ a, (∀ i : Nat, i < w.bytes → a ≠ ea + BitVec.ofNat 64 i) → t.byteAt a = s.byteAt a)
      ∧ (t.halted = true ↔ s.halted = true ∨ s.spanInRange ea w.bytes = false)
      ∧ t.flags = ⟨false, false, false, false⟩ ∧ t.mar = ea ∧ t.mdr = s.x rt
      ∧ s.SameRegisters t ∧ t.pc = s.pc ∧ s.SameControl t

/-- R144 (derived there; D5, log 22): a store followed by the load of the same width at the same address, `ea + 7` in
range, loads the stored low bytes, zero-extended for 1, 2 and 8 bytes and sign-extended from bit 31 for 4. -/
def Obligations.StoreThenLoadRoundTrip : Prop :=
  ∀ (w : Width) (rt rn : Reg) (n : Fin 31) (off9 : BitVec 9) (s t : State), Memory.wf s.mem = true →
    s.spanInRange (s.x rn + off9.signExtend 64) 8 = true →
    exec (storeInstr w rt rn off9) s = .next t →
    ∃ u, exec (loadInstr w (.x n) rn off9) t = .next u
      ∧ u.x (.x n) = (match w with
        | .byte => ((s.x rt).setWidth 8).setWidth 64
        | .half => ((s.x rt).setWidth 16).setWidth 64
        | .word => ((s.x rt).setWidth 32).signExtend 64
        | .double => s.x rt)

/-! ## HLT and branches (44_system.md, 45_branch.md) -/

/-- R150 (its encoding and path are the spec's decisions D2, D18; log 2, log 21): HLT, every older instruction
retired, completes by setting `halted`; flags, registers, Memory, PC and all control state are unchanged. That it leaves
the flags is the spec's decision D8 in R110 (log 9). -/
def Obligations.HltSetsHaltedAndNothingElse : Prop :=
  ∀ s : State, ∃ t, exec .hlt s = .next t
    ∧ t.halted = true ∧ t.flags = s.flags ∧ t.pc = s.pc ∧ s.SameRegisters t ∧ s.SameMemory t ∧ s.SameStaging t
    ∧ s.SameControl t

/-- R155, R156, R157 (the base of the target is D20, the cleared flags D8; log 9, log 20): B completes with the PC at
the incremented PC plus four times the signed offset, modulo 2^64, flags 0, and nothing else changed. -/
def Obligations.BranchGoesToItsTarget : Prop :=
  ∀ (off26 : BitVec 26) (s : State), ∃ t, exec (.b off26) s = .next t
    ∧ isNumber t.pc ((s.pc.toNat : Int) + 4 * off26.toInt) ∧ t.flags = ⟨false, false, false, false⟩
    ∧ s.OnlyPcAndFlags t

/-- R155, R156, R158, R159 (D8, D20; log 9, log 20): CBZ is taken exactly when its register is 0, CBNZ exactly when it
is not; taken, the PC is the incremented PC plus four times the signed offset; not taken, the PC stays at the
incremented PC. Flags are 0 and nothing else changes. `XZR` is a legal source and reads 0. -/
def Obligations.CompareAndBranchTakenExactlyWhen : Prop :=
  ∀ (rt : Reg) (off19 : BitVec 19) (s : State),
    (∃ t, exec (.cbz rt off19) s = .next t
        ∧ (s.x rt = 0 → isNumber t.pc ((s.pc.toNat : Int) + 4 * off19.toInt))
        ∧ (s.x rt ≠ 0 → t.pc = s.pc) ∧ t.flags = ⟨false, false, false, false⟩ ∧ s.OnlyPcAndFlags t)
      ∧ (∃ t, exec (.cbnz rt off19) s = .next t
        ∧ (s.x rt ≠ 0 → isNumber t.pc ((s.pc.toNat : Int) + 4 * off19.toInt))
        ∧ (s.x rt = 0 → t.pc = s.pc) ∧ t.flags = ⟨false, false, false, false⟩ ∧ s.OnlyPcAndFlags t)

/-! ## Fatal errors and halts (60_exceptions.md) -/

/-- R240: each of the 14 instructions with a destination, its destination field 31, raises ZeroRegisterWrite in place
of its effect: `fatal` is set and nothing else changes. Stores, branches and HLT never raise it. -/
def Obligations.DestinationThirtyOneIsFatal : Prop :=
  (∀ (i : Instr) (s : State), dst i = some .xzr →
      exec i s = .next { s with fatal := some .zeroRegisterWrite })
    ∧ (∀ (i : Instr) (s t : State), dst i ≠ some .xzr → exec i s = .next t → t.fatal = s.fatal)
    ∧ (∀ i : Instr, i.wellFormed = false ↔ dst i = some .xzr)

/-- R240, R241, R177, R181 as the decode unit has them (order of checks D23, log 23): the decode step raises
UnknownOpcode for a word of no row as soon as it runs, and ZeroRegisterWrite for a destination of 31 once the sources
are unlocked, whether or not IDEX is empty; `fatal` is set and nothing else changes. -/
def Obligations.DecodeUnitRaisesTheFatalErrors : Prop :=
  ∀ (s : State) (d : IFID), s.taskID = .running d → s.fatal = none →
    ((∀ r ∈ maskMatchRows, d.instr &&& r.2.1 ≠ r.2.2) →
        performEvent (.stage .decode) s = .next { s with fatal := some .unknownOpcode })
      ∧ (∀ i, decode d.instr = .ok i → dst i = some .xzr →
          (∀ r, src1 i = some r ∨ src2 i = some r → s.locked r = false) →
          performEvent (.stage .decode) s = .next { s with fatal := some .zeroRegisterWrite })

/-- R242, R245, R200 (that the model's step answers a fault is log 13; fatal error's aftermath is the spec's decision
D22): after a fatal error no pulse, stage step, tick or instruction happens; after a halt request no pulse, tick or
instruction happens. The host's actions are no part of this (log 13, log 18). -/
def Obligations.EndedRunAdmitsNothing : Prop :=
  (∀ (s : State) (c : FatalCause) (e : Event), s.fatal = some c →
      e ∈ [Event.pulse, .tick, .instruction] ∨ (∃ st, e = .stage st) → performEvent e s = .fault (.fatalError c))
    ∧ (∀ (s : State) (e : Event), s.fatal = none → s.halted = true → e ∈ [Event.pulse, .tick, .instruction] →
      performEvent e s = .fault .clockStopped)
    ∧ (∀ s : State, s.schedule = [] → s.ended → ∃ f, step s = .fault f)

/-! ## One step (47_pipeline_control.md R231, log 4) -/

/-- R52, R172, R231 (log 4): when nothing is scheduled or in flight and the clock runs, and the eight bytes at the PC
are in range and the word there decodes to an instruction, the step is that instruction's meaning on the fetched
state, which differs from the state before only in the PC (advanced by 4), the MMU's staging registers (what they hold
is log 15) and the phase, now `started` (log 34). It is the sequential machine's step too, but for a load with a byte
out of bounds (log 12). -/
def Obligations.StepRunsTheDecodedInstruction : Prop :=
  ∀ (s : State) (i : Instr), s.Ready → s.fetchInRange →
    decode (wordOfBytes (s.byteAt s.pc) (s.byteAt (s.pc + 1)) (s.byteAt (s.pc + 2)) (s.byteAt (s.pc + 3))) = .ok i →
    step s = exec i (fetchAccess (beginRun s))
      ∧ (loadInRange i (fetchAccess s) → stepSeq (beginRun s) = step s)
      ∧ fetchAccess (beginRun s) = { s with pc := s.pc + 4, mar := s.pc, mdr := s.wordAt s.pc, phase := .started }

/-- R88, R241 (log 4, log 13): when the word at the PC matches no row of the table, the step answers a state with
`fatal = UnknownOpcode`; registers, flags and Memory are unchanged. -/
def Obligations.UnknownWordIsFatal : Prop :=
  ∀ s : State, s.Ready → s.fetchInRange →
    (∀ r ∈ maskMatchRows,
      wordOfBytes (s.byteAt s.pc) (s.byteAt (s.pc + 1)) (s.byteAt (s.pc + 2)) (s.byteAt (s.pc + 3)) &&& r.2.1
        ≠ r.2.2) →
    ∃ t, step s = .next t ∧ t.fatal = some .unknownOpcode ∧ t.halted = false ∧ t.pc = s.pc + 4
      ∧ s.SameRegisters t ∧ t.flags = s.flags ∧ s.SameMemory t

/-- R52, R45, R245 (derived in R52; log 12): when a byte of the eight at the PC is out of bounds, the step's fetch
requests a halt and the word is given no meaning, even where the word itself is in range. -/
def Obligations.FetchOutOfBoundsHaltsFirst : Prop :=
  ∀ s : State, s.Ready → s.spanInRange s.pc 8 = false →
    ∃ t, step s = .next t ∧ t.halted = true ∧ t.fatal = none ∧ t.pc = s.pc + 4
      ∧ s.SameRegisters t ∧ t.flags = s.flags ∧ s.SameMemory t

/-- R43, R52 (the placing is the model's, log 19): the instruction placed by `withFetchWord` is the one the very next
step runs. -/
def Obligations.PlacedInstructionIsTheNextOneRun : Prop :=
  ∀ (s : State) (nbits w : Nat) (i : Instr), Memory.wf s.mem = true → decodeTableWord nbits w = some i →
    step (s.withFetchWord nbits w) = exec i (fetchAccess (beginRun (s.withFetchWord nbits w)))
      ∧ (s.withFetchWord nbits w).pc = s.pc ∧ s.SameRegisters (s.withFetchWord nbits w)

/-! ## Reset (10_state.md R33, 47_pipeline_control.md R210) -/

/-- R33, R270 (every value is the spec's decision D11 or D28, log 5): right after power-on all registers read 0, PC,
MAR, MDR and flags are 0, all latches and the LockQueue are empty, nothing is busy, no task exists, the gate is
released, `halted` and `fatal` are clear, and every byte of Memory reads 0; and nothing is in flight. -/
def Obligations.PowerOnStateIsAllZeroAndIdle : Prop :=
  (∀ r, State.reset.x r = 0) ∧ State.reset.pc = 0 ∧ State.reset.mar = 0 ∧ State.reset.mdr = 0
    ∧ State.reset.flags = ⟨false, false, false, false⟩ ∧ State.reset.lq = []
    ∧ State.reset.ifid = none ∧ State.reset.idex = none ∧ State.reset.exmem = none ∧ State.reset.memwb = none
    ∧ State.reset.busyIF = false ∧ State.reset.busyID = false ∧ State.reset.busyEX = false
    ∧ State.reset.busyMEM = false ∧ State.reset.busyWB = false ∧ State.reset.taskIF = .none
    ∧ State.reset.taskID = .none ∧ State.reset.taskEX = .none ∧ State.reset.taskMEM = .none
    ∧ State.reset.taskWB = .none ∧ State.reset.exFlushing = false ∧ State.reset.halted = false
    ∧ State.reset.fatal = none ∧ (∀ a, Memory.read State.reset.mem a = 0) ∧ State.reset.Ready

/-- R210 (values D11, D28, log 5; what it keeps is log 26): `reset()` returns everything to its power-on value from any
state, a fatal error or a halt included, and leaves Memory as it is; the run has then not started, and a Memory that was
created or used stays the one there is (the phase, log 34). -/
def Obligations.ResetRestoresAllButMemory : Prop :=
  ∀ s : State, ∃ t, performEvent .reset s = .next t ∧ s.SameMemory t ∧ t.params = s.params
    ∧ t.phase ≠ .started ∧ (t.phase = .unsized ↔ s.phase = .unsized)
    ∧ t = { State.reset with mem := t.mem, params := t.params, phase := t.phase, schedule := s.schedule }

/-- R33, R31, R25, R16: the power-on state meets the invariants that every step keeps. -/
def Obligations.PowerOnStateMeetsTheInvariants : Prop :=
  State.reset.MemoryOk ∧ State.reset.PipelineOk ∧ State.reset.PcOk ∧ State.reset.FetchOrderOk

/-! ## The controller (47_pipeline_control.md) -/

/-- R203, R204: a pulse inspects the stages from the tail toward the head; a stage is free if it is idle or its prior
work is done; a populated input latch of a free stage is popped and the stage launched on it (execute only while not
flushing), a free stage with nothing to take is idle, and a fetch is launched when fetch is free and IFID is empty
after the decode admission. -/
def Obligations.PulseAdmitsTailFirst : Prop :=
  ∀ s : State, s.BusyOk → s.halted = false → s.fatal = none → ∃ t, performEvent .pulse s = .next t
    ∧ (let free := s.busyWB = false ∨ s.taskWB = .done
      (free → ∀ m, s.memwb = some m → t.taskWB = .running m ∧ t.busyWB = true ∧ t.memwb = none)
        ∧ (free → s.memwb = none → t.taskWB = .none ∧ t.busyWB = false ∧ t.memwb = none)
        ∧ (¬ free → t.taskWB = s.taskWB ∧ t.busyWB = true ∧ t.memwb = s.memwb))
    ∧ (let free := s.busyMEM = false ∨ s.taskMEM = .done
      (free → ∀ e, s.exmem = some e → t.taskMEM = .running e ∧ t.busyMEM = true ∧ t.exmem = none)
        ∧ (free → s.exmem = none → t.taskMEM = .none ∧ t.busyMEM = false ∧ t.exmem = none)
        ∧ (¬ free → t.taskMEM = s.taskMEM ∧ t.busyMEM = true ∧ t.exmem = s.exmem))
    ∧ (let free := s.busyEX = false ∨ s.taskEX = .done
      (free → s.exFlushing = false → ∀ d, s.idex = some d →
          t.taskEX = .running d ∧ t.busyEX = true ∧ t.idex = none)
        ∧ (free → s.exFlushing = true ∨ s.idex = none → t.taskEX = .none ∧ t.busyEX = false ∧ t.idex = s.idex)
        ∧ (¬ free → t.taskEX = s.taskEX ∧ t.busyEX = true ∧ t.idex = s.idex))
    ∧ (let free := s.busyID = false ∨ s.taskID = .done
      (free → ∀ d, s.ifid = some d → t.taskID = .running d ∧ t.busyID = true ∧ t.ifid = none)
        ∧ (free → s.ifid = none → t.taskID = .none ∧ t.busyID = false ∧ t.ifid = none)
        ∧ (¬ free → t.taskID = s.taskID ∧ t.busyID = true ∧ t.ifid = s.ifid))
    ∧ (let free := s.busyIF = false ∨ s.taskIF = .done
      (free → t.ifid = none → t.taskIF = .running () ∧ t.busyIF = true)
        ∧ (free → t.ifid ≠ none → t.taskIF = .none ∧ t.busyIF = false)
        ∧ (¬ free → t.taskIF = s.taskIF ∧ t.busyIF = true))

/-- R205: "A pulse never performs a stage's step, never blocks, and never fails": while the clock runs a pulse answers
a next state, with registers, PC, flags, Memory, MAR, MDR, LockQueue, the flushing gate and the run-state bits
unchanged. -/
def Obligations.PulseOnlyAdmits : Prop :=
  ∀ s : State, s.halted = false → s.fatal = none → ∃ t, performEvent .pulse s = .next t
    ∧ s.SameArch t ∧ t.mar = s.mar ∧ t.mdr = s.mdr ∧ t.lq = s.lq ∧ t.exFlushing = s.exFlushing
    ∧ t.params = s.params ∧ t.schedule = s.schedule

/-- R207, R160, R186 (what is discarded is the spec's decision D19, log 31): the execute step of a taken branch cancels
the fetch and decode tasks, empties IFID and IDEX, removes the reservation of the instruction in IDEX and no other,
sets the PC to the target, releases the gate, publishes the branch to EXMEM and touches no register, byte of Memory or
older stage's work (memory access, writeback and MEMWB). The cleared flags are D8 (log 9), the one indivisible step D16
(log 16). -/
def Obligations.TakenBranchFlushesFetchAndDecode : Prop :=
  ∀ (s : State) (d : IDEX) (i : Instr) (o : ExOut) (target : Word),
    s.PipelineOk → s.fatal = none → s.taskEX = .running d → decode d.instr = .ok i →
    executeUnit i d.ipc d.a d.b d.imm = some o → o.taken = some target → s.exmem = none →
    ∃ t, performEvent (.stage .execute) s = .next t
      ∧ t.pc = target ∧ t.ifid = none ∧ t.idex = none ∧ t.taskIF = .none ∧ t.busyIF = false ∧ t.taskID = .none
      ∧ t.busyID = false ∧ t.exFlushing = false ∧ t.exmem = some ⟨d.instr, 0, 0⟩ ∧ t.taskEX = .done
      ∧ t.flags = ⟨false, false, false, false⟩
      ∧ s.lq = t.lq ++ (s.idex.toList.map (·.instr)).flatMap reservesOf
      ∧ s.SameRegisters t ∧ s.SameMemory t ∧ t.memwb = s.memwb ∧ t.taskMEM = s.taskMEM ∧ t.taskWB = s.taskWB
      ∧ t.busyMEM = s.busyMEM ∧ t.busyWB = s.busyWB ∧ t.halted = s.halted

/-! ## The stage units (46_pipeline_stages.md) -/

/-- R173 (indivisibility is D16, log 16; addresses modulo 2^64 D14, log 25): the fetch step reads eight bytes at the
PC, keeps the upper 32 bits, advances the PC by 4, publishes the word with the new PC into IFID and completes; a byte
out of bounds requests a halt and the fetch still completes with `OOB_READ_BYTE` in that byte's place (`byteAt`, D13,
log 8); it raises no fatal error whatever the word. That MAR and MDR hold the read afterwards is the model's choice (log
15: U9 allows any value). -/
def Obligations.FetchStepPublishesWordAndIncrementedPc : Prop :=
  ∀ s : State, s.fatal = none → s.taskIF = .running () →
    ∃ t, performEvent (.stage .fetch) s = .next t
      ∧ t.ifid = some ⟨wordOfBytes (s.byteAt s.pc) (s.byteAt (s.pc + 1)) (s.byteAt (s.pc + 2)) (s.byteAt (s.pc + 3)),
          s.pc + 4⟩
      ∧ t.pc = s.pc + 4 ∧ t.taskIF = .done ∧ t.mar = s.pc ∧ t.mdr = s.wordAt s.pc
      ∧ (t.halted = true ↔ s.halted = true ∨ s.spanInRange s.pc 8 = false)
      ∧ t.fatal = none ∧ s.SameRegisters t ∧ t.flags = s.flags ∧ s.SameMemory t ∧ t.lq = s.lq

/-- R179, R180, R182, R183 (indivisibility is the spec's decision D16, log 16; the refusal of a disabled event is log
27): the decode step of a known class with a destination other than 31 happens exactly when every source is unlocked
and IDEX is empty; it then publishes the operands as the registers read, the extended immediate and whether it made a
reservation, and appends the destination, if any, to the LockQueue. -/
def Obligations.DecodeWaitsThenReadsReservesPublishes : Prop :=
  ∀ (s : State) (d : IFID) (i : Instr), s.fatal = none → s.taskID = .running d → decode d.instr = .ok i →
    dst i ≠ some .xzr →
    ((s.idex ≠ none ∨ ∃ r, (src1 i = some r ∨ src2 i = some r) ∧ s.locked r = true) →
        performEvent (.stage .decode) s = .refused .eventNotEnabled)
      ∧ (s.idex = none → (∀ r, src1 i = some r ∨ src2 i = some r → s.locked r = false) →
        ∃ t rec, performEvent (.stage .decode) s = .next t ∧ t.idex = some rec ∧ t.taskID = .done
          ∧ rec.instr = d.instr ∧ rec.ipc = d.ipc ∧ rec.imm = immOf i
          ∧ (∀ r, src1 i = some r → rec.a = s.x r) ∧ (src1 i = none → rec.a = 0)
          ∧ (∀ r, src2 i = some r → rec.b = s.x r) ∧ (src2 i = none → rec.b = 0)
          ∧ (∀ n, dst i = some (.x n) → rec.reserved = true ∧ t.lq = s.lq ++ [n])
          ∧ (dst i = none → rec.reserved = false ∧ t.lq = s.lq)
          ∧ s.SameArch t)

/-- R190: writeback never waits. For a branch or a store it only completes; for every other class it dequeues the
LockQueue's head, writes the carried value to that register and completes, and nothing else changes. -/
def Obligations.WritebackCommitsToTheOldestReservation : Prop :=
  ∀ (s : State) (m : MEMWB) (i : Instr), s.fatal = none → s.taskWB = .running m → decode m.instr = .ok i →
    (dst i = none → performEvent (.stage .writeback) s = .next { s with taskWB := .done })
      ∧ (∀ r, dst i = some r → ∀ n rest, s.lq = n :: rest →
        performEvent (.stage .writeback) s = .next { writeReg n m.val s with lq := rest, taskWB := .done })

/-- R167: "exactly one writer of the register file (writeback), exactly one writer of the lock queue's tail (decode) and
head (writeback, plus the flush path's exceptional removal), exactly one owner of PC (fetch, plus flush)"; R30: each
latch has one producer and one consumer (the pulse pops it, flush clears IFID and IDEX); only the pulse admits; an
execute step that takes no branch flushes nothing: it leaves the PC, the LockQueue, IFID and IDEX, and the fetch and
decode tasks. Flags are written only in execute (R17) and Memory only by memory access (R188). -/
def Obligations.EachResourceHasItsOneWriter : Prop :=
  ∀ (e : Event) (s t : State), (e = .pulse ∨ ∃ st, e = .stage st) → performEvent e s = .next t →
    (e ≠ .stage .writeback → t.regs = s.regs)
      ∧ (e ≠ .stage .fetch → e ≠ .stage .execute → t.pc = s.pc)
      ∧ (e ≠ .stage .execute → t.flags = s.flags)
      ∧ (e ≠ .stage .memory → t.mem = s.mem)
      ∧ (e = .stage .decode → ∃ added, t.lq = s.lq ++ added)
      ∧ (e = .stage .writeback → ∃ taken, s.lq = taken ++ t.lq)
      ∧ (e = .stage .execute → t.lq = s.lq ∨ t.lq = s.lq.dropLast)
      ∧ (e = .stage .execute → ∀ d, s.taskEX = .running d → ¬ d.takesBranch →
          t.pc = s.pc ∧ t.lq = s.lq ∧ t.ifid = s.ifid ∧ t.idex = s.idex ∧ t.taskIF = s.taskIF ∧ t.taskID = s.taskID)
      ∧ (e ≠ .stage .decode → e ≠ .stage .writeback → e ≠ .stage .execute → t.lq = s.lq)
      ∧ (e ≠ .stage .fetch → t.ifid = s.ifid ∨ t.ifid = none ∧ (e = .pulse ∨ e = .stage .execute))
      ∧ (e ≠ .stage .decode → t.idex = s.idex ∨ t.idex = none ∧ (e = .pulse ∨ e = .stage .execute))
      ∧ (e ≠ .stage .execute → t.exmem = s.exmem ∨ t.exmem = none ∧ e = .pulse)
      ∧ (e ≠ .stage .memory → t.memwb = s.memwb ∨ t.memwb = none ∧ e = .pulse)
      ∧ (e ≠ .pulse → (t.taskIF = .running () → s.taskIF = .running ())
          ∧ (∀ d, t.taskID = .running d → s.taskID = .running d) ∧ (∀ d, t.taskEX = .running d → s.taskEX = .running d)
          ∧ (∀ d, t.taskMEM = .running d → s.taskMEM = .running d)
          ∧ (∀ d, t.taskWB = .running d → s.taskWB = .running d))

/-! ## Invariants that every step keeps -/

/-- R41, R44, R62: every step keeps Memory canonical and inside `MEM_SIZE`. -/
def Obligations.StepKeepsMemoryCanonical : Prop :=
  ∀ s t : State, s.MemoryOk → step s = .next t → t.MemoryOk

/-- R20, R25, R30, R31, R151, R208: every step, of whatever schedule, keeps the pipeline's bookkeeping: a stage is busy
exactly when it has a task, the gate is released, every word in flight was accepted by decode, the LockQueue is the
reservations of the instructions in flight in program order, a populated late latch is covered by a busy flag, and
nothing is in flight before the first pulse of a run (the phase, log 34). -/
def Obligations.StepKeepsPipelineBookkeeping : Prop :=
  ∀ s t : State, s.PipelineOk → step s = .next t → t.PipelineOk

/-- R16 (derived there; D14, D26, log 25): every step keeps the PC, and every incremented PC on its way to execute, a
multiple of 4. -/
def Obligations.StepKeepsPcAligned : Prop :=
  ∀ s t : State, s.PcOk → step s = .next t → t.PcOk

/-- R14, R26, R30: every step keeps the words between fetch and decode consecutive, up to the PC. -/
def Obligations.StepKeepsFetchOrder : Prop :=
  ∀ s t : State, s.BusyOk → s.GateOk → s.FetchOrderOk → step s = .next t → t.FetchOrderOk

/-- R25, R170 (derived there; the fault is D31, log 14): from the bookkeeping invariant the LockQueue is never dequeued
empty and its length is at most 6. -/
def Obligations.LockQueueIsNeverDequeuedEmpty : Prop :=
  ∀ s : State, s.PipelineOk → step s ≠ .fault .emptyLockQueue ∧ s.lq.length ≤ 6

/-- R190, R189 (derived there): from the bookkeeping invariant the head of the LockQueue is the destination of the
instruction in writeback. -/
def Obligations.WritebackWritesTheInstructionsOwnDestination : Prop :=
  ∀ (s : State) (m : MEMWB) (i : Instr) (n : Fin 31), s.PipelineOk → s.fatal = none → s.taskWB = .running m →
    decode m.instr = .ok i → dst i = some (.x n) →
    ∃ t, performEvent (.stage .writeback) s = .next t ∧ t.x (.x n) = m.val ∧ s.SameRegistersBut n t
      ∧ s.lq = n :: t.lq

/-- R179, R279 (derived from R25): from the bookkeeping invariant, when decode's step is enabled no instruction in
flight will write a source of the instruction. -/
def Obligations.EnabledDecodeHasNoOlderWriterInFlight : Prop :=
  ∀ (s : State) (d : IFID) (i : Instr) (n : Fin 31), s.PipelineOk → s.taskID = .running d → decode d.instr = .ok i →
    stageEnabled .decode s = true → (src1 i = some (.x n) ∨ src2 i = some (.x n)) →
    ∀ w ∈ s.inFlight, ∀ j, decode w = .ok j → dst j ≠ some (.x n)

/-- R150, R151, R152 (derived there; D18, log 21): from the bookkeeping invariant, when HLT's execute step sets
`halted`, every older instruction has retired: nothing is in memory access or writeback or their input latches, and the
LockQueue holds only the reservation of an instruction younger than HLT in IDEX. -/
def Obligations.HltHaltsOnlyWhenDrained : Prop :=
  ∀ (s t : State) (d : IDEX), s.PipelineOk → s.taskEX = .running d → decode d.instr = .ok .hlt →
    performEvent (.stage .execute) s = .next t →
    t.halted = true ∧ t.memwb = none ∧ t.exmem = none ∧ t.taskMEM = .none ∧ t.taskWB = .none
      ∧ t.lq = (t.idex.toList.map (·.instr)).flatMap reservesOf ∧ s.SameRegisters t ∧ s.SameMemory t

/-! ## The pipeline against the sequential machine -/

/-- R215, R220 (the reference schedule is the spec's decision D17, log 30): a tick of the reference schedule is a run
of the machine's own events. -/
def Obligations.ReferenceTickIsARunOfEvents : Prop :=
  ∀ s t : State, s.halted = false → s.fatal = none → tick s = .next t →
    ∃ es : List Event, (∀ e ∈ es, e = .pulse ∨ ∃ st, e = .stage st)
      ∧ Host.Core.run core es.length { s with schedule := es } = .next { t with schedule := [] }

/-- R230, R231, R215 (log 4): the step that runs one instruction leaves the registers, PC, flags, Memory, `halted` and
`fatal` that the pipeline's own events leave when they carry that instruction alone through the empty pipeline; a run
that the instruction does not end goes through all ten events and leaves the LockQueue empty. -/
def Obligations.OneInstructionThroughThePipelineIsTheStep : Prop :=
  ∀ s u : State, s.Ready → s.BusyOk → step s = .next u →
    ∃ k t, k ≤ 10 ∧ Host.Core.run core k { s with schedule := isolatedSchedule } = .next t ∧ u.SameArch t
      ∧ (¬ u.ended → k = 10 ∧ t.lq = [])

/-- R216, R230 (derived there): a pulse and the steps of fetch, execute, memory access and writeback leave unchanged
what the instructions in flight will have done to registers, flags and Memory when they have retired, and the address
at which the path goes on: the younger work a taken branch discards was no part of it. -/
def Obligations.PipelineEventsKeepTheCompletedState : Prop :=
  ∀ (e : Event) (s t : State), s.PipelineOk → s.FetchOrderOk →
    e ∈ [Event.pulse, .stage .fetch, .stage .execute, .stage .memory, .stage .writeback] →
    (e = .stage .execute → ∀ d, s.taskEX = .running d → decode d.instr ≠ .ok .hlt) →
    performEvent e s = .next t →
    t.completed.regs = s.completed.regs ∧ t.completed.flags = s.completed.flags
      ∧ t.completed.mem = s.completed.mem ∧ t.completed.pc = s.completed.pc

/-- R216, R230, R231, R279 (derived there): the decode step of an instruction on the path takes the state that the
instructions in flight will leave to what the instruction's meaning makes of it: its registers, flags, Memory and next
PC are those of sequential execution. -/
def Obligations.DecodeIssuesTheSequentialInstruction : Prop :=
  ∀ (s t : State) (d : IFID) (i : Instr), s.PipelineOk → s.FetchOrderOk → s.taskID = .running d →
    decode d.instr = .ok i → i.wellFormed = true → i ≠ .hlt → (s.taskEX.inputs.any (·.endsPath)) = false →
    loadInRange i s.completed → performEvent (.stage .decode) s = .next t →
    ∃ u, exec i { s.completed with pc := d.ipc } = .next u
      ∧ t.completed.regs = u.regs ∧ t.completed.flags = u.flags ∧ t.completed.mem = u.mem ∧ t.completed.pc = u.pc

/-! ## The host and the run's parameters (10_state.md R34, 70_reset_and_hazards.md R271) -/

/-- R34, R271 (the phase that says so is the model's, log 34): no step changes `OOB_READ_BYTE`; only the creation of
Memory, by size or by flashing, sets `MEM_SIZE`, once, before the first pulse of the machine; after it, or after a
pulse, `MEM_SIZE` stays, through `reset()` too. -/
def Obligations.ParametersAreFixedForARun : Prop :=
  ∀ s t : State, step s = .next t →
    t.params.oobReadByte = s.params.oobReadByte
      ∧ (s.phase ≠ .unsized → t.params = s.params ∧ t.phase ≠ .unsized)
      ∧ (t.params ≠ s.params → t.phase = .ready ∧ ∃ rest,
          (∃ size, s.schedule = .createMemory size :: rest) ∨ ∃ image, s.schedule = .flash image :: rest)
      ∧ (∀ rest, s.schedule = .pulse :: rest ∨ s.schedule = .instruction :: rest → t.phase = .started)
      ∧ ((∀ rest, s.schedule ≠ .reset :: rest) → s.phase = .started → t.phase = .started)

/-- R41, R42, R271, R274 (the guards' form is log 18, the phase log 34): Memory is created, all zero, when it has not
been and no pulse has been delivered, and never again; it is reset to zero or loaded only while the core is not running
(halted, fatal or not started), and neither changes anything but Memory's bytes; a loaded image stands from byte address
0 up, most significant byte of each word first, every byte behind it as before. -/
def Obligations.HostActsOnMemoryWhileTheCoreIsNotRunning : Prop :=
  ∀ (s : State) (size : Nat) (image : List IWord),
    (s.phase = .unsized → ∃ t, performEvent (.createMemory size) s = .next t
        ∧ (∀ a, Memory.read t.mem a = 0) ∧ t.params.memSize = size ∧ t.phase = .ready
        ∧ t = { s with mem := t.mem, params := { s.params with memSize := size }, phase := .ready })
      ∧ (s.phase ≠ .unsized → performEvent (.createMemory size) s = .refused .eventNotEnabled
        ∧ performEvent (.flash image) s = .refused .eventNotEnabled)
      ∧ (s.phase = .started ∧ s.halted = false ∧ s.fatal = none →
        performEvent .zeroMemory s = .refused .eventNotEnabled ∧ performEvent (.load image) s = .refused .eventNotEnabled)
      ∧ (s.phase ≠ .started ∨ s.halted = true ∨ s.fatal ≠ none →
        (∃ t, performEvent .zeroMemory s = .next t ∧ (∀ a, Memory.read t.mem a = 0) ∧ t = { s with mem := t.mem })
          ∧ (s.MemoryOk → 4 * image.length ≤ s.params.memSize →
            ∃ t, performEvent (.load image) s = .next t ∧ t.MemoryOk ∧ t = { s with mem := t.mem }
              ∧ (∀ (k : Nat) (hk : k < image.length) (i : Nat), i < 4 →
                  Memory.read t.mem (4 * k + i) = image[k].extractLsb' (8 * (3 - i)) 8)
              ∧ (∀ a, 4 * image.length ≤ a → Memory.read t.mem a = Memory.read s.mem a)))

/-! ## The sequential machine (47_pipeline_control.md R231) -/

/-- R231: `step_seq()` happens only while the run has not ended (the fault is log 13); it fetches at the PC, advances
the PC by 4 and gives the word its meaning even where the fetch requested a halt. A word of no row is the fatal error
UnknownOpcode; a load with a destination other than 31 writes its view of the eight bytes even where one is out of
bounds (where the pipeline never commits it, log 12), `OOB_READ_BYTE` in such a byte's place (D13, log 8), clears the
flags (D8, log 9) and changes Memory and the other registers not at all; every other instruction has its meaning. -/
def Obligations.SequentialStepCommitsEveryLoad : Prop :=
  ∀ s : State,
    (s.ended → ∃ f, stepSeq s = .fault f)
      ∧ (s.halted = false → s.fatal = none → ∀ word : IWord,
        word = wordOfBytes (s.byteAt s.pc) (s.byteAt (s.pc + 1)) (s.byteAt (s.pc + 2)) (s.byteAt (s.pc + 3)) →
        ((∀ r ∈ maskMatchRows, word &&& r.2.1 ≠ r.2.2) →
            stepSeq s = .next { fetchAccess s with fatal := some .unknownOpcode })
          ∧ (∀ i, decode word = .ok i → (∀ w rt rn off9, i ≠ loadInstr w rt rn off9) → stepSeq s = exec i (fetchAccess s))
          ∧ (∀ w rn off9, decode word = .ok (loadInstr w .xzr rn off9) →
            stepSeq s = .next { fetchAccess s with fatal := some .zeroRegisterWrite })
          ∧ ∀ (w : Width) (n : Fin 31) (rn : Reg) (off9 : BitVec 9) (ea : Word),
            decode word = .ok (loadInstr w (.x n) rn off9) → isNumber ea (((s.x rn).toNat : Int) + off9.toInt) →
            ∃ t, stepSeq s = .next t
              ∧ (match w with
                | .double => ∀ i : Nat, i < 8 →
                    (t.x (.x n)).extractLsb' (8 * (7 - i)) 8 = s.byteAt (ea + BitVec.ofNat 64 i)
                | .byte => (t.x (.x n)).toNat = (s.byteAt ea).toNat
                | .half => (t.x (.x n)).toNat = 2 ^ 8 * (s.byteAt ea).toNat + (s.byteAt (ea + 1)).toNat
                | .word => (t.x (.x n)).toInt = 2 ^ 24 * (s.byteAt ea).toInt
                    + 2 ^ 16 * ((s.byteAt (ea + 1)).toNat : Int) + 2 ^ 8 * ((s.byteAt (ea + 2)).toNat : Int)
                    + ((s.byteAt (ea + 3)).toNat : Int))
              ∧ t.flags = ⟨false, false, false, false⟩ ∧ t.pc = s.pc + 4
              ∧ (t.halted = true ↔ s.spanInRange s.pc 8 = false ∨ s.spanInRange ea 8 = false)
              ∧ s.SameRegistersBut n t ∧ s.SameMemory t ∧ s.SameControl t)
end

