-- ==== Sys2Proof/Laws/State.lean ====
section
/-! SUPPORT. One lemma per field per state update, each true by `rfl`, so that no proof unfolds a record update. -/

namespace Sys2Proof.Machine

/-! ## writeReg -/

@[simp] theorem writeReg_regs (n : Fin 31) (v : Word) (s : State) : (writeReg n v s).regs = s.regs.set n v := rfl
@[simp] theorem writeReg_pc (n : Fin 31) (v : Word) (s : State) : (writeReg n v s).pc = s.pc := rfl
@[simp] theorem writeReg_flags (n : Fin 31) (v : Word) (s : State) : (writeReg n v s).flags = s.flags := rfl
@[simp] theorem writeReg_mem (n : Fin 31) (v : Word) (s : State) : (writeReg n v s).mem = s.mem := rfl
@[simp] theorem writeReg_mar (n : Fin 31) (v : Word) (s : State) : (writeReg n v s).mar = s.mar := rfl
@[simp] theorem writeReg_mdr (n : Fin 31) (v : Word) (s : State) : (writeReg n v s).mdr = s.mdr := rfl
@[simp] theorem writeReg_lq (n : Fin 31) (v : Word) (s : State) : (writeReg n v s).lq = s.lq := rfl
@[simp] theorem writeReg_ifid (n : Fin 31) (v : Word) (s : State) : (writeReg n v s).ifid = s.ifid := rfl
@[simp] theorem writeReg_idex (n : Fin 31) (v : Word) (s : State) : (writeReg n v s).idex = s.idex := rfl
@[simp] theorem writeReg_exmem (n : Fin 31) (v : Word) (s : State) : (writeReg n v s).exmem = s.exmem := rfl
@[simp] theorem writeReg_memwb (n : Fin 31) (v : Word) (s : State) : (writeReg n v s).memwb = s.memwb := rfl
@[simp] theorem writeReg_busyIF (n : Fin 31) (v : Word) (s : State) : (writeReg n v s).busyIF = s.busyIF := rfl
@[simp] theorem writeReg_busyID (n : Fin 31) (v : Word) (s : State) : (writeReg n v s).busyID = s.busyID := rfl
@[simp] theorem writeReg_busyEX (n : Fin 31) (v : Word) (s : State) : (writeReg n v s).busyEX = s.busyEX := rfl
@[simp] theorem writeReg_busyMEM (n : Fin 31) (v : Word) (s : State) : (writeReg n v s).busyMEM = s.busyMEM := rfl
@[simp] theorem writeReg_busyWB (n : Fin 31) (v : Word) (s : State) : (writeReg n v s).busyWB = s.busyWB := rfl
@[simp] theorem writeReg_taskIF (n : Fin 31) (v : Word) (s : State) : (writeReg n v s).taskIF = s.taskIF := rfl
@[simp] theorem writeReg_taskID (n : Fin 31) (v : Word) (s : State) : (writeReg n v s).taskID = s.taskID := rfl
@[simp] theorem writeReg_taskEX (n : Fin 31) (v : Word) (s : State) : (writeReg n v s).taskEX = s.taskEX := rfl
@[simp] theorem writeReg_taskMEM (n : Fin 31) (v : Word) (s : State) : (writeReg n v s).taskMEM = s.taskMEM := rfl
@[simp] theorem writeReg_taskWB (n : Fin 31) (v : Word) (s : State) : (writeReg n v s).taskWB = s.taskWB := rfl
@[simp] theorem writeReg_exFlushing (n : Fin 31) (v : Word) (s : State) : (writeReg n v s).exFlushing = s.exFlushing := rfl
@[simp] theorem writeReg_halted (n : Fin 31) (v : Word) (s : State) : (writeReg n v s).halted = s.halted := rfl
@[simp] theorem writeReg_fatal (n : Fin 31) (v : Word) (s : State) : (writeReg n v s).fatal = s.fatal := rfl
@[simp] theorem writeReg_params (n : Fin 31) (v : Word) (s : State) : (writeReg n v s).params = s.params := rfl
@[simp] theorem writeReg_schedule (n : Fin 31) (v : Word) (s : State) : (writeReg n v s).schedule = s.schedule := rfl
@[simp] theorem writeReg_phase (n : Fin 31) (v : Word) (s : State) : (writeReg n v s).phase = s.phase := rfl

/-! ## setFlags -/

@[simp] theorem setFlags_regs (f : Flags) (s : State) : (setFlags f s).regs = s.regs := rfl
@[simp] theorem setFlags_pc (f : Flags) (s : State) : (setFlags f s).pc = s.pc := rfl
@[simp] theorem setFlags_flags (f : Flags) (s : State) : (setFlags f s).flags = f := rfl
@[simp] theorem setFlags_mem (f : Flags) (s : State) : (setFlags f s).mem = s.mem := rfl
@[simp] theorem setFlags_mar (f : Flags) (s : State) : (setFlags f s).mar = s.mar := rfl
@[simp] theorem setFlags_mdr (f : Flags) (s : State) : (setFlags f s).mdr = s.mdr := rfl
@[simp] theorem setFlags_lq (f : Flags) (s : State) : (setFlags f s).lq = s.lq := rfl
@[simp] theorem setFlags_ifid (f : Flags) (s : State) : (setFlags f s).ifid = s.ifid := rfl
@[simp] theorem setFlags_idex (f : Flags) (s : State) : (setFlags f s).idex = s.idex := rfl
@[simp] theorem setFlags_exmem (f : Flags) (s : State) : (setFlags f s).exmem = s.exmem := rfl
@[simp] theorem setFlags_memwb (f : Flags) (s : State) : (setFlags f s).memwb = s.memwb := rfl
@[simp] theorem setFlags_busyIF (f : Flags) (s : State) : (setFlags f s).busyIF = s.busyIF := rfl
@[simp] theorem setFlags_busyID (f : Flags) (s : State) : (setFlags f s).busyID = s.busyID := rfl
@[simp] theorem setFlags_busyEX (f : Flags) (s : State) : (setFlags f s).busyEX = s.busyEX := rfl
@[simp] theorem setFlags_busyMEM (f : Flags) (s : State) : (setFlags f s).busyMEM = s.busyMEM := rfl
@[simp] theorem setFlags_busyWB (f : Flags) (s : State) : (setFlags f s).busyWB = s.busyWB := rfl
@[simp] theorem setFlags_taskIF (f : Flags) (s : State) : (setFlags f s).taskIF = s.taskIF := rfl
@[simp] theorem setFlags_taskID (f : Flags) (s : State) : (setFlags f s).taskID = s.taskID := rfl
@[simp] theorem setFlags_taskEX (f : Flags) (s : State) : (setFlags f s).taskEX = s.taskEX := rfl
@[simp] theorem setFlags_taskMEM (f : Flags) (s : State) : (setFlags f s).taskMEM = s.taskMEM := rfl
@[simp] theorem setFlags_taskWB (f : Flags) (s : State) : (setFlags f s).taskWB = s.taskWB := rfl
@[simp] theorem setFlags_exFlushing (f : Flags) (s : State) : (setFlags f s).exFlushing = s.exFlushing := rfl
@[simp] theorem setFlags_halted (f : Flags) (s : State) : (setFlags f s).halted = s.halted := rfl
@[simp] theorem setFlags_fatal (f : Flags) (s : State) : (setFlags f s).fatal = s.fatal := rfl
@[simp] theorem setFlags_params (f : Flags) (s : State) : (setFlags f s).params = s.params := rfl
@[simp] theorem setFlags_schedule (f : Flags) (s : State) : (setFlags f s).schedule = s.schedule := rfl
@[simp] theorem setFlags_phase (f : Flags) (s : State) : (setFlags f s).phase = s.phase := rfl

/-! ## raiseFatal -/

@[simp] theorem raiseFatal_regs (c : FatalCause) (s : State) : (raiseFatal c s).regs = s.regs := rfl
@[simp] theorem raiseFatal_pc (c : FatalCause) (s : State) : (raiseFatal c s).pc = s.pc := rfl
@[simp] theorem raiseFatal_flags (c : FatalCause) (s : State) : (raiseFatal c s).flags = s.flags := rfl
@[simp] theorem raiseFatal_mem (c : FatalCause) (s : State) : (raiseFatal c s).mem = s.mem := rfl
@[simp] theorem raiseFatal_mar (c : FatalCause) (s : State) : (raiseFatal c s).mar = s.mar := rfl
@[simp] theorem raiseFatal_mdr (c : FatalCause) (s : State) : (raiseFatal c s).mdr = s.mdr := rfl
@[simp] theorem raiseFatal_lq (c : FatalCause) (s : State) : (raiseFatal c s).lq = s.lq := rfl
@[simp] theorem raiseFatal_ifid (c : FatalCause) (s : State) : (raiseFatal c s).ifid = s.ifid := rfl
@[simp] theorem raiseFatal_idex (c : FatalCause) (s : State) : (raiseFatal c s).idex = s.idex := rfl
@[simp] theorem raiseFatal_exmem (c : FatalCause) (s : State) : (raiseFatal c s).exmem = s.exmem := rfl
@[simp] theorem raiseFatal_memwb (c : FatalCause) (s : State) : (raiseFatal c s).memwb = s.memwb := rfl
@[simp] theorem raiseFatal_busyIF (c : FatalCause) (s : State) : (raiseFatal c s).busyIF = s.busyIF := rfl
@[simp] theorem raiseFatal_busyID (c : FatalCause) (s : State) : (raiseFatal c s).busyID = s.busyID := rfl
@[simp] theorem raiseFatal_busyEX (c : FatalCause) (s : State) : (raiseFatal c s).busyEX = s.busyEX := rfl
@[simp] theorem raiseFatal_busyMEM (c : FatalCause) (s : State) : (raiseFatal c s).busyMEM = s.busyMEM := rfl
@[simp] theorem raiseFatal_busyWB (c : FatalCause) (s : State) : (raiseFatal c s).busyWB = s.busyWB := rfl
@[simp] theorem raiseFatal_taskIF (c : FatalCause) (s : State) : (raiseFatal c s).taskIF = s.taskIF := rfl
@[simp] theorem raiseFatal_taskID (c : FatalCause) (s : State) : (raiseFatal c s).taskID = s.taskID := rfl
@[simp] theorem raiseFatal_taskEX (c : FatalCause) (s : State) : (raiseFatal c s).taskEX = s.taskEX := rfl
@[simp] theorem raiseFatal_taskMEM (c : FatalCause) (s : State) : (raiseFatal c s).taskMEM = s.taskMEM := rfl
@[simp] theorem raiseFatal_taskWB (c : FatalCause) (s : State) : (raiseFatal c s).taskWB = s.taskWB := rfl
@[simp] theorem raiseFatal_exFlushing (c : FatalCause) (s : State) : (raiseFatal c s).exFlushing = s.exFlushing := rfl
@[simp] theorem raiseFatal_halted (c : FatalCause) (s : State) : (raiseFatal c s).halted = s.halted := rfl
@[simp] theorem raiseFatal_fatal (c : FatalCause) (s : State) : (raiseFatal c s).fatal = some c := rfl
@[simp] theorem raiseFatal_params (c : FatalCause) (s : State) : (raiseFatal c s).params = s.params := rfl
@[simp] theorem raiseFatal_schedule (c : FatalCause) (s : State) : (raiseFatal c s).schedule = s.schedule := rfl
@[simp] theorem raiseFatal_phase (c : FatalCause) (s : State) : (raiseFatal c s).phase = s.phase := rfl

/-! ## requestHalt -/

@[simp] theorem requestHalt_regs (s : State) : (requestHalt s).regs = s.regs := rfl
@[simp] theorem requestHalt_pc (s : State) : (requestHalt s).pc = s.pc := rfl
@[simp] theorem requestHalt_flags (s : State) : (requestHalt s).flags = s.flags := rfl
@[simp] theorem requestHalt_mem (s : State) : (requestHalt s).mem = s.mem := rfl
@[simp] theorem requestHalt_mar (s : State) : (requestHalt s).mar = s.mar := rfl
@[simp] theorem requestHalt_mdr (s : State) : (requestHalt s).mdr = s.mdr := rfl
@[simp] theorem requestHalt_lq (s : State) : (requestHalt s).lq = s.lq := rfl
@[simp] theorem requestHalt_ifid (s : State) : (requestHalt s).ifid = s.ifid := rfl
@[simp] theorem requestHalt_idex (s : State) : (requestHalt s).idex = s.idex := rfl
@[simp] theorem requestHalt_exmem (s : State) : (requestHalt s).exmem = s.exmem := rfl
@[simp] theorem requestHalt_memwb (s : State) : (requestHalt s).memwb = s.memwb := rfl
@[simp] theorem requestHalt_busyIF (s : State) : (requestHalt s).busyIF = s.busyIF := rfl
@[simp] theorem requestHalt_busyID (s : State) : (requestHalt s).busyID = s.busyID := rfl
@[simp] theorem requestHalt_busyEX (s : State) : (requestHalt s).busyEX = s.busyEX := rfl
@[simp] theorem requestHalt_busyMEM (s : State) : (requestHalt s).busyMEM = s.busyMEM := rfl
@[simp] theorem requestHalt_busyWB (s : State) : (requestHalt s).busyWB = s.busyWB := rfl
@[simp] theorem requestHalt_taskIF (s : State) : (requestHalt s).taskIF = s.taskIF := rfl
@[simp] theorem requestHalt_taskID (s : State) : (requestHalt s).taskID = s.taskID := rfl
@[simp] theorem requestHalt_taskEX (s : State) : (requestHalt s).taskEX = s.taskEX := rfl
@[simp] theorem requestHalt_taskMEM (s : State) : (requestHalt s).taskMEM = s.taskMEM := rfl
@[simp] theorem requestHalt_taskWB (s : State) : (requestHalt s).taskWB = s.taskWB := rfl
@[simp] theorem requestHalt_exFlushing (s : State) : (requestHalt s).exFlushing = s.exFlushing := rfl
@[simp] theorem requestHalt_halted (s : State) : (requestHalt s).halted = true := rfl
@[simp] theorem requestHalt_fatal (s : State) : (requestHalt s).fatal = s.fatal := rfl
@[simp] theorem requestHalt_params (s : State) : (requestHalt s).params = s.params := rfl
@[simp] theorem requestHalt_schedule (s : State) : (requestHalt s).schedule = s.schedule := rfl
@[simp] theorem requestHalt_phase (s : State) : (requestHalt s).phase = s.phase := rfl

/-! ## lqEnqueue -/

@[simp] theorem lqEnqueue_regs (n : Fin 31) (s : State) : (lqEnqueue n s).regs = s.regs := rfl
@[simp] theorem lqEnqueue_pc (n : Fin 31) (s : State) : (lqEnqueue n s).pc = s.pc := rfl
@[simp] theorem lqEnqueue_flags (n : Fin 31) (s : State) : (lqEnqueue n s).flags = s.flags := rfl
@[simp] theorem lqEnqueue_mem (n : Fin 31) (s : State) : (lqEnqueue n s).mem = s.mem := rfl
@[simp] theorem lqEnqueue_mar (n : Fin 31) (s : State) : (lqEnqueue n s).mar = s.mar := rfl
@[simp] theorem lqEnqueue_mdr (n : Fin 31) (s : State) : (lqEnqueue n s).mdr = s.mdr := rfl
@[simp] theorem lqEnqueue_lq (n : Fin 31) (s : State) : (lqEnqueue n s).lq = s.lq ++ [n] := rfl
@[simp] theorem lqEnqueue_ifid (n : Fin 31) (s : State) : (lqEnqueue n s).ifid = s.ifid := rfl
@[simp] theorem lqEnqueue_idex (n : Fin 31) (s : State) : (lqEnqueue n s).idex = s.idex := rfl
@[simp] theorem lqEnqueue_exmem (n : Fin 31) (s : State) : (lqEnqueue n s).exmem = s.exmem := rfl
@[simp] theorem lqEnqueue_memwb (n : Fin 31) (s : State) : (lqEnqueue n s).memwb = s.memwb := rfl
@[simp] theorem lqEnqueue_busyIF (n : Fin 31) (s : State) : (lqEnqueue n s).busyIF = s.busyIF := rfl
@[simp] theorem lqEnqueue_busyID (n : Fin 31) (s : State) : (lqEnqueue n s).busyID = s.busyID := rfl
@[simp] theorem lqEnqueue_busyEX (n : Fin 31) (s : State) : (lqEnqueue n s).busyEX = s.busyEX := rfl
@[simp] theorem lqEnqueue_busyMEM (n : Fin 31) (s : State) : (lqEnqueue n s).busyMEM = s.busyMEM := rfl
@[simp] theorem lqEnqueue_busyWB (n : Fin 31) (s : State) : (lqEnqueue n s).busyWB = s.busyWB := rfl
@[simp] theorem lqEnqueue_taskIF (n : Fin 31) (s : State) : (lqEnqueue n s).taskIF = s.taskIF := rfl
@[simp] theorem lqEnqueue_taskID (n : Fin 31) (s : State) : (lqEnqueue n s).taskID = s.taskID := rfl
@[simp] theorem lqEnqueue_taskEX (n : Fin 31) (s : State) : (lqEnqueue n s).taskEX = s.taskEX := rfl
@[simp] theorem lqEnqueue_taskMEM (n : Fin 31) (s : State) : (lqEnqueue n s).taskMEM = s.taskMEM := rfl
@[simp] theorem lqEnqueue_taskWB (n : Fin 31) (s : State) : (lqEnqueue n s).taskWB = s.taskWB := rfl
@[simp] theorem lqEnqueue_exFlushing (n : Fin 31) (s : State) : (lqEnqueue n s).exFlushing = s.exFlushing := rfl
@[simp] theorem lqEnqueue_halted (n : Fin 31) (s : State) : (lqEnqueue n s).halted = s.halted := rfl
@[simp] theorem lqEnqueue_fatal (n : Fin 31) (s : State) : (lqEnqueue n s).fatal = s.fatal := rfl
@[simp] theorem lqEnqueue_params (n : Fin 31) (s : State) : (lqEnqueue n s).params = s.params := rfl
@[simp] theorem lqEnqueue_schedule (n : Fin 31) (s : State) : (lqEnqueue n s).schedule = s.schedule := rfl
@[simp] theorem lqEnqueue_phase (n : Fin 31) (s : State) : (lqEnqueue n s).phase = s.phase := rfl

/-! ## lqRemoveNewest -/

@[simp] theorem lqRemoveNewest_regs (s : State) : (lqRemoveNewest s).regs = s.regs := rfl
@[simp] theorem lqRemoveNewest_pc (s : State) : (lqRemoveNewest s).pc = s.pc := rfl
@[simp] theorem lqRemoveNewest_flags (s : State) : (lqRemoveNewest s).flags = s.flags := rfl
@[simp] theorem lqRemoveNewest_mem (s : State) : (lqRemoveNewest s).mem = s.mem := rfl
@[simp] theorem lqRemoveNewest_mar (s : State) : (lqRemoveNewest s).mar = s.mar := rfl
@[simp] theorem lqRemoveNewest_mdr (s : State) : (lqRemoveNewest s).mdr = s.mdr := rfl
@[simp] theorem lqRemoveNewest_lq (s : State) : (lqRemoveNewest s).lq = s.lq.dropLast := rfl
@[simp] theorem lqRemoveNewest_ifid (s : State) : (lqRemoveNewest s).ifid = s.ifid := rfl
@[simp] theorem lqRemoveNewest_idex (s : State) : (lqRemoveNewest s).idex = s.idex := rfl
@[simp] theorem lqRemoveNewest_exmem (s : State) : (lqRemoveNewest s).exmem = s.exmem := rfl
@[simp] theorem lqRemoveNewest_memwb (s : State) : (lqRemoveNewest s).memwb = s.memwb := rfl
@[simp] theorem lqRemoveNewest_busyIF (s : State) : (lqRemoveNewest s).busyIF = s.busyIF := rfl
@[simp] theorem lqRemoveNewest_busyID (s : State) : (lqRemoveNewest s).busyID = s.busyID := rfl
@[simp] theorem lqRemoveNewest_busyEX (s : State) : (lqRemoveNewest s).busyEX = s.busyEX := rfl
@[simp] theorem lqRemoveNewest_busyMEM (s : State) : (lqRemoveNewest s).busyMEM = s.busyMEM := rfl
@[simp] theorem lqRemoveNewest_busyWB (s : State) : (lqRemoveNewest s).busyWB = s.busyWB := rfl
@[simp] theorem lqRemoveNewest_taskIF (s : State) : (lqRemoveNewest s).taskIF = s.taskIF := rfl
@[simp] theorem lqRemoveNewest_taskID (s : State) : (lqRemoveNewest s).taskID = s.taskID := rfl
@[simp] theorem lqRemoveNewest_taskEX (s : State) : (lqRemoveNewest s).taskEX = s.taskEX := rfl
@[simp] theorem lqRemoveNewest_taskMEM (s : State) : (lqRemoveNewest s).taskMEM = s.taskMEM := rfl
@[simp] theorem lqRemoveNewest_taskWB (s : State) : (lqRemoveNewest s).taskWB = s.taskWB := rfl
@[simp] theorem lqRemoveNewest_exFlushing (s : State) : (lqRemoveNewest s).exFlushing = s.exFlushing := rfl
@[simp] theorem lqRemoveNewest_halted (s : State) : (lqRemoveNewest s).halted = s.halted := rfl
@[simp] theorem lqRemoveNewest_fatal (s : State) : (lqRemoveNewest s).fatal = s.fatal := rfl
@[simp] theorem lqRemoveNewest_params (s : State) : (lqRemoveNewest s).params = s.params := rfl
@[simp] theorem lqRemoveNewest_schedule (s : State) : (lqRemoveNewest s).schedule = s.schedule := rfl
@[simp] theorem lqRemoveNewest_phase (s : State) : (lqRemoveNewest s).phase = s.phase := rfl

/-! ## beginRun -/

@[simp] theorem beginRun_regs (s : State) : (beginRun s).regs = s.regs := rfl
@[simp] theorem beginRun_pc (s : State) : (beginRun s).pc = s.pc := rfl
@[simp] theorem beginRun_flags (s : State) : (beginRun s).flags = s.flags := rfl
@[simp] theorem beginRun_mem (s : State) : (beginRun s).mem = s.mem := rfl
@[simp] theorem beginRun_mar (s : State) : (beginRun s).mar = s.mar := rfl
@[simp] theorem beginRun_mdr (s : State) : (beginRun s).mdr = s.mdr := rfl
@[simp] theorem beginRun_lq (s : State) : (beginRun s).lq = s.lq := rfl
@[simp] theorem beginRun_ifid (s : State) : (beginRun s).ifid = s.ifid := rfl
@[simp] theorem beginRun_idex (s : State) : (beginRun s).idex = s.idex := rfl
@[simp] theorem beginRun_exmem (s : State) : (beginRun s).exmem = s.exmem := rfl
@[simp] theorem beginRun_memwb (s : State) : (beginRun s).memwb = s.memwb := rfl
@[simp] theorem beginRun_busyIF (s : State) : (beginRun s).busyIF = s.busyIF := rfl
@[simp] theorem beginRun_busyID (s : State) : (beginRun s).busyID = s.busyID := rfl
@[simp] theorem beginRun_busyEX (s : State) : (beginRun s).busyEX = s.busyEX := rfl
@[simp] theorem beginRun_busyMEM (s : State) : (beginRun s).busyMEM = s.busyMEM := rfl
@[simp] theorem beginRun_busyWB (s : State) : (beginRun s).busyWB = s.busyWB := rfl
@[simp] theorem beginRun_taskIF (s : State) : (beginRun s).taskIF = s.taskIF := rfl
@[simp] theorem beginRun_taskID (s : State) : (beginRun s).taskID = s.taskID := rfl
@[simp] theorem beginRun_taskEX (s : State) : (beginRun s).taskEX = s.taskEX := rfl
@[simp] theorem beginRun_taskMEM (s : State) : (beginRun s).taskMEM = s.taskMEM := rfl
@[simp] theorem beginRun_taskWB (s : State) : (beginRun s).taskWB = s.taskWB := rfl
@[simp] theorem beginRun_exFlushing (s : State) : (beginRun s).exFlushing = s.exFlushing := rfl
@[simp] theorem beginRun_halted (s : State) : (beginRun s).halted = s.halted := rfl
@[simp] theorem beginRun_fatal (s : State) : (beginRun s).fatal = s.fatal := rfl
@[simp] theorem beginRun_params (s : State) : (beginRun s).params = s.params := rfl
@[simp] theorem beginRun_schedule (s : State) : (beginRun s).schedule = s.schedule := rfl
@[simp] theorem beginRun_phase (s : State) : (beginRun s).phase = .started := rfl

/-! ## createMemory -/

@[simp] theorem createMemory_regs (k : Nat) (s : State) : (createMemory k s).regs = s.regs := rfl
@[simp] theorem createMemory_pc (k : Nat) (s : State) : (createMemory k s).pc = s.pc := rfl
@[simp] theorem createMemory_flags (k : Nat) (s : State) : (createMemory k s).flags = s.flags := rfl
@[simp] theorem createMemory_mem (k : Nat) (s : State) : (createMemory k s).mem = [] := rfl
@[simp] theorem createMemory_mar (k : Nat) (s : State) : (createMemory k s).mar = s.mar := rfl
@[simp] theorem createMemory_mdr (k : Nat) (s : State) : (createMemory k s).mdr = s.mdr := rfl
@[simp] theorem createMemory_lq (k : Nat) (s : State) : (createMemory k s).lq = s.lq := rfl
@[simp] theorem createMemory_ifid (k : Nat) (s : State) : (createMemory k s).ifid = s.ifid := rfl
@[simp] theorem createMemory_idex (k : Nat) (s : State) : (createMemory k s).idex = s.idex := rfl
@[simp] theorem createMemory_exmem (k : Nat) (s : State) : (createMemory k s).exmem = s.exmem := rfl
@[simp] theorem createMemory_memwb (k : Nat) (s : State) : (createMemory k s).memwb = s.memwb := rfl
@[simp] theorem createMemory_busyIF (k : Nat) (s : State) : (createMemory k s).busyIF = s.busyIF := rfl
@[simp] theorem createMemory_busyID (k : Nat) (s : State) : (createMemory k s).busyID = s.busyID := rfl
@[simp] theorem createMemory_busyEX (k : Nat) (s : State) : (createMemory k s).busyEX = s.busyEX := rfl
@[simp] theorem createMemory_busyMEM (k : Nat) (s : State) : (createMemory k s).busyMEM = s.busyMEM := rfl
@[simp] theorem createMemory_busyWB (k : Nat) (s : State) : (createMemory k s).busyWB = s.busyWB := rfl
@[simp] theorem createMemory_taskIF (k : Nat) (s : State) : (createMemory k s).taskIF = s.taskIF := rfl
@[simp] theorem createMemory_taskID (k : Nat) (s : State) : (createMemory k s).taskID = s.taskID := rfl
@[simp] theorem createMemory_taskEX (k : Nat) (s : State) : (createMemory k s).taskEX = s.taskEX := rfl
@[simp] theorem createMemory_taskMEM (k : Nat) (s : State) : (createMemory k s).taskMEM = s.taskMEM := rfl
@[simp] theorem createMemory_taskWB (k : Nat) (s : State) : (createMemory k s).taskWB = s.taskWB := rfl
@[simp] theorem createMemory_exFlushing (k : Nat) (s : State) : (createMemory k s).exFlushing = s.exFlushing := rfl
@[simp] theorem createMemory_halted (k : Nat) (s : State) : (createMemory k s).halted = s.halted := rfl
@[simp] theorem createMemory_fatal (k : Nat) (s : State) : (createMemory k s).fatal = s.fatal := rfl
@[simp] theorem createMemory_params (k : Nat) (s : State) : (createMemory k s).params = { s.params with memSize := k } := rfl
@[simp] theorem createMemory_schedule (k : Nat) (s : State) : (createMemory k s).schedule = s.schedule := rfl
@[simp] theorem createMemory_phase (k : Nat) (s : State) : (createMemory k s).phase = .ready := rfl

/-! ## zeroMemory -/

@[simp] theorem zeroMemory_regs (s : State) : (zeroMemory s).regs = s.regs := rfl
@[simp] theorem zeroMemory_pc (s : State) : (zeroMemory s).pc = s.pc := rfl
@[simp] theorem zeroMemory_flags (s : State) : (zeroMemory s).flags = s.flags := rfl
@[simp] theorem zeroMemory_mem (s : State) : (zeroMemory s).mem = [] := rfl
@[simp] theorem zeroMemory_mar (s : State) : (zeroMemory s).mar = s.mar := rfl
@[simp] theorem zeroMemory_mdr (s : State) : (zeroMemory s).mdr = s.mdr := rfl
@[simp] theorem zeroMemory_lq (s : State) : (zeroMemory s).lq = s.lq := rfl
@[simp] theorem zeroMemory_ifid (s : State) : (zeroMemory s).ifid = s.ifid := rfl
@[simp] theorem zeroMemory_idex (s : State) : (zeroMemory s).idex = s.idex := rfl
@[simp] theorem zeroMemory_exmem (s : State) : (zeroMemory s).exmem = s.exmem := rfl
@[simp] theorem zeroMemory_memwb (s : State) : (zeroMemory s).memwb = s.memwb := rfl
@[simp] theorem zeroMemory_busyIF (s : State) : (zeroMemory s).busyIF = s.busyIF := rfl
@[simp] theorem zeroMemory_busyID (s : State) : (zeroMemory s).busyID = s.busyID := rfl
@[simp] theorem zeroMemory_busyEX (s : State) : (zeroMemory s).busyEX = s.busyEX := rfl
@[simp] theorem zeroMemory_busyMEM (s : State) : (zeroMemory s).busyMEM = s.busyMEM := rfl
@[simp] theorem zeroMemory_busyWB (s : State) : (zeroMemory s).busyWB = s.busyWB := rfl
@[simp] theorem zeroMemory_taskIF (s : State) : (zeroMemory s).taskIF = s.taskIF := rfl
@[simp] theorem zeroMemory_taskID (s : State) : (zeroMemory s).taskID = s.taskID := rfl
@[simp] theorem zeroMemory_taskEX (s : State) : (zeroMemory s).taskEX = s.taskEX := rfl
@[simp] theorem zeroMemory_taskMEM (s : State) : (zeroMemory s).taskMEM = s.taskMEM := rfl
@[simp] theorem zeroMemory_taskWB (s : State) : (zeroMemory s).taskWB = s.taskWB := rfl
@[simp] theorem zeroMemory_exFlushing (s : State) : (zeroMemory s).exFlushing = s.exFlushing := rfl
@[simp] theorem zeroMemory_halted (s : State) : (zeroMemory s).halted = s.halted := rfl
@[simp] theorem zeroMemory_fatal (s : State) : (zeroMemory s).fatal = s.fatal := rfl
@[simp] theorem zeroMemory_params (s : State) : (zeroMemory s).params = s.params := rfl
@[simp] theorem zeroMemory_schedule (s : State) : (zeroMemory s).schedule = s.schedule := rfl
@[simp] theorem zeroMemory_phase (s : State) : (zeroMemory s).phase = s.phase := rfl

/-! ## loadImage -/

@[simp] theorem loadImage_regs (ws : List IWord) (s : State) : (loadImage ws s).regs = s.regs := rfl
@[simp] theorem loadImage_pc (ws : List IWord) (s : State) : (loadImage ws s).pc = s.pc := rfl
@[simp] theorem loadImage_flags (ws : List IWord) (s : State) : (loadImage ws s).flags = s.flags := rfl
@[simp] theorem loadImage_mem (ws : List IWord) (s : State) : (loadImage ws s).mem = Memory.writeList s.mem Config.imageBase (imageBytes ws) := rfl
@[simp] theorem loadImage_mar (ws : List IWord) (s : State) : (loadImage ws s).mar = s.mar := rfl
@[simp] theorem loadImage_mdr (ws : List IWord) (s : State) : (loadImage ws s).mdr = s.mdr := rfl
@[simp] theorem loadImage_lq (ws : List IWord) (s : State) : (loadImage ws s).lq = s.lq := rfl
@[simp] theorem loadImage_ifid (ws : List IWord) (s : State) : (loadImage ws s).ifid = s.ifid := rfl
@[simp] theorem loadImage_idex (ws : List IWord) (s : State) : (loadImage ws s).idex = s.idex := rfl
@[simp] theorem loadImage_exmem (ws : List IWord) (s : State) : (loadImage ws s).exmem = s.exmem := rfl
@[simp] theorem loadImage_memwb (ws : List IWord) (s : State) : (loadImage ws s).memwb = s.memwb := rfl
@[simp] theorem loadImage_busyIF (ws : List IWord) (s : State) : (loadImage ws s).busyIF = s.busyIF := rfl
@[simp] theorem loadImage_busyID (ws : List IWord) (s : State) : (loadImage ws s).busyID = s.busyID := rfl
@[simp] theorem loadImage_busyEX (ws : List IWord) (s : State) : (loadImage ws s).busyEX = s.busyEX := rfl
@[simp] theorem loadImage_busyMEM (ws : List IWord) (s : State) : (loadImage ws s).busyMEM = s.busyMEM := rfl
@[simp] theorem loadImage_busyWB (ws : List IWord) (s : State) : (loadImage ws s).busyWB = s.busyWB := rfl
@[simp] theorem loadImage_taskIF (ws : List IWord) (s : State) : (loadImage ws s).taskIF = s.taskIF := rfl
@[simp] theorem loadImage_taskID (ws : List IWord) (s : State) : (loadImage ws s).taskID = s.taskID := rfl
@[simp] theorem loadImage_taskEX (ws : List IWord) (s : State) : (loadImage ws s).taskEX = s.taskEX := rfl
@[simp] theorem loadImage_taskMEM (ws : List IWord) (s : State) : (loadImage ws s).taskMEM = s.taskMEM := rfl
@[simp] theorem loadImage_taskWB (ws : List IWord) (s : State) : (loadImage ws s).taskWB = s.taskWB := rfl
@[simp] theorem loadImage_exFlushing (ws : List IWord) (s : State) : (loadImage ws s).exFlushing = s.exFlushing := rfl
@[simp] theorem loadImage_halted (ws : List IWord) (s : State) : (loadImage ws s).halted = s.halted := rfl
@[simp] theorem loadImage_fatal (ws : List IWord) (s : State) : (loadImage ws s).fatal = s.fatal := rfl
@[simp] theorem loadImage_params (ws : List IWord) (s : State) : (loadImage ws s).params = s.params := rfl
@[simp] theorem loadImage_schedule (ws : List IWord) (s : State) : (loadImage ws s).schedule = s.schedule := rfl
@[simp] theorem loadImage_phase (ws : List IWord) (s : State) : (loadImage ws s).phase = s.phase := rfl

/-! ## flush -/

@[simp] theorem flush_regs (t : Word) (s : State) : (flush t s).regs = s.regs := by
  unfold flush; split <;> rfl
@[simp] theorem flush_pc (t : Word) (s : State) : (flush t s).pc = t := rfl
@[simp] theorem flush_flags (t : Word) (s : State) : (flush t s).flags = s.flags := by
  unfold flush; split <;> rfl
@[simp] theorem flush_mem (t : Word) (s : State) : (flush t s).mem = s.mem := by
  unfold flush; split <;> rfl
@[simp] theorem flush_mar (t : Word) (s : State) : (flush t s).mar = s.mar := by
  unfold flush; split <;> rfl
@[simp] theorem flush_mdr (t : Word) (s : State) : (flush t s).mdr = s.mdr := by
  unfold flush; split <;> rfl
@[simp] theorem flush_lq (t : Word) (s : State) : (flush t s).lq = if s.idexReserved then s.lq.dropLast else s.lq := by
  unfold flush; split <;> rfl
@[simp] theorem flush_ifid (t : Word) (s : State) : (flush t s).ifid = none := rfl
@[simp] theorem flush_idex (t : Word) (s : State) : (flush t s).idex = none := rfl
@[simp] theorem flush_exmem (t : Word) (s : State) : (flush t s).exmem = s.exmem := by
  unfold flush; split <;> rfl
@[simp] theorem flush_memwb (t : Word) (s : State) : (flush t s).memwb = s.memwb := by
  unfold flush; split <;> rfl
@[simp] theorem flush_busyIF (t : Word) (s : State) : (flush t s).busyIF = false := rfl
@[simp] theorem flush_busyID (t : Word) (s : State) : (flush t s).busyID = false := rfl
@[simp] theorem flush_busyEX (t : Word) (s : State) : (flush t s).busyEX = s.busyEX := by
  unfold flush; split <;> rfl
@[simp] theorem flush_busyMEM (t : Word) (s : State) : (flush t s).busyMEM = s.busyMEM := by
  unfold flush; split <;> rfl
@[simp] theorem flush_busyWB (t : Word) (s : State) : (flush t s).busyWB = s.busyWB := by
  unfold flush; split <;> rfl
@[simp] theorem flush_taskIF (t : Word) (s : State) : (flush t s).taskIF = .none := rfl
@[simp] theorem flush_taskID (t : Word) (s : State) : (flush t s).taskID = .none := rfl
@[simp] theorem flush_taskEX (t : Word) (s : State) : (flush t s).taskEX = s.taskEX := by
  unfold flush; split <;> rfl
@[simp] theorem flush_taskMEM (t : Word) (s : State) : (flush t s).taskMEM = s.taskMEM := by
  unfold flush; split <;> rfl
@[simp] theorem flush_taskWB (t : Word) (s : State) : (flush t s).taskWB = s.taskWB := by
  unfold flush; split <;> rfl
@[simp] theorem flush_exFlushing (t : Word) (s : State) : (flush t s).exFlushing = false := rfl
@[simp] theorem flush_halted (t : Word) (s : State) : (flush t s).halted = s.halted := by
  unfold flush; split <;> rfl
@[simp] theorem flush_fatal (t : Word) (s : State) : (flush t s).fatal = s.fatal := by
  unfold flush; split <;> rfl
@[simp] theorem flush_params (t : Word) (s : State) : (flush t s).params = s.params := by
  unfold flush; split <;> rfl
@[simp] theorem flush_schedule (t : Word) (s : State) : (flush t s).schedule = s.schedule := by
  unfold flush; split <;> rfl
@[simp] theorem flush_phase (t : Word) (s : State) : (flush t s).phase = s.phase := by
  unfold flush; split <;> rfl

/-! ## resetCore -/

@[simp] theorem resetCore_regs (s : State) : (resetCore s).regs = State.reset.regs := rfl
@[simp] theorem resetCore_pc (s : State) : (resetCore s).pc = State.reset.pc := rfl
@[simp] theorem resetCore_flags (s : State) : (resetCore s).flags = State.reset.flags := rfl
@[simp] theorem resetCore_mem (s : State) : (resetCore s).mem = s.mem := rfl
@[simp] theorem resetCore_mar (s : State) : (resetCore s).mar = State.reset.mar := rfl
@[simp] theorem resetCore_mdr (s : State) : (resetCore s).mdr = State.reset.mdr := rfl
@[simp] theorem resetCore_lq (s : State) : (resetCore s).lq = State.reset.lq := rfl
@[simp] theorem resetCore_ifid (s : State) : (resetCore s).ifid = State.reset.ifid := rfl
@[simp] theorem resetCore_idex (s : State) : (resetCore s).idex = State.reset.idex := rfl
@[simp] theorem resetCore_exmem (s : State) : (resetCore s).exmem = State.reset.exmem := rfl
@[simp] theorem resetCore_memwb (s : State) : (resetCore s).memwb = State.reset.memwb := rfl
@[simp] theorem resetCore_busyIF (s : State) : (resetCore s).busyIF = State.reset.busyIF := rfl
@[simp] theorem resetCore_busyID (s : State) : (resetCore s).busyID = State.reset.busyID := rfl
@[simp] theorem resetCore_busyEX (s : State) : (resetCore s).busyEX = State.reset.busyEX := rfl
@[simp] theorem resetCore_busyMEM (s : State) : (resetCore s).busyMEM = State.reset.busyMEM := rfl
@[simp] theorem resetCore_busyWB (s : State) : (resetCore s).busyWB = State.reset.busyWB := rfl
@[simp] theorem resetCore_taskIF (s : State) : (resetCore s).taskIF = State.reset.taskIF := rfl
@[simp] theorem resetCore_taskID (s : State) : (resetCore s).taskID = State.reset.taskID := rfl
@[simp] theorem resetCore_taskEX (s : State) : (resetCore s).taskEX = State.reset.taskEX := rfl
@[simp] theorem resetCore_taskMEM (s : State) : (resetCore s).taskMEM = State.reset.taskMEM := rfl
@[simp] theorem resetCore_taskWB (s : State) : (resetCore s).taskWB = State.reset.taskWB := rfl
@[simp] theorem resetCore_exFlushing (s : State) : (resetCore s).exFlushing = State.reset.exFlushing := rfl
@[simp] theorem resetCore_halted (s : State) : (resetCore s).halted = State.reset.halted := rfl
@[simp] theorem resetCore_fatal (s : State) : (resetCore s).fatal = State.reset.fatal := rfl
@[simp] theorem resetCore_params (s : State) : (resetCore s).params = s.params := rfl
@[simp] theorem resetCore_schedule (s : State) : (resetCore s).schedule = s.schedule := rfl
@[simp] theorem resetCore_phase (s : State) : (resetCore s).phase = s.phase.afterReset := rfl

end Sys2Proof.Machine
end

