-- ==== Sys2Proof/Laws/Memory.lean ====
section
/-! SUPPORT. The laws of Memory as data: a read after a write, and that every operation keeps the canonical form
and the bound. -/

namespace Sys2Proof.Machine

@[simp] theorem Memory.read_nil (a : Nat) : Memory.read [] a = Config.unlistedByte := rfl

theorem Memory.read_cons_cell (k : Nat) (c : Byte) (m : Memory) (a : Nat) :
    Memory.read ((k, c) :: m) a = if a = k then c else Memory.read m a := rfl

/-! ## The canonical form -/

theorem Memory.wfFrom_cons (lo k : Nat) (c : Byte) (m : Memory) :
    Memory.wfFrom lo ((k, c) :: m) = true ↔
      lo ≤ k ∧ c ≠ Config.unlistedByte ∧ Memory.wfFrom (k + 1) m = true := by
  simp [Memory.wfFrom, and_assoc]

theorem Memory.wfFrom_mono {lo lo' : Nat} {m : Memory} (h : lo' ≤ lo) (hm : Memory.wfFrom lo m = true) :
    Memory.wfFrom lo' m = true := by
  cases m with
  | nil => rfl
  | cons p m =>
    obtain ⟨k, c⟩ := p
    rw [Memory.wfFrom_cons] at hm ⊢
    exact ⟨h.trans hm.1, hm.2⟩

/-- Below its first address a canonical memory reads the unlisted byte. -/
theorem Memory.read_below {lo : Nat} {m : Memory} (hm : Memory.wfFrom lo m = true) {a : Nat} (ha : a < lo) :
    Memory.read m a = Config.unlistedByte := by
  induction m generalizing lo with
  | nil => rfl
  | cons p m ih =>
    obtain ⟨k, c⟩ := p
    rw [Memory.wfFrom_cons] at hm
    rw [Memory.read_cons_cell, if_neg (by omega)]
    exact ih hm.2.2 (by omega)

theorem Memory.read_consCell_self {a : Nat} {b : Byte} {m : Memory} (hm : Memory.wfFrom (a + 1) m = true) :
    Memory.read (Memory.cons a b m) a = b := by
  unfold Memory.cons
  split
  · rename_i h
    rw [Memory.read_below hm (by omega), h]
  · rw [Memory.read_cons_cell, if_pos rfl]

theorem Memory.read_consCell_other {a a' : Nat} (h : a' ≠ a) (b : Byte) (m : Memory) :
    Memory.read (Memory.cons a b m) a' = Memory.read m a' := by
  unfold Memory.cons
  split
  · rfl
  · rw [Memory.read_cons_cell, if_neg h]

theorem Memory.wfFrom_consCell {lo a : Nat} {b : Byte} {m : Memory} (hlo : lo ≤ a)
    (hm : Memory.wfFrom (a + 1) m = true) : Memory.wfFrom lo (Memory.cons a b m) = true := by
  unfold Memory.cons
  split
  · exact Memory.wfFrom_mono (by omega) hm
  · rename_i h
    exact (Memory.wfFrom_cons ..).2 ⟨hlo, h, hm⟩

/-! ## Reading after writing -/

/-- A read of the byte just written gives that byte. -/
theorem Memory.read_write_same {lo : Nat} {m : Memory} (hm : Memory.wfFrom lo m = true) (a : Nat) (b : Byte) :
    Memory.read (Memory.write m a b) a = b := by
  induction m generalizing lo with
  | nil => exact Memory.read_consCell_self (m := []) rfl
  | cons p m ih =>
    obtain ⟨k, c⟩ := p
    rw [Memory.wfFrom_cons] at hm
    unfold Memory.write
    split
    · exact Memory.read_consCell_self ((Memory.wfFrom_cons ..).2 ⟨by omega, hm.2⟩)
    · split
      · rename_i h
        exact Memory.read_consCell_self (h ▸ hm.2.2)
      · rename_i h
        rw [Memory.read_cons_cell, if_neg h]
        exact ih hm.2.2

/-- A read of any other byte gives what it gave before. -/
theorem Memory.read_write_other {a a' : Nat} (h : a' ≠ a) (m : Memory) (b : Byte) :
    Memory.read (Memory.write m a b) a' = Memory.read m a' := by
  induction m with
  | nil => exact Memory.read_consCell_other h b []
  | cons p m ih =>
    obtain ⟨k, c⟩ := p
    unfold Memory.write
    split
    · exact Memory.read_consCell_other h b _
    · split
      · rename_i hk
        rw [Memory.read_consCell_other h, Memory.read_cons_cell, if_neg (hk ▸ h)]
      · rw [Memory.read_cons_cell, Memory.read_cons_cell, ih]

/-- A write keeps the canonical form. -/
theorem Memory.wfFrom_write {lo : Nat} {m : Memory} (hm : Memory.wfFrom lo m = true) {a : Nat} (ha : lo ≤ a)
    (b : Byte) : Memory.wfFrom lo (Memory.write m a b) = true := by
  induction m generalizing lo with
  | nil => exact Memory.wfFrom_consCell ha rfl
  | cons p m ih =>
    obtain ⟨k, c⟩ := p
    have hm' := (Memory.wfFrom_cons ..).1 hm
    unfold Memory.write
    split
    · exact Memory.wfFrom_consCell ha ((Memory.wfFrom_cons ..).2 ⟨by omega, hm'.2⟩)
    · split
      · rename_i h
        exact Memory.wfFrom_consCell ha (h ▸ hm'.2.2)
      · exact (Memory.wfFrom_cons ..).2 ⟨hm'.1, hm'.2.1, ih hm'.2.2 (by omega)⟩

theorem Memory.wf_write {m : Memory} (hm : Memory.wf m = true) (a : Nat) (b : Byte) :
    Memory.wf (Memory.write m a b) = true := Memory.wfFrom_write hm (Nat.zero_le a) b

theorem Memory.wf_writeList {m : Memory} (hm : Memory.wf m = true) (a : Nat) (bs : List Byte) :
    Memory.wf (Memory.writeList m a bs) = true := by
  induction bs generalizing m a with
  | nil => exact hm
  | cons b bs ih => exact ih (Memory.wf_write hm a b) (a + 1)

/-- A byte that a list of writes does not reach reads as before. -/
theorem Memory.read_writeList_outside (m : Memory) (a : Nat) (bs : List Byte) {k : Nat}
    (h : k < a ∨ a + bs.length ≤ k) : Memory.read (Memory.writeList m a bs) k = Memory.read m k := by
  induction bs generalizing m a with
  | nil => rfl
  | cons b bs ih =>
    simp only [List.length_cons] at h
    rw [Memory.writeList, ih _ (a + 1) (by omega), Memory.read_write_other (by omega)]

/-- A byte of a list of writes reads as the byte written there. -/
theorem Memory.read_writeList_inside {m : Memory} (hm : Memory.wf m = true) (a : Nat) (bs : List Byte) (i : Nat)
    (hi : i < bs.length) : Memory.read (Memory.writeList m a bs) (a + i) = bs[i] := by
  induction bs generalizing m a i with
  | nil => exact absurd hi (by simp)
  | cons b bs ih =>
    cases i with
    | zero =>
      rw [Memory.writeList, Memory.read_writeList_outside _ _ _ (by omega)]
      exact Memory.read_write_same hm a b
    | succ i =>
      have e := ih (Memory.wf_write hm a b) (a + 1) i (by simpa using hi)
      rw [Memory.writeList, ← Nat.add_assoc, Nat.add_right_comm]
      exact e

/-! ## The bound -/

theorem Memory.within_cons {size k : Nat} {c : Byte} {m : Memory} :
    Memory.within size ((k, c) :: m) = true ↔ k < size ∧ Memory.within size m = true := by
  simp [Memory.within]

theorem Memory.within_consCell {size a : Nat} {b : Byte} {m : Memory} (ha : a < size)
    (hm : Memory.within size m = true) : Memory.within size (Memory.cons a b m) = true := by
  unfold Memory.cons
  split
  · exact hm
  · exact Memory.within_cons.2 ⟨ha, hm⟩

theorem Memory.within_write {size : Nat} {m : Memory} (hm : Memory.within size m = true) {a : Nat} (ha : a < size)
    (b : Byte) : Memory.within size (Memory.write m a b) = true := by
  induction m with
  | nil => exact Memory.within_consCell ha hm
  | cons p m ih =>
    obtain ⟨k, c⟩ := p
    have hm' := Memory.within_cons.1 hm
    unfold Memory.write
    split
    · exact Memory.within_consCell ha hm
    · split
      · exact Memory.within_consCell ha hm'.2
      · exact Memory.within_cons.2 ⟨hm'.1, ih hm'.2⟩

theorem Memory.within_writeList {size : Nat} {m : Memory} (hm : Memory.within size m = true) (a : Nat)
    (bs : List Byte) (h : a + bs.length ≤ size) : Memory.within size (Memory.writeList m a bs) = true := by
  induction bs generalizing m a with
  | nil => exact hm
  | cons b bs ih =>
    simp only [List.length_cons] at h
    exact ih (Memory.within_write hm (by omega) b) (a + 1) (by omega)

end Sys2Proof.Machine
end

