-- ==== Sys2Proof/Laws/Ops.lean ====
section
/-! SUPPORT. What each shared operation does, said once: register reads after writes, what a read of a byte depends
on, and the closed forms of the MMU's two operations. -/

namespace Sys2Proof.Machine

/-! ## Registers -/

@[simp] theorem x_xzr (s : State) : s.x .xzr = 0 := rfl

theorem x_of_regs {s t : State} (h : t.regs = s.regs) (r : Reg) : t.x r = s.x r := by
  cases r <;> simp [State.x, h]

theorem xOpt_of_regs {s t : State} (h : t.regs = s.regs) (r : Option Reg) : t.xOpt r = s.xOpt r := by
  cases r with
  | none => rfl
  | some r => exact x_of_regs h r

@[simp] theorem writeReg_x_same (n : Fin 31) (v : Word) (s : State) : (writeReg n v s).x (.x n) = v := by
  simp [State.x]

theorem writeReg_x_other {n : Fin 31} {r : Reg} (h : r ≠ .x n) (v : Word) (s : State) :
    (writeReg n v s).x r = s.x r := by
  cases r with
  | xzr => rfl
  | x k =>
    have hk : n.val ≠ k.val := fun e => h (by rw [Fin.ext e])
    simp [State.x, hk]

/-! ## What reading Memory depends on -/

theorem inRange_of_params {s t : State} (h : t.params = s.params) (a : Word) : t.inRange a = s.inRange a := by
  simp [State.inRange, h]

theorem spanInRange_of_params {s t : State} (h : t.params = s.params) (a : Word) (n : Nat) :
    t.spanInRange a n = s.spanInRange a n := by
  simp [State.spanInRange, State.inRange, h]

theorem byteAt_of_mem {s t : State} (hm : t.mem = s.mem) (hp : t.params = s.params) (a : Word) :
    t.byteAt a = s.byteAt a := by
  simp [State.byteAt, State.inRange, hm, hp]

theorem wordAt_of_mem {s t : State} (hm : t.mem = s.mem) (hp : t.params = s.params) (a : Word) :
    t.wordAt a = s.wordAt a := by
  simp [State.wordAt, byteAt_of_mem hm hp]

theorem spanInRange_zero (s : State) (a : Word) : s.spanInRange a 0 = true := rfl

/-- The address `i + 1` bytes above `a` is `i` bytes above the next one. -/
theorem next_address (a : Word) (i : Nat) : a + BitVec.ofNat 64 (i + 1) = a + 1 + BitVec.ofNat 64 i := by
  rw [Nat.add_comm, BitVec.ofNat_add, ← BitVec.add_assoc]
  rfl

theorem spanInRange_succ (s : State) (a : Word) (n : Nat) :
    s.spanInRange a (n + 1) = (s.inRange a && s.spanInRange (a + 1) n) := by
  simp only [State.spanInRange, List.range_succ_eq_map, List.all_cons, List.all_map, Function.comp_def, next_address]
  simp

theorem spanInRange_iff {s : State} {a : Word} {n : Nat} :
    s.spanInRange a n = true ↔ ∀ i, i < n → s.inRange (a + BitVec.ofNat 64 i) = true := by
  simp [State.spanInRange]

/-! ## Byte access -/

theorem memByteRead_fst (s : State) (a : Word) :
    (memByteRead s a).1 = { s with halted := s.halted || !s.inRange a } := rfl

/-- Byte reads change nothing but the halt bit, which is set if a byte is out of bounds (20_memory.md R44, R45). -/
theorem touchBytes_eq (n : Nat) (a : Word) (s : State) :
    touchBytes n a s = { s with halted := s.halted || !s.spanInRange a n } := by
  induction n generalizing a s with
  | zero => simp [touchBytes, spanInRange_zero]
  | succ n ih =>
    rw [touchBytes, ih, memByteRead_fst, spanInRange_succ,
      spanInRange_of_params (s := s) (t := { s with halted := s.halted || !s.inRange a }) rfl]
    simp [Bool.or_assoc, Bool.not_and]

/-- `MMURead` is eight byte reads, one after the other (20_memory.md R48, R62). -/
theorem mmuRead_bytewise (a : Word) (s : State) :
    mmuRead a s = touchBytes 8 a { s with mar := a, mdr := s.wordAt a } := by
  rw [touchBytes_eq, spanInRange_of_params (s := s) (t := { s with mar := a, mdr := s.wordAt a }) rfl]
  rfl

/-- The closed form of `MMURead` (20_memory.md R48, R62). -/
theorem mmuRead_eq (a : Word) (s : State) :
    mmuRead a s = { s with mar := a, mdr := s.wordAt a, halted := s.halted || !s.spanInRange a 8 } := rfl

/-- A byte write changes nothing but Memory and the halt bit (20_memory.md R44, R46). -/
theorem memByteWrite_eq (s : State) (a : Word) (b : Byte) :
    memByteWrite s a b = { s with
      mem := if s.inRange a then Memory.write s.mem a.toNat b else s.mem
      halted := s.halted || !s.inRange a } := rfl

/-- Byte writes change nothing but Memory and the halt bit, which is set if a byte is out of bounds. -/
theorem writeBytes_eq (bs : List Byte) (a : Word) (s : State) :
    writeBytes bs a s = { s with
      mem := writtenMem s.params.memSize bs a s.mem
      halted := s.halted || !s.spanInRange a bs.length } := by
  induction bs generalizing a s with
  | nil => simp [writeBytes, writtenMem, spanInRange_zero]
  | cons b bs ih =>
    rw [writeBytes, ih, memByteWrite_eq, List.length_cons, spanInRange_succ,
      spanInRange_of_params (s := s) (t := { s with
        mem := if s.inRange a then Memory.write s.mem a.toNat b else s.mem
        halted := s.halted || !s.inRange a }) rfl]
    simp [writtenMem, State.inRange, Bool.or_assoc, Bool.not_and]

theorem lowBytes_length (v : Word) (n : Nat) : (lowBytes v n).length = n := by
  induction n with
  | zero => rfl
  | succ n ih => simp [lowBytes, ih]

/-- `MMUWrite` is the byte writes of its low bytes, one after the other (20_memory.md R49, R62). -/
theorem mmuWrite_bytewise (a : Word) (w : Width) (v : Word) (s : State) :
    mmuWrite a w v s = writeBytes (lowBytes v w.bytes) a { s with mar := a, mdr := v } := by
  rw [writeBytes_eq, lowBytes_length, spanInRange_of_params (s := s) (t := { s with mar := a, mdr := v }) rfl]
  rfl

/-- The closed form of `MMUWrite` (20_memory.md R49, R62). -/
theorem mmuWrite_eq (a : Word) (w : Width) (v : Word) (s : State) :
    mmuWrite a w v s = { s with
      mar := a, mdr := v
      mem := writtenMem s.params.memSize (lowBytes v w.bytes) a s.mem
      halted := s.halted || !s.spanInRange a w.bytes } := rfl

/-! ## Memory after a store -/

theorem writtenMem_wf {size : Nat} {m : Memory} (hm : Memory.wf m = true) (bs : List Byte) (a : Word) :
    Memory.wf (writtenMem size bs a m) = true := by
  induction bs generalizing a m with
  | nil => exact hm
  | cons b bs ih =>
    refine ih ?_ (a + 1)
    split
    · exact Memory.wf_write hm _ _
    · exact hm

theorem writtenMem_within {size : Nat} {m : Memory} (hm : Memory.within size m = true) (bs : List Byte) (a : Word) :
    Memory.within size (writtenMem size bs a m) = true := by
  induction bs generalizing a m with
  | nil => exact hm
  | cons b bs ih =>
    refine ih ?_ (a + 1)
    split
    · rename_i h
      exact Memory.within_write hm h _
    · exact hm

/-- An address that no stored byte has reads as before. -/
theorem writtenMem_read_outside {size : Nat} (bs : List Byte) (a : Word) (m : Memory) (k : Nat)
    (h : ∀ i, i < bs.length → (a + BitVec.ofNat 64 i).toNat ≠ k) :
    Memory.read (writtenMem size bs a m) k = Memory.read m k := by
  induction bs generalizing a m with
  | nil => rfl
  | cons b bs ih =>
    rw [writtenMem, ih]
    · split
      · exact Memory.read_write_other (fun e => h 0 (by simp) (by simpa using e.symm)) _ _
      · rfl
    · intro i hi
      exact next_address a i ▸ h (i + 1) (by simpa using hi)

/-- A byte in range reads, after byte writes over it, as the byte written there. -/
theorem writtenMem_read_inside {size : Nat} (bs : List Byte) (a : Word) {m : Memory} (hm : Memory.wf m = true)
    (hl : bs.length ≤ 2 ^ 64) (i : Nat) (hi : i < bs.length) (hr : (a + BitVec.ofNat 64 i).toNat < size) :
    Memory.read (writtenMem size bs a m) (a + BitVec.ofNat 64 i).toNat = bs[i] := by
  induction bs generalizing a m i with
  | nil => exact absurd hi (by simp)
  | cons b bs ih =>
    simp only [List.length_cons] at hl hi
    rw [writtenMem]
    cases i with
    | zero =>
      simp only [BitVec.ofNat_eq_ofNat, BitVec.add_zero] at hr ⊢
      rw [writtenMem_read_outside, if_pos hr]
      · simpa using Memory.read_write_same hm _ _
      · intro j hj e
        have hne : a + 1 + BitVec.ofNat 64 j ≠ a := by
          intro e'
          have h2 := congrArg BitVec.toNat e'
          have ha := a.isLt
          have h1 : (1 : Word).toNat = 1 := rfl
          simp only [BitVec.toNat_add, BitVec.toNat_ofNat, h1] at h2
          omega
        exact hne (BitVec.eq_of_toNat_eq e)
    | succ i =>
      rw [next_address] at hr ⊢
      rw [ih (a + 1) _ (by omega) i (by omega) hr]
      · rfl
      · split
        · exact Memory.wf_write hm _ _
        · exact hm

/-! ## Images (20_memory.md R43) -/

/-- An image has four bytes a word. -/
@[simp] theorem imageBytes_length (image : List IWord) : (imageBytes image).length = 4 * image.length := by
  induction image with
  | nil => rfl
  | cons w ws ih =>
    rw [show imageBytes (w :: ws) = bytesOfWord w ++ imageBytes ws from rfl, List.length_append, ih, List.length_cons]
    exact (by omega : 4 + 4 * ws.length = 4 * (ws.length + 1))

/-- Byte `i` of word `k` of an image, the most significant first. -/
theorem imageBytes_getElem (image : List IWord) (k i : Nat) (hk : k < image.length) (hi : i < 4)
    (h : 4 * k + i < (imageBytes image).length) :
    (imageBytes image)[4 * k + i] = image[k].extractLsb' (8 * (3 - i)) 8 := by
  induction image generalizing k with
  | nil => exact absurd hk (by simp)
  | cons w ws ih =>
    have e : imageBytes (w :: ws) = bytesOfWord w ++ imageBytes ws := rfl
    have hl : (bytesOfWord w).length = 4 := rfl
    cases k with
    | zero =>
      simp only [e, Nat.mul_zero, Nat.zero_add]
      rw [List.getElem_append_left (by omega)]
      match i, hi with
      | 0, _ => rfl
      | 1, _ => rfl
      | 2, _ => rfl
      | 3, _ => rfl
    | succ k =>
      have hk' : k < ws.length := by simpa using hk
      simp only [e]
      rw [List.getElem_append_right (by omega)]
      simp only [hl, show 4 * (k + 1) + i - 4 = 4 * k + i by omega]
      exact ih k hk' (by simp; omega)

end Sys2Proof.Machine
end

