-- ==== Sys2Proof/Laws/Alu.lean ====
section
/-! SUPPORT. What the ALU's operations and the address arithmetic compute, said as plain bit-vector arithmetic. -/

namespace Sys2Proof.Machine

@[simp] theorem aluAdd_fst (a b : Word) : (aluAdd a b).1 = a + b := rfl

@[simp] theorem aluNegate_eq (a : Word) : aluNegate a = -a := (BitVec.neg_eq_not_add a).symm

@[simp] theorem aluSub_fst (a b : Word) : (aluSub a b).1 = a - b := by
  simp [aluSub, BitVec.sub_eq_add_neg]

@[simp] theorem aluSub_snd (a b : Word) : (aluSub a b).2 = (aluAdd a (-b)).2 := by simp [aluSub]

/-- The move-wide shift amount never leaves the word (41_move_wide.md R117). -/
@[simp] theorem moveShift_eq (hw : BitVec 2) : moveShift hw = 16 * hw.toNat := by
  have h := hw.isLt
  have h16 : (16 : Word).toNat = 16 := rfl
  simp only [h16, moveShift, aluMultiply, BitVec.toNat_ofNat, BitVec.toNat_setWidth]
  omega

@[simp] theorem effectiveAddress_eq (base imm : Word) : effectiveAddress base imm = base + imm := rfl

@[simp] theorem branchTarget_eq (ipc imm : Word) : branchTarget ipc imm = ipc + imm <<< 2 := rfl

@[simp] theorem isZero_eq (a : Word) : isZero a = (a == 0) := by simp [isZero, aluAdd, addFlags]

/-- The sign of a word is its bit 63. -/
theorem getLsbD_63_iff (a : Word) : a.getLsbD 63 = true ↔ 2 ^ 63 ≤ a.toNat := by
  rw [← BitVec.msb_eq_getLsbD_last (w := 64), BitVec.msb_eq_decide]
  simp

theorem toInt_eq_toNat (a : Word) : a.toInt = if a.toNat < 2 ^ 63 then (a.toNat : Int) else a.toNat - 2 ^ 64 := by
  rw [BitVec.toInt_eq_toNat_cond]
  split <;> split <;> omega

end Sys2Proof.Machine
end

