-- ==== Sys2Proof/Laws/Encoding.lean ====
section
/-! SUPPORT. The decoder and encoder as arithmetic on the word's number: the class of a word is a function of its top
11 bits (spec/30_encoding.md R71, R87), and a concatenation of fields is a sum. -/

namespace Sys2Proof

/-- A concatenation as a number. -/
theorem toNat_append_fields {n m : Nat} (x : BitVec n) (y : BitVec m) :
    (x ++ y).toNat = x.toNat * 2 ^ m + y.toNat := by
  rw [BitVec.toNat_append, ← Nat.shiftLeft_add_eq_or_of_lt y.isLt, Nat.shiftLeft_eq]

/-- A bit field as a number. -/
theorem toNat_bits (w : IWord) (lo len : Nat) : (bits w lo len).toNat = w.toNat / 2 ^ lo % 2 ^ len := by
  simp [bits, Nat.shiftRight_eq_div_pow]

/-- A register read back from its own field. -/
theorem ofField_field (r : Reg) : Reg.ofField r.field = r := by
  cases r with
  | xzr => rfl
  | x n =>
    have h : (BitVec.ofNat 5 n.val).toNat = n.val := by
      rw [BitVec.toNat_ofNat]; omega
    unfold Reg.ofField Reg.field
    rw [dif_pos (h ▸ n.isLt)]
    simp [h]

/-- The class selected by a top-11-bits value, row by row. -/
def classOfTop (opc : Nat) : Option OpClass :=
  (opcodeRows.find? fun r => opc / 2 ^ (11 - r.width) == r.opcode.toNat).map (·.cls)

theorem selects_eq_top {r : OpRow} (hr : r.width ≤ 11) (w : IWord) :
    r.selects w = (w.toNat / 2 ^ 21 / 2 ^ (11 - r.width) == r.opcode.toNat) := by
  have h : 32 - r.width = 21 + (11 - r.width) := by omega
  have e : (w >>> (32 - r.width)).toNat = w.toNat / 2 ^ 21 / 2 ^ (11 - r.width) := by
    rw [BitVec.toNat_ushiftRight, Nat.shiftRight_eq_div_pow, h, Nat.pow_add, Nat.div_div_eq_div_mul]
  rw [OpRow.selects, Bool.eq_iff_iff, beq_iff_eq, beq_iff_eq, BitVec.toNat_eq, e]

theorem find_congr_of_mem {α : Type} {p q : α → Bool} {l : List α} (h : ∀ a ∈ l, p a = q a) :
    l.find? p = l.find? q := by
  induction l with
  | nil => rfl
  | cons a l ih =>
    simp only [List.find?_cons, h a (by simp), ih fun b hb => h b (by simp [hb])]

/-- Decoding's class is a function of the top 11 bits (R87). -/
theorem classOf_eq_top (w : IWord) : classOf w = classOfTop (w.toNat / 2 ^ 21) := by
  have hw : ∀ r ∈ opcodeRows, r.width ≤ 11 := by decide
  rw [classOf, classOfTop, find_congr_of_mem fun r hr => selects_eq_top (hw r hr) w]

/-- A word made of an 11-bit opcode and 21 more bits. -/
theorem classOf_append11 (op : BitVec 11) (rest : BitVec 21) : classOf (op ++ rest) = classOfTop op.toNat := by
  have := rest.isLt
  rw [classOf_eq_top, toNat_append_fields]
  congr 1
  omega

/-- A word made of a 10-bit opcode and 22 more bits. -/
theorem classOf_append10 {c : OpClass} (op : BitVec 10) (rest : BitVec 22)
    (h : ∀ k < 2, classOfTop (op.toNat * 2 + k) = some c) : classOf (op ++ rest) = some c := by
  have hlt := rest.isLt
  rw [classOf_eq_top, toNat_append_fields, ← h (rest.toNat / 2 ^ 21) (by omega)]
  congr 1
  omega

/-- A word made of a 9-bit opcode and 23 more bits. -/
theorem classOf_append9 {c : OpClass} (op : BitVec 9) (rest : BitVec 23)
    (h : ∀ k < 4, classOfTop (op.toNat * 4 + k) = some c) : classOf (op ++ rest) = some c := by
  have hlt := rest.isLt
  rw [classOf_eq_top, toNat_append_fields, ← h (rest.toNat / 2 ^ 21) (by omega)]
  congr 1
  omega

/-- A word made of an 8-bit opcode and 24 more bits. -/
theorem classOf_append8 {c : OpClass} (op : BitVec 8) (rest : BitVec 24)
    (h : ∀ k < 8, classOfTop (op.toNat * 8 + k) = some c) : classOf (op ++ rest) = some c := by
  have hlt := rest.isLt
  rw [classOf_eq_top, toNat_append_fields, ← h (rest.toNat / 2 ^ 21) (by omega)]
  congr 1
  omega

/-- A word made of a 6-bit opcode and 26 more bits. -/
theorem classOf_append6 {c : OpClass} (op : BitVec 6) (rest : BitVec 26)
    (h : ∀ k < 32, classOfTop (op.toNat * 32 + k) = some c) : classOf (op ++ rest) = some c := by
  have hlt := rest.isLt
  rw [classOf_eq_top, toNat_append_fields, ← h (rest.toNat / 2 ^ 21) (by omega)]
  congr 1
  omega

end Sys2Proof
end

