-- ==== Sys2Proof/Laws/Exec.lean ====
section
/-! SUPPORT. What the shared shapes of the instructions do, said once: the memory-access unit, the four ways of
retiring, and what no instruction's meaning ever touches. -/

namespace Sys2Proof.Machine

/-! ## The memory-access unit -/

/-- `loadVia` in closed form (20_memory.md R48, R50). -/
theorem loadVia_eq (view : Word → Word) (ea : Word) (s : State) :
    loadVia view ea s =
      ({ s with mar := ea, mdr := s.wordAt ea, halted := s.halted || !s.spanInRange ea 8 }, view (s.wordAt ea)) := by
  simp [loadVia, mmuRead_eq]

/-- `storeVia` in closed form (20_memory.md R49). -/
theorem storeVia_eq (w : Width) (ea wdata : Word) (s : State) :
    storeVia w ea wdata s =
      ({ s with
          mar := ea, mdr := wdata
          mem := writtenMem s.params.memSize (lowBytes wdata w.bytes) ea s.mem
          halted := s.halted || !s.spanInRange ea w.bytes }, 0) := by
  simp [storeVia, mmuWrite_eq]

/-- All that the memory-access unit can do: a read, a write, or nothing. -/
theorem memoryUnit_cases (i : Instr) (res wdata : Word) (s : State) :
    (∃ view, memoryUnit i res wdata s = loadVia view res s)
      ∨ (∃ w, memoryUnit i res wdata s = storeVia w res wdata s)
      ∨ memoryUnit i res wdata s = (s, res) := by
  cases i with
  | ldur => exact .inl ⟨viewDouble, rfl⟩
  | ldurb => exact .inl ⟨viewByte, rfl⟩
  | ldurh => exact .inl ⟨viewHalf, rfl⟩
  | ldursw => exact .inl ⟨viewSignedWord, rfl⟩
  | stur => exact .inr (.inl ⟨.double, rfl⟩)
  | sturb => exact .inr (.inl ⟨.byte, rfl⟩)
  | sturh => exact .inr (.inl ⟨.half, rfl⟩)
  | sturw => exact .inr (.inl ⟨.word, rfl⟩)
  | movz | movk | add | adds | sub | subs | addi | addis | subi | subis | hlt | b | cbz | cbnz =>
    exact .inr (.inr rfl)

/-- The canonical form and the bound depend on Memory and its size alone. -/
theorem memoryOk_congr {s t : State} (hm : t.mem = s.mem) (hp : t.params = s.params) (h : s.MemoryOk) :
    t.MemoryOk := by
  unfold State.MemoryOk
  rw [hm, hp]
  exact h

/-- Every memory operation keeps the canonical form and the bound. -/
theorem writtenMem_memoryOk {s : State} (h : s.MemoryOk) (bs : List Byte) (a : Word) :
    Memory.wf (writtenMem s.params.memSize bs a s.mem) = true
      ∧ Memory.within s.params.memSize (writtenMem s.params.memSize bs a s.mem) = true :=
  ⟨writtenMem_wf h.1 bs a, writtenMem_within h.2 bs a⟩

/-- The memory-access unit keeps Memory canonical and within bounds. -/
theorem memoryUnit_memoryOk {s : State} (h : s.MemoryOk) (i : Instr) (res wdata : Word) :
    (memoryUnit i res wdata s).1.MemoryOk := by
  obtain ⟨view, e⟩ | ⟨w, e⟩ | e := memoryUnit_cases i res wdata s <;> rw [e]
  · rw [loadVia_eq]; exact h
  · rw [storeVia_eq]; exact writtenMem_memoryOk h _ _
  · exact h

/-! ## The execute unit -/

/-- HLT alone publishes nothing (44_system.md R150). -/
theorem executeUnit_none_iff (i : Instr) (ipc a b imm : Word) : executeUnit i ipc a b imm = none ↔ i = .hlt := by
  cases i <;> simp [executeUnit]

/-! ## Retiring -/

/-- All that an instruction's meaning can do: its destination is 31 and it is the fatal error; a register result; a
load that commits or does not; a store; a branch; HLT. -/
theorem exec_cases (i : Instr) (s : State) :
    (exec i s = .next (raiseFatal .zeroRegisterWrite s) ∧ dst i = some .xzr)
      ∨ (∃ n res flags, exec i s = .next (writeReg n res (setFlags flags s)) ∧ dst i = some (.x n))
      ∨ (∃ n view ea, exec i s = .next (if s.spanInRange ea 8
            then writeReg n (loadVia view ea (setFlags clearFlags s)).2 (loadVia view ea (setFlags clearFlags s)).1
            else (loadVia view ea (setFlags clearFlags s)).1) ∧ dst i = some (.x n))
      ∨ (∃ w ea wdata, exec i s = .next (storeVia w ea wdata (setFlags clearFlags s)).1 ∧ dst i = none)
      ∨ (∃ pc, exec i s = .next { setFlags clearFlags s with pc := pc } ∧ dst i = none
          ∧ (pc = s.pc ∨ ∃ off : Word, pc = s.pc + off <<< 2))
      ∨ (exec i s = .next (requestHalt s) ∧ i = .hlt) := by
  have value : ∀ (rd : Reg) (o : ExOut),
      (retireValue rd o s = .next (raiseFatal .zeroRegisterWrite s) ∧ some rd = some Reg.xzr)
        ∨ (∃ n res flags, retireValue rd o s = .next (writeReg n res (setFlags flags s)) ∧ some rd = some (Reg.x n)) := by
    intro rd o
    cases rd with
    | xzr => exact .inl ⟨rfl, rfl⟩
    | x n => exact .inr ⟨n, _, _, rfl, rfl⟩
  have load : ∀ (rt : Reg) (ea wdata : Word) (view : Word → Word),
      (retireLoad rt (ExOut.access ea wdata) (loadVia view) s = .next (raiseFatal .zeroRegisterWrite s)
          ∧ some rt = some Reg.xzr)
        ∨ (∃ n v ea', retireLoad rt (ExOut.access ea wdata) (loadVia view) s = .next (if s.spanInRange ea' 8
            then writeReg n (loadVia v ea' (setFlags clearFlags s)).2 (loadVia v ea' (setFlags clearFlags s)).1
            else (loadVia v ea' (setFlags clearFlags s)).1) ∧ some rt = some (Reg.x n)) := by
    intro rt ea wdata view
    cases rt with
    | xzr => exact .inl ⟨rfl, rfl⟩
    | x n => exact .inr ⟨n, view, ea, rfl, rfl⟩
  have branch : ∀ (taken : Option Word) (off : Word), (∀ t, taken = some t → t = s.pc + off <<< 2) →
      ∃ pc, retireBranch (ExOut.branch taken) s = .next { setFlags clearFlags s with pc := pc }
        ∧ (pc = s.pc ∨ ∃ off : Word, pc = s.pc + off <<< 2) := by
    intro taken off h
    cases taken with
    | none => exact ⟨s.pc, rfl, .inl rfl⟩
    | some t => exact ⟨t, rfl, .inr ⟨off, h t rfl⟩⟩
  cases i with
  | hlt => exact .inr (.inr (.inr (.inr (.inr ⟨rfl, rfl⟩))))
  | stur | sturb | sturh | sturw => exact .inr (.inr (.inr (.inl ⟨_, _, _, rfl, rfl⟩)))
  | b off26 =>
    obtain ⟨pc, e, hp⟩ := branch (exB s.pc (branchOffset off26)).taken (branchOffset off26) fun t h => by cases h; rfl
    exact .inr (.inr (.inr (.inr (.inl ⟨pc, e, rfl, hp⟩))))
  | cbz rt off19 =>
    obtain ⟨pc, e, hp⟩ := branch (exCbz s.pc (s.x rt) (condOffset off19)).taken (condOffset off19) fun t h => by
      simp only [exCbz, ExOut.branch] at h
      split at h <;> cases h
      rfl
    exact .inr (.inr (.inr (.inr (.inl ⟨pc, e, rfl, hp⟩))))
  | cbnz rt off19 =>
    obtain ⟨pc, e, hp⟩ := branch (exCbnz s.pc (s.x rt) (condOffset off19)).taken (condOffset off19) fun t h => by
      simp only [exCbnz, ExOut.branch] at h
      split at h <;> cases h
      rfl
    exact .inr (.inr (.inr (.inr (.inl ⟨pc, e, rfl, hp⟩))))
  | ldur rt rn off9 => exact (load rt _ 0 viewDouble).imp id fun h => .inr (.inl h)
  | ldurb rt rn off9 => exact (load rt _ 0 viewByte).imp id fun h => .inr (.inl h)
  | ldurh rt rn off9 => exact (load rt _ 0 viewHalf).imp id fun h => .inr (.inl h)
  | ldursw rt rn off9 => exact (load rt _ 0 viewSignedWord).imp id fun h => .inr (.inl h)
  | movz | movk | add | adds | sub | subs | addi | addis | subi | subis =>
    exact (value _ _).imp id fun h => .inl h

/-- Every instruction's meaning answers a next state, which differs from the state before only in registers, PC,
flags, Memory, MAR, MDR, `halted` and `fatal`: the pipeline's bookkeeping is not touched (log 33). -/
theorem exec_next (i : Instr) (s : State) :
    ∃ regs pc flags mem mar mdr halted fatal, exec i s = .next { s with
      regs := regs, pc := pc, flags := flags, mem := mem, mar := mar, mdr := mdr, halted := halted, fatal := fatal } := by
  obtain ⟨e, -⟩ | ⟨n, res, flags, e, -⟩ | ⟨n, view, ea, e, -⟩ | ⟨w, ea, wdata, e, -⟩ | ⟨pc, e, -, -⟩ | ⟨e, -⟩ :=
    exec_cases i s
  · exact ⟨_, _, _, _, _, _, _, _, e⟩
  · exact ⟨_, _, _, _, _, _, _, _, e⟩
  · rw [e, loadVia_eq]
    split <;> exact ⟨_, _, _, _, _, _, _, _, rfl⟩
  · rw [e, storeVia_eq]
    exact ⟨_, _, _, _, _, _, _, _, rfl⟩
  · exact ⟨_, _, _, _, _, _, _, _, e⟩
  · exact ⟨_, _, _, _, _, _, _, _, e⟩

/-- The fields that no instruction's meaning touches. -/
theorem exec_control {i : Instr} {s t : State} (h : exec i s = .next t) :
    t.lq = s.lq ∧ t.ifid = s.ifid ∧ t.idex = s.idex ∧ t.exmem = s.exmem ∧ t.memwb = s.memwb
      ∧ t.busyIF = s.busyIF ∧ t.busyID = s.busyID ∧ t.busyEX = s.busyEX ∧ t.busyMEM = s.busyMEM
      ∧ t.busyWB = s.busyWB ∧ t.taskIF = s.taskIF ∧ t.taskID = s.taskID ∧ t.taskEX = s.taskEX
      ∧ t.taskMEM = s.taskMEM ∧ t.taskWB = s.taskWB ∧ t.exFlushing = s.exFlushing ∧ t.params = s.params
      ∧ t.phase = s.phase ∧ t.schedule = s.schedule := by
  obtain ⟨_, _, _, _, _, _, _, _, e⟩ := exec_next i s
  rw [e] at h
  rw [← Host.Outcome.next.inj h]
  exact ⟨rfl, rfl, rfl, rfl, rfl, rfl, rfl, rfl, rfl, rfl, rfl, rfl, rfl, rfl, rfl, rfl, rfl, rfl, rfl⟩

/-- Where an instruction's meaning leaves the PC: where it was, or an offset in words away (45_branch.md R156). -/
theorem exec_pc {i : Instr} {s t : State} (h : exec i s = .next t) :
    t.pc = s.pc ∨ ∃ off : Word, t.pc = s.pc + off <<< 2 := by
  obtain ⟨e, -⟩ | ⟨n, res, flags, e, -⟩ | ⟨n, view, ea, e, -⟩ | ⟨w, ea, wdata, e, -⟩ | ⟨pc, e, -, hp⟩ | ⟨e, -⟩ :=
    exec_cases i s
  all_goals rw [e] at h; rw [← Host.Outcome.next.inj h]
  · exact .inl rfl
  · exact .inl rfl
  · rw [loadVia_eq]; split <;> exact .inl rfl
  · exact .inl rfl
  · exact hp
  · exact .inl rfl

/-- An instruction's meaning keeps Memory canonical and within bounds. -/
theorem exec_memoryOk {i : Instr} {s t : State} (h : s.MemoryOk) (e : exec i s = .next t) : t.MemoryOk := by
  obtain ⟨e', -⟩ | ⟨n, res, flags, e', -⟩ | ⟨n, view, ea, e', -⟩ | ⟨w, ea, wdata, e', -⟩ | ⟨pc, e', -, -⟩ | ⟨e', -⟩ :=
    exec_cases i s
  all_goals rw [e'] at e; cases e
  · exact h
  · exact h
  · rw [loadVia_eq]; split <;> exact h
  · rw [storeVia_eq]; exact writtenMem_memoryOk (s := setFlags clearFlags s) h _ _
  · exact h
  · exact h

end Sys2Proof.Machine
end

