-- ==== Sys2Proof/Laws/Controller.lean ====
section
/-! SUPPORT. What a step can do, said once: when an event answers a next state, and the induction over the machine's
events that every invariant goes through. -/

namespace Sys2Proof.Machine

/-! ## Tasks -/

@[simp] theorem isActive_none {α : Type} : (Task.none : Task α).isActive = false := rfl
@[simp] theorem isActive_running {α : Type} (a : α) : (Task.running a).isActive = true := rfl
@[simp] theorem isActive_done {α : Type} : (Task.done : Task α).isActive = true := rfl
@[simp] theorem inputs_none {α : Type} : (Task.none : Task α).inputs = [] := rfl
@[simp] theorem inputs_running {α : Type} (a : α) : (Task.running a).inputs = [a] := rfl
@[simp] theorem inputs_done {α : Type} : (Task.done : Task α).inputs = [] := rfl
@[simp] theorem isDone_none {α : Type} : (Task.none : Task α).isDone = false := rfl
@[simp] theorem isDone_running {α : Type} (a : α) : (Task.running a).isDone = false := rfl
@[simp] theorem isDone_done {α : Type} : (Task.done : Task α).isDone = true := rfl

/-! ## When an event answers a next state -/

theorem andThen_next {o : Host.Outcome State Fault Refusal} {f : State → Host.Outcome State Fault Refusal} {t : State} :
    andThen o f = .next t ↔ ∃ u, o = .next u ∧ f u = .next t := by
  cases o <;> simp [andThen]

theorem whenClocked_next {s t : State} {o : Host.Outcome State Fault Refusal} :
    whenClocked s o = .next t ↔ s.fatal = none ∧ s.halted = false ∧ o = .next t := by
  unfold whenClocked
  split
  · rename_i h; simp [h]
  · rename_i h
    cases hh : s.halted <;> simp [h]

theorem whenAllowed_next {ok : Bool} {t : State} {o : Host.Outcome State Fault Refusal} :
    whenAllowed ok o = .next t ↔ ok = true ∧ o = .next t := by
  cases ok <;> simp [whenAllowed]

theorem stageEvent_next {st : Stage} {s t : State} :
    stageEvent st s = .next t ↔ s.fatal = none ∧ stageEnabled st s = true ∧ stageStep st s = .next t := by
  unfold stageEvent
  split
  · rename_i h; simp [h]
  · rename_i h
    cases hh : stageEnabled st s <;> simp [h]

theorem settleStage_next {st : Stage} {s t : State} (h : settleStage st s = .next t) :
    (s.fatal = none ∧ stageEnabled st s = true ∧ stageStep st s = .next t) ∨ t = s := by
  unfold settleStage at h
  split at h
  · rename_i h'
    simp only [Bool.and_eq_true, Option.isNone_iff_eq_none] at h'
    exact .inl ⟨h'.1, h'.2, h⟩
  · cases h; exact .inr rfl

/-! ## The stages' own steps, from the task they run -/

theorem stageEnabled_fetch {s : State} : stageEnabled .fetch s = true ↔ s.taskIF = .running () := by
  unfold stageEnabled
  cases s.taskIF <;> simp

theorem stageEnabled_decode {s : State} :
    stageEnabled .decode s = true ↔ ∃ d, s.taskID = .running d ∧ decodeEnabled d s = true := by
  unfold stageEnabled
  cases s.taskID <;> simp

theorem stageEnabled_execute {s : State} :
    stageEnabled .execute s = true ↔ ∃ d, s.taskEX = .running d ∧ executeEnabled d s = true := by
  unfold stageEnabled
  cases s.taskEX <;> simp

theorem stageEnabled_memory {s : State} :
    stageEnabled .memory s = true ↔ ∃ e, s.taskMEM = .running e ∧ s.memwb = none := by
  unfold stageEnabled
  cases s.taskMEM <;> simp

theorem stageEnabled_writeback {s : State} : stageEnabled .writeback s = true ↔ ∃ m, s.taskWB = .running m := by
  unfold stageEnabled
  cases s.taskWB <;> simp

/-- The fetch step in closed form (46_pipeline_stages.md R173). -/
theorem fetchStep_eq (s : State) : fetchStep s = { s with
    mar := s.pc, mdr := s.wordAt s.pc, halted := s.halted || !s.spanInRange s.pc 8, pc := s.pc + 4
    ifid := some ⟨s.fetchedWord, s.pc + 4⟩, taskIF := .done } := by
  simp only [fetchStep, fetchAccess, mmuRead_eq]
  rfl

/-- The fetch unit's access in closed form (46_pipeline_stages.md R172). -/
theorem fetchAccess_eq (s : State) : fetchAccess s = { s with
    mar := s.pc, mdr := s.wordAt s.pc, halted := s.halted || !s.spanInRange s.pc 8, pc := s.pc + 4 } := by
  simp only [fetchAccess, mmuRead_eq]

/-- Flush in closed form (47_pipeline_control.md R207). -/
theorem flush_eq (newPc : Word) (s : State) : flush newPc s = { s with
    lq := if s.idexReserved then s.lq.dropLast else s.lq
    taskIF := .none, busyIF := false, taskID := .none, busyID := false, ifid := none, idex := none
    pc := newPc, exFlushing := false } := by
  unfold flush lqRemoveNewest
  cases s.idexReserved <;> rfl

/-- All that the decode step can do. -/
theorem decodeStep_cases (d : IFID) (s : State) :
    (∃ c, decodeStep d s = raiseFatal c s)
      ∨ (∃ i, decode d.instr = .ok i ∧ writesXzr i = false
          ∧ decodeStep d s = { reserve i s with idex := some (idexRecord d i s), taskID := .done }) := by
  unfold decodeStep
  cases h : decode d.instr with
  | error e => exact .inl ⟨_, rfl⟩
  | ok i =>
    cases hx : writesXzr i with
    | true => exact .inl ⟨_, by simp [hx]; rfl⟩
    | false => exact .inr ⟨i, rfl, hx, by simp [hx]⟩

/-- All that the execute step can do: the consistency check, HLT, a taken branch, every other instruction. -/
theorem executeStep_cases (d : IDEX) (s : State) :
    (executeStep d s = raiseFatal .unknownOpcode s ∧ ∃ e, decode d.instr = .error e)
      ∨ (executeStep d s = { requestHalt s with taskEX := .done } ∧ decode d.instr = .ok .hlt)
      ∨ (∃ i o, decode d.instr = .ok i ∧ executeUnit i d.ipc d.a d.b d.imm = some o
          ∧ executeStep d s = { resolveBranch o.taken (setFlags o.flags s) with
              exmem := some ⟨d.instr, o.res, o.wdata⟩, taskEX := .done }) := by
  unfold executeStep
  cases h : decode d.instr with
  | error e => exact .inl ⟨rfl, e, rfl⟩
  | ok i =>
    cases hx : executeUnit i d.ipc d.a d.b d.imm with
    | none =>
      have := (executeUnit_none_iff ..).1 hx
      exact .inr (.inl ⟨by simp only [hx]; rfl, by rw [this]⟩)
    | some o => exact .inr (.inr ⟨i, o, rfl, hx, by simp only [hx]⟩)

/-- HLT's execute step waits for memory access and writeback to be idle (44_system.md R151). -/
theorem executeEnabled_hlt {d : IDEX} (s : State) (h : decode d.instr = .ok .hlt) :
    executeEnabled d s = (!s.busyMEM && !s.busyWB) := by
  unfold executeEnabled
  rw [h]

/-- Every other instruction's execute step waits for EXMEM to be empty (46_pipeline_stages.md R186). -/
theorem executeEnabled_other {d : IDEX} {i : Instr} (s : State) (h : decode d.instr = .ok i) (hi : i ≠ .hlt) :
    executeEnabled d s = s.exmem.isNone := by
  unfold executeEnabled
  rw [h]
  cases i with
  | hlt => exact absurd rfl hi
  | _ => rfl

/-- Only a branch is ever taken (45_branch.md R155). -/
theorem executeUnit_taken {i : Instr} {ipc a b imm : Word} {o : ExOut} {target : Word}
    (h : executeUnit i ipc a b imm = some o) (ht : o.taken = some target) :
    dst i = none ∧ target = ipc + imm <<< 2 ∧ o = ExOut.branch (some target) := by
  cases i with
  | b =>
    simp only [executeUnit, exB, Option.some.injEq] at h
    subst h
    cases ht
    exact ⟨rfl, rfl, rfl⟩
  | cbz =>
    simp only [executeUnit, exCbz, Option.some.injEq] at h
    subst h
    simp only [ExOut.branch] at ht
    split at ht
    · rename_i hz; cases ht; exact ⟨rfl, rfl, congrArg _ (if_pos hz)⟩
    · cases ht
  | cbnz =>
    simp only [executeUnit, exCbnz, Option.some.injEq] at h
    subst h
    simp only [ExOut.branch] at ht
    split at ht
    · cases ht
    · rename_i hz; cases ht; exact ⟨rfl, rfl, congrArg _ (if_neg hz)⟩
  | hlt => cases h
  | movz | movk | add | adds | sub | subs | addi | addis | subi | subis | ldur | ldurb | ldurh | ldursw | stur | sturb
    | sturh | sturw =>
    simp only [executeUnit, Option.some.injEq] at h
    subst h
    cases ht

/-- What the memory-access step leaves beside what its unit does. -/
theorem memoryStep_eq (e : EXMEM) (s : State) : ∃ r : State × Word,
    memoryStep e s = { r.1 with memwb := some ⟨e.instr, r.2⟩, taskMEM := .done }
      ∧ ((∃ i, decode e.instr = .ok i ∧ r = memoryUnit i e.res e.wdata s)
          ∨ ((∃ x, decode e.instr = .error x) ∧ r = (s, e.res))) := by
  unfold memoryStep
  cases h : decode e.instr with
  | error x => exact ⟨(s, e.res), rfl, .inr ⟨⟨x, rfl⟩, rfl⟩⟩
  | ok i => exact ⟨memoryUnit i e.res e.wdata s, rfl, .inl ⟨i, rfl, rfl⟩⟩

/-- Writeback of a class that writes a register, when a reservation is there (46_pipeline_stages.md R190). -/
theorem writebackStep_dequeue {m : MEMWB} {s : State} {n : Fin 31} {rest : List (Fin 31)}
    (hd : dequeues m.instr = true) (hl : s.lq = n :: rest) :
    writebackStep m s = .next { writeReg n m.val s with lq := rest, taskWB := .done } := by
  unfold writebackStep
  rw [if_pos hd]
  split
  · rename_i n' rest' h
    obtain ⟨rfl, rfl⟩ := List.cons.inj (hl.symm.trans h)
    rfl
  · rename_i h
    rw [h] at hl
    cases hl

/-- Writeback of a class that only signals (46_pipeline_stages.md R190). -/
theorem writebackStep_signal {m : MEMWB} (s : State) (hd : dequeues m.instr = false) :
    writebackStep m s = .next { s with taskWB := .done } := by
  unfold writebackStep
  rw [hd]
  rfl

/-- When writeback answers a next state: it dequeues the head and writes it, or it only signals. -/
theorem writebackStep_next {m : MEMWB} {s t : State} (h : writebackStep m s = .next t) :
    (dequeues m.instr = true ∧ ∃ n rest, s.lq = n :: rest
        ∧ t = { writeReg n m.val s with lq := rest, taskWB := .done })
      ∨ (dequeues m.instr = false ∧ t = { s with taskWB := .done }) := by
  unfold writebackStep at h
  split at h
  · rename_i hd
    split at h
    · rename_i n rest hl
      cases h
      exact .inl ⟨hd, n, rest, hl, rfl⟩
    · cases h
  · rename_i hd
    cases h
    exact .inr ⟨by simpa using hd, rfl⟩

/-! ## The instruction event -/

theorem upperWord_append (b0 b1 b2 b3 b4 b5 b6 b7 : Byte) :
    upperWord (b0 ++ b1 ++ b2 ++ b3 ++ b4 ++ b5 ++ b6 ++ b7) = wordOfBytes b0 b1 b2 b3 := by
  have h1 := b4.isLt
  have h2 := b5.isLt
  have h3 := b6.isLt
  have h4 := b7.isLt
  have h := (wordOfBytes b0 b1 b2 b3).isLt
  apply BitVec.eq_of_toNat_eq
  simp only [upperWord, wordOfBytes, BitVec.extractLsb'_toNat, toNat_append_fields,
    Nat.shiftRight_eq_div_pow] at h ⊢
  omega

/-- The word a fetch keeps is the four bytes at the PC, most significant first (20_memory.md R51, R52). -/
theorem fetchedWord_eq (s : State) : s.fetchedWord =
    wordOfBytes (s.byteAt s.pc) (s.byteAt (s.pc + 1)) (s.byteAt (s.pc + 2)) (s.byteAt (s.pc + 3)) :=
  upperWord_append ..

/-- What it means that nothing is in flight. -/
theorem quiescent_iff {s : State} : s.quiescent = true ↔
    s.ifid = none ∧ s.idex = none ∧ s.exmem = none ∧ s.memwb = none ∧ s.taskIF ≠ .done ∧ s.taskID = .none
      ∧ s.taskEX = .none ∧ s.taskMEM = .none ∧ s.taskWB = .none ∧ s.busyID = false ∧ s.busyEX = false
      ∧ s.busyMEM = false ∧ s.busyWB = false ∧ s.lq = [] ∧ s.exFlushing = false := by
  simp [State.quiescent, and_assoc]

theorem execWord_next {meaning : Instr → State → Host.Outcome State Fault Refusal} {w : IWord} {s t : State}
    (h : execWord meaning w s = .next t) :
    (∃ i, decode w = .ok i ∧ meaning i s = .next t) ∨ t = raiseFatal .unknownOpcode s := by
  unfold execWord at h
  split at h
  · rename_i i hi; exact .inl ⟨i, hi, h⟩
  · cases h; exact .inr rfl

theorem instructionStep_next {s t : State} (h : instructionStep s = .next t) :
    t = fetchAccess s ∨ (∃ i, decode s.fetchedWord = .ok i ∧ exec i (fetchAccess s) = .next t)
      ∨ t = raiseFatal .unknownOpcode (fetchAccess s) := by
  unfold instructionStep at h
  by_cases hh : (fetchAccess s).halted = true
  · rw [if_pos hh] at h
    exact .inl (Host.Outcome.next.inj h).symm
  · rw [if_neg hh] at h
    have e : upperWord (fetchAccess s).mdr = s.fetchedWord := by rw [fetchAccess_eq]; rfl
    rw [e] at h
    exact (execWord_next h).elim (fun h => .inr (.inl h)) (fun h => .inr (.inr h))

/-! ## The sequential machine -/

/-- The sequential meaning is the instruction's meaning, but for a load with a byte out of bounds
(47_pipeline_control.md R231, 60_exceptions.md R247). -/
theorem execSeq_eq_exec {i : Instr} {s : State} (h : loadInRange i s) : execSeq i s = exec i s := by
  have load : ∀ (rt : Reg) (ea : Word) (access : Word → State → State × Word), s.spanInRange ea 8 = true →
      retireLoadSeq rt (ExOut.access ea 0) access s = retireLoad rt (ExOut.access ea 0) access s := by
    intro rt ea access h
    unfold retireLoadSeq retireLoad
    rw [show (ExOut.access ea 0).res = ea from rfl, h]
  cases i with
  | ldur | ldurb | ldurh | ldursw => exact load _ _ _ h
  | movz | movk | add | adds | sub | subs | addi | addis | subi | subis | stur | sturb | sturh | sturw | hlt | b | cbz
    | cbnz => rfl

/-! ## What a pulse does with each stage (47_pipeline_control.md R203, R204): it is still at work, it is launched on
its latch, or it is idle -/

theorem admitWB_cases {s : State} (hb : s.busyWB = s.taskWB.isActive) :
    (s.busyWB = true ∧ (∃ m, s.taskWB = .running m) ∧ launchWB (clearWB s) = s)
      ∨ ((s.taskWB = .none ∨ s.taskWB = .done) ∧ ∃ m, s.memwb = some m
          ∧ launchWB (clearWB s) = { s with taskWB := .running m, memwb := none, busyWB := true })
      ∨ ((s.taskWB = .none ∨ s.taskWB = .done) ∧ s.memwb = none
          ∧ launchWB (clearWB s) = { s with taskWB := .none, busyWB := false }) := by
  unfold clearWB launchWB
  cases ht : s.taskWB <;> cases hm : s.memwb <;> simp_all
  all_goals (cases s; simp_all)

theorem admitMEM_cases {s : State} (hb : s.busyMEM = s.taskMEM.isActive) :
    (s.busyMEM = true ∧ (∃ m, s.taskMEM = .running m) ∧ launchMEM (clearMEM s) = s)
      ∨ ((s.taskMEM = .none ∨ s.taskMEM = .done) ∧ ∃ m, s.exmem = some m
          ∧ launchMEM (clearMEM s) = { s with taskMEM := .running m, exmem := none, busyMEM := true })
      ∨ ((s.taskMEM = .none ∨ s.taskMEM = .done) ∧ s.exmem = none
          ∧ launchMEM (clearMEM s) = { s with taskMEM := .none, busyMEM := false }) := by
  unfold clearMEM launchMEM
  cases ht : s.taskMEM <;> cases hm : s.exmem <;> simp_all
  all_goals (cases s; simp_all)

theorem admitEX_cases {s : State} (hb : s.busyEX = s.taskEX.isActive) :
    (s.busyEX = true ∧ (∃ m, s.taskEX = .running m) ∧ launchEX (clearEX s) = s)
      ∨ ((s.taskEX = .none ∨ s.taskEX = .done) ∧ s.exFlushing = false ∧ ∃ m, s.idex = some m
          ∧ launchEX (clearEX s) = { s with taskEX := .running m, idex := none, busyEX := true })
      ∨ ((s.taskEX = .none ∨ s.taskEX = .done) ∧ (s.exFlushing = true ∨ s.idex = none)
          ∧ launchEX (clearEX s) = { s with taskEX := .none, busyEX := false }) := by
  unfold clearEX launchEX
  cases ht : s.taskEX <;> cases hm : s.idex <;> cases hf : s.exFlushing <;> simp_all
  all_goals (cases s; simp_all)

theorem admitID_cases {s : State} (hb : s.busyID = s.taskID.isActive) :
    (s.busyID = true ∧ (∃ m, s.taskID = .running m) ∧ launchID (clearID s) = s)
      ∨ ((s.taskID = .none ∨ s.taskID = .done) ∧ ∃ m, s.ifid = some m
          ∧ launchID (clearID s) = { s with taskID := .running m, ifid := none, busyID := true })
      ∨ ((s.taskID = .none ∨ s.taskID = .done) ∧ s.ifid = none
          ∧ launchID (clearID s) = { s with taskID := .none, busyID := false }) := by
  unfold clearID launchID
  cases ht : s.taskID <;> cases hm : s.ifid <;> simp_all
  all_goals (cases s; simp_all)

theorem admitIF_cases {s : State} (hb : s.busyIF = s.taskIF.isActive) :
    (s.busyIF = true ∧ s.taskIF = .running () ∧ launchIF (clearIF s) = s)
      ∨ ((s.taskIF = .none ∨ s.taskIF = .done) ∧ s.ifid = none
          ∧ launchIF (clearIF s) = { s with taskIF := .running (), busyIF := true })
      ∨ ((s.taskIF = .none ∨ s.taskIF = .done) ∧ s.ifid ≠ none
          ∧ launchIF (clearIF s) = { s with taskIF := .none, busyIF := false }) := by
  unfold clearIF launchIF
  cases ht : s.taskIF <;> cases hm : s.ifid <;> simp_all
  all_goals (cases s; simp_all)

/-! ## The phase and the parameters -/

/-- A pulse leaves the parameters, the phase and the events still to come. -/
theorem pulse_host (s : State) :
    (pulse s).params = s.params ∧ (pulse s).phase = s.phase ∧ (pulse s).schedule = s.schedule := by
  have one : ∀ u : State, ∀ f ∈ [clearWB, launchWB, clearMEM, launchMEM, clearEX, launchEX, clearID, launchID, clearIF,
      launchIF], (f u).params = u.params ∧ (f u).phase = u.phase ∧ (f u).schedule = u.schedule := by
    intro u f hf
    simp only [List.mem_cons, List.not_mem_nil, or_false] at hf
    rcases hf with rfl | rfl | rfl | rfl | rfl | rfl | rfl | rfl | rfl | rfl
    all_goals
      simp only [clearWB, launchWB, clearMEM, launchMEM, clearEX, launchEX, clearID, launchID, clearIF, launchIF]
      (repeat' split) <;> exact ⟨rfl, rfl, rfl⟩
  simp only [List.forall_mem_cons] at one
  simp [pulse, one]

/-- A stage's step leaves the parameters, the phase and the events still to come. -/
theorem stageStep_host {st : Stage} {s t : State} (h : stageStep st s = .next t) :
    t.params = s.params ∧ t.phase = s.phase ∧ t.schedule = s.schedule := by
  cases st with
  | fetch =>
    cases h
    rw [fetchStep_eq]
    exact ⟨rfl, rfl, rfl⟩
  | decode =>
    simp only [stageStep] at h
    split at h <;> cases h
    · rename_i d _
      obtain ⟨c, e⟩ | ⟨i, -, -, e⟩ := decodeStep_cases d s <;> rw [e]
      · exact ⟨rfl, rfl, rfl⟩
      · unfold reserve; split <;> exact ⟨rfl, rfl, rfl⟩
    · exact ⟨rfl, rfl, rfl⟩
    · exact ⟨rfl, rfl, rfl⟩
  | execute =>
    simp only [stageStep] at h
    split at h <;> cases h
    · rename_i d _
      obtain ⟨e, -⟩ | ⟨e, -⟩ | ⟨i, o, -, -, e⟩ := executeStep_cases d s <;> rw [e]
      · exact ⟨rfl, rfl, rfl⟩
      · exact ⟨rfl, rfl, rfl⟩
      · unfold resolveBranch
        split
        · rw [flush_eq]; exact ⟨rfl, rfl, rfl⟩
        · exact ⟨rfl, rfl, rfl⟩
    · exact ⟨rfl, rfl, rfl⟩
    · exact ⟨rfl, rfl, rfl⟩
  | memory =>
    simp only [stageStep] at h
    split at h <;> cases h
    · rename_i d _
      obtain ⟨r, e, ⟨i, -, rfl⟩ | ⟨-, rfl⟩⟩ := memoryStep_eq d s <;> rw [e]
      · obtain ⟨view, e⟩ | ⟨w, e⟩ | e := memoryUnit_cases i d.res d.wdata s <;> rw [e]
        · rw [loadVia_eq]; exact ⟨rfl, rfl, rfl⟩
        · rw [storeVia_eq]; exact ⟨rfl, rfl, rfl⟩
        · exact ⟨rfl, rfl, rfl⟩
      · exact ⟨rfl, rfl, rfl⟩
    · exact ⟨rfl, rfl, rfl⟩
    · exact ⟨rfl, rfl, rfl⟩
  | writeback =>
    simp only [stageStep] at h
    split at h
    · obtain ⟨-, n, rest, -, rfl⟩ | ⟨-, rfl⟩ := writebackStep_next h <;> exact ⟨rfl, rfl, rfl⟩
    · cases h; exact ⟨rfl, rfl, rfl⟩
    · cases h; exact ⟨rfl, rfl, rfl⟩

/-- One instruction alone leaves the parameters, the phase and the events still to come. -/
theorem instructionStep_host {s t : State} (h : instructionStep s = .next t) :
    t.params = s.params ∧ t.phase = s.phase ∧ t.schedule = s.schedule := by
  have hf : (fetchAccess s).params = s.params ∧ (fetchAccess s).phase = s.phase
      ∧ (fetchAccess s).schedule = s.schedule := by
    rw [fetchAccess_eq]; exact ⟨rfl, rfl, rfl⟩
  obtain rfl | ⟨i, -, h⟩ | rfl := instructionStep_next h
  · exact hf
  · obtain ⟨-, -, -, -, -, -, -, -, -, -, -, -, -, -, -, -, h1, h2, h3⟩ := exec_control h
    exact ⟨h1.trans hf.1, h2.trans hf.2.1, h3.trans hf.2.2⟩
  · exact hf

/-! ## The induction over the machine's events -/

/-- A property that a pulse, each enabled stage step, one instruction alone and each host action keep is kept by
every step, of whatever schedule. -/
theorem step_keeps {P : State → Prop}
    (schedule : ∀ s l, P s → P { s with schedule := l })
    (pulse : ∀ s, P s → s.halted = false → s.fatal = none → P (pulse (beginRun s)))
    (stage : ∀ st s t, P s → s.fatal = none → stageEnabled st s = true → stageStep st s = .next t → P t)
    (instruction : ∀ s t, P s → s.fatal = none → s.quiescent = true → instructionStep (beginRun s) = .next t → P t)
    (reset : ∀ s, P s → P (resetCore s)) (create : ∀ s n, P s → s.phase = .unsized → P (createMemory n s))
    (zero : ∀ s, P s → P (zeroMemory s)) (flash : ∀ s image, P s → s.phase = .unsized → P (flashImage image s))
    (load : ∀ s image, P s → 4 * image.length ≤ s.params.memSize → P (loadImage image s))
    {s t : State} (hs : P s) (h : step s = .next t) : P t := by
  have settleOne : ∀ st s t, P s → settleStage st s = .next t → P t := fun st s t hs h =>
    (settleStage_next h).elim (fun h => stage st s t hs h.1 h.2.1 h.2.2) fun h => h ▸ hs
  have ticks : ∀ s t, P s → tick s = .next t → P t := by
    intro s t hs h
    obtain ⟨u, hu, h⟩ := andThen_next.1 h
    obtain ⟨u4, hu, h5⟩ := andThen_next.1 hu
    obtain ⟨u3, hu, h4⟩ := andThen_next.1 hu
    obtain ⟨u2, hu, h3⟩ := andThen_next.1 hu
    obtain ⟨u1, h1, h2⟩ := andThen_next.1 hu
    have hu : P u := settleOne _ _ _ (settleOne _ _ _ (settleOne _ _ _ (settleOne _ _ _ (settleOne _ _ _ hs h1) h2)
      h3) h4) h5
    cases h
    unfold admitPhase
    split
    · exact hu
    · rename_i hc
      simp only [Bool.or_eq_true, not_or, Bool.not_eq_true, Option.isSome_eq_false_iff,
        Option.isNone_iff_eq_none] at hc
      exact pulse u hu hc.1 hc.2
  have event : ∀ e s t, P s → performEvent e s = .next t → P t := by
    intro e s t hs h
    cases e with
    | pulse =>
      obtain ⟨hf, hh, h⟩ := whenClocked_next.1 h
      cases h
      exact pulse s hs hh hf
    | stage st =>
      obtain ⟨hf, he, h⟩ := stageEvent_next.1 h
      exact stage st s t hs hf he h
    | tick => exact ticks s t hs (whenClocked_next.1 h).2.2
    | instruction =>
      obtain ⟨hf, hh, h⟩ := whenClocked_next.1 h
      split at h
      · rename_i hq; exact instruction s t hs hf hq h
      · cases h
    | reset => cases h; exact reset s hs
    | createMemory n =>
      obtain ⟨hp, h⟩ := whenAllowed_next.1 h
      cases h
      exact create s n hs (by simpa using hp)
    | zeroMemory =>
      obtain ⟨-, h⟩ := whenAllowed_next.1 h
      cases h
      exact zero s hs
    | flash image =>
      obtain ⟨hp, h⟩ := whenAllowed_next.1 h
      cases h
      exact flash s image hs (by simpa using hp)
    | load image =>
      obtain ⟨-, h⟩ := whenAllowed_next.1 h
      split at h
      · rename_i hl; cases h; exact load s image hs hl
      · cases h
  unfold step nextEvent at h
  split at h
  · exact event _ _ _ hs h
  · exact event _ _ _ (schedule _ _ hs) h

end Sys2Proof.Machine
end

