-- ==== Sys2Proof/Laws/PerInstr.lean ====
section
/-! SUPPORT. Statements about every instruction as syntax, one lemma per constructor. -/

namespace Sys2Proof.Laws.EncodesInOwnRow

/-- An instruction's own opcode class. -/
def classOfInstr : Instr → OpClass
  | .movz _ _ _ => .movz
  | .movk _ _ _ => .movk
  | .add _ _ _ => .add
  | .adds _ _ _ => .adds
  | .sub _ _ _ => .sub
  | .subs _ _ _ => .subs
  | .addi _ _ _ => .addi
  | .addis _ _ _ => .addis
  | .subi _ _ _ => .subi
  | .subis _ _ _ => .subis
  | .ldur _ _ _ => .ldur
  | .ldurb _ _ _ => .ldurb
  | .ldurh _ _ _ => .ldurh
  | .ldursw _ _ _ => .ldursw
  | .stur _ _ _ => .stur
  | .sturb _ _ _ => .sturb
  | .sturh _ _ _ => .sturh
  | .sturw _ _ _ => .sturw
  | .hlt => .hlt
  | .b _ => .b
  | .cbz _ _ => .cbz
  | .cbnz _ _ => .cbnz

/-- The word of an instruction lies in the instruction's own row of the opcode map and in no other
(spec/30_encoding.md R86, R87). -/
def Statement (i : Instr) : Prop := classOf (encode i) = some (classOfInstr i)

theorem encodeR_class (op : BitVec 11) (rd rn rm : Reg) : classOf (encodeR op rd rn rm) = classOfTop op.toNat := by
  rw [classOf_eq_top]
  congr 1
  have h1 := rm.field.isLt
  have h2 := rn.field.isLt
  have h3 := rd.field.isLt
  simp only [encodeR, toNat_append_fields, BitVec.toNat_ofNat]
  omega

theorem encodeD_class (op : BitVec 11) (rt rn : Reg) (off : BitVec 9) :
    classOf (encodeD op rt rn off) = classOfTop op.toNat := by
  rw [classOf_eq_top]
  congr 1
  have h1 := off.isLt
  have h2 := rn.field.isLt
  have h3 := rt.field.isLt
  simp only [encodeD, toNat_append_fields, BitVec.toNat_ofNat]
  omega

theorem encodeI_class {c : OpClass} (op : BitVec 10) (rd rn : Reg) (imm : BitVec 12)
    (h : ∀ k < 2, classOfTop (op.toNat * 2 + k) = some c) : classOf (encodeI op rd rn imm) = some c := by
  have h1 := imm.isLt
  have h2 := rn.field.isLt
  have h3 := rd.field.isLt
  rw [classOf_eq_top, ← h (imm.toNat / 2 ^ 11) (by omega)]
  congr 1
  simp only [encodeI, toNat_append_fields]
  omega

theorem encodeIM_class {c : OpClass} (op : BitVec 9) (rd : Reg) (hw : BitVec 2) (imm : BitVec 16)
    (h : ∀ k < 4, classOfTop (op.toNat * 4 + k) = some c) : classOf (encodeIM op rd hw imm) = some c := by
  have h1 := imm.isLt
  have h2 := hw.isLt
  have h3 := rd.field.isLt
  rw [classOf_eq_top, ← h hw.toNat (by omega)]
  congr 1
  simp only [encodeIM, toNat_append_fields]
  omega

theorem encodeCB_class {c : OpClass} (op : BitVec 8) (rt : Reg) (off : BitVec 19)
    (h : ∀ k < 8, classOfTop (op.toNat * 8 + k) = some c) : classOf (encodeCB op rt off) = some c := by
  have h1 := off.isLt
  have h2 := rt.field.isLt
  rw [classOf_eq_top, ← h (off.toNat / 2 ^ 16) (by omega)]
  congr 1
  simp only [encodeCB, toNat_append_fields]
  omega

theorem movz (rd : Reg) (hw : BitVec 2) (imm16 : BitVec 16) : Statement (.movz rd hw imm16) :=
  encodeIM_class (c := .movz) _ _ _ _ (by decide)
theorem movk (rd : Reg) (hw : BitVec 2) (imm16 : BitVec 16) : Statement (.movk rd hw imm16) :=
  encodeIM_class (c := .movk) _ _ _ _ (by decide)
theorem add (rd rn rm : Reg) : Statement (.add rd rn rm) := (encodeR_class _ _ _ _).trans (show classOfTop _ = some .add by decide)
theorem adds (rd rn rm : Reg) : Statement (.adds rd rn rm) := (encodeR_class _ _ _ _).trans (show classOfTop _ = some .adds by decide)
theorem sub (rd rn rm : Reg) : Statement (.sub rd rn rm) := (encodeR_class _ _ _ _).trans (show classOfTop _ = some .sub by decide)
theorem subs (rd rn rm : Reg) : Statement (.subs rd rn rm) := (encodeR_class _ _ _ _).trans (show classOfTop _ = some .subs by decide)
theorem addi (rd rn : Reg) (imm12 : BitVec 12) : Statement (.addi rd rn imm12) := encodeI_class (c := .addi) _ _ _ _ (by decide)
theorem addis (rd rn : Reg) (imm12 : BitVec 12) : Statement (.addis rd rn imm12) := encodeI_class (c := .addis) _ _ _ _ (by decide)
theorem subi (rd rn : Reg) (imm12 : BitVec 12) : Statement (.subi rd rn imm12) := encodeI_class (c := .subi) _ _ _ _ (by decide)
theorem subis (rd rn : Reg) (imm12 : BitVec 12) : Statement (.subis rd rn imm12) := encodeI_class (c := .subis) _ _ _ _ (by decide)
theorem ldur (rt rn : Reg) (off9 : BitVec 9) : Statement (.ldur rt rn off9) :=
  (encodeD_class _ _ _ _).trans (show classOfTop _ = some .ldur by decide)
theorem ldurb (rt rn : Reg) (off9 : BitVec 9) : Statement (.ldurb rt rn off9) :=
  (encodeD_class _ _ _ _).trans (show classOfTop _ = some .ldurb by decide)
theorem ldurh (rt rn : Reg) (off9 : BitVec 9) : Statement (.ldurh rt rn off9) :=
  (encodeD_class _ _ _ _).trans (show classOfTop _ = some .ldurh by decide)
theorem ldursw (rt rn : Reg) (off9 : BitVec 9) : Statement (.ldursw rt rn off9) :=
  (encodeD_class _ _ _ _).trans (show classOfTop _ = some .ldursw by decide)
theorem stur (rt rn : Reg) (off9 : BitVec 9) : Statement (.stur rt rn off9) :=
  (encodeD_class _ _ _ _).trans (show classOfTop _ = some .stur by decide)
theorem sturb (rt rn : Reg) (off9 : BitVec 9) : Statement (.sturb rt rn off9) :=
  (encodeD_class _ _ _ _).trans (show classOfTop _ = some .sturb by decide)
theorem sturh (rt rn : Reg) (off9 : BitVec 9) : Statement (.sturh rt rn off9) :=
  (encodeD_class _ _ _ _).trans (show classOfTop _ = some .sturh by decide)
theorem sturw (rt rn : Reg) (off9 : BitVec 9) : Statement (.sturw rt rn off9) :=
  (encodeD_class _ _ _ _).trans (show classOfTop _ = some .sturw by decide)
theorem hlt : Statement .hlt := (classOf_append11 _ _).trans (show classOfTop _ = some .hlt by decide)
theorem b (off26 : BitVec 26) : Statement (.b off26) := classOf_append6 (c := .b) _ _ (by decide)
theorem cbz (rt : Reg) (off19 : BitVec 19) : Statement (.cbz rt off19) := encodeCB_class (c := .cbz) _ _ _ (by decide)
theorem cbnz (rt : Reg) (off19 : BitVec 19) : Statement (.cbnz rt off19) := encodeCB_class (c := .cbnz) _ _ _ (by decide)

end Sys2Proof.Laws.EncodesInOwnRow
end

