-- ==== Sys2Proof/Tests/Slice0.lean ====
section
/-! SUPPORT. The model's own tests: the well-formedness check, decoding of words written out from the encodings of
spec/30_encoding.md, one step per instruction against the vectors of the spec, and a witness for the hypotheses of each
statement. -/

namespace Sys2Proof.Tests

open Sys2Proof.Machine

/-! ## WellFormed: a destination of 31 is refused (30_encoding.md R89), a source of 31 is not (R79) -/

theorem test_illFormed_movz : (Instr.movz .xzr 0 1).wellFormed = false := by decide
theorem test_illFormed_movk : (Instr.movk .xzr 0 1).wellFormed = false := by decide
theorem test_illFormed_add : (Instr.add .xzr (.x 1) (.x 2)).wellFormed = false := by decide
theorem test_illFormed_adds : (Instr.adds .xzr (.x 1) (.x 2)).wellFormed = false := by decide
theorem test_illFormed_sub : (Instr.sub .xzr (.x 1) (.x 2)).wellFormed = false := by decide
theorem test_illFormed_subs : (Instr.subs .xzr (.x 1) (.x 2)).wellFormed = false := by decide
theorem test_illFormed_addi : (Instr.addi .xzr (.x 1) 1).wellFormed = false := by decide
theorem test_illFormed_addis : (Instr.addis .xzr (.x 1) 1).wellFormed = false := by decide
theorem test_illFormed_subi : (Instr.subi .xzr (.x 1) 1).wellFormed = false := by decide
theorem test_illFormed_subis : (Instr.subis .xzr (.x 1) 1).wellFormed = false := by decide
theorem test_illFormed_ldur : (Instr.ldur .xzr (.x 1) 1).wellFormed = false := by decide
theorem test_illFormed_ldurb : (Instr.ldurb .xzr (.x 1) 1).wellFormed = false := by decide
theorem test_illFormed_ldurh : (Instr.ldurh .xzr (.x 1) 1).wellFormed = false := by decide
theorem test_illFormed_ldursw : (Instr.ldursw .xzr (.x 1) 1).wellFormed = false := by decide
theorem test_wellFormed_sources : (Instr.add (.x 0) .xzr .xzr).wellFormed = true
    ∧ (Instr.stur .xzr .xzr 0).wellFormed = true ∧ (Instr.cbz .xzr 1).wellFormed = true := by decide

/-! ## Decoding: words written out field by field (30_encoding.md R72 to R78, R86) -/

/-- The word decodes to the instruction. -/
def decodesTo (w : IWord) (i : Instr) : Bool :=
  match decode w with
  | .ok j => j == i
  | .error _ => false

/-- `MOVZ X9, #0xFFFF, LSL 48` (R118). -/
theorem test_decode_movz : decodesTo 0b110100101_11_1111111111111111_01001 (.movz (.x 9) 3 0xFFFF) = true := by decide
/-- `MOVK X9, #0xDEAD, LSL 16` (R118). -/
theorem test_decode_movk : decodesTo 0b111100101_01_1101111010101101_01001 (.movk (.x 9) 1 0xDEAD) = true := by decide
/-- `ADD X0, X1, X2` (R94). -/
theorem test_decode_add : decodesTo 0b10001011000_00010_000000_00001_00000 (.add (.x 0) (.x 1) (.x 2)) = true := by decide
/-- `ADDS X3, X1, X2` (R129). -/
theorem test_decode_adds : decodesTo 0b10101011000_00010_000000_00001_00011 (.adds (.x 3) (.x 1) (.x 2)) = true := by decide
/-- `SUB X1, XZR, X2` (R123). -/
theorem test_decode_sub : decodesTo 0b11001011000_00010_000000_11111_00001 (.sub (.x 1) .xzr (.x 2)) = true := by decide
/-- `SUBS X3, X1, X2` (R129). -/
theorem test_decode_subs : decodesTo 0b11101011000_00010_000000_00001_00011 (.subs (.x 3) (.x 1) (.x 2)) = true := by decide
/-- `ADDI X1, X2, #0xFFF` (R125). -/
theorem test_decode_addi : decodesTo 0b1001000100_111111111111_00010_00001 (.addi (.x 1) (.x 2) 0xFFF) = true := by decide
/-- `ADDIS X1, X2, #0x7FF` (R129). -/
theorem test_decode_addis : decodesTo 0b1011000100_011111111111_00010_00001 (.addis (.x 1) (.x 2) 0x7FF) = true := by decide
/-- `SUBI X5, X5, #1` (R94). -/
theorem test_decode_subi : decodesTo 0b1101000100_000000000001_00101_00101 (.subi (.x 5) (.x 5) 1) = true := by decide
/-- `SUBIS X4, X5, #5` (R129). -/
theorem test_decode_subis : decodesTo 0b1111000100_000000000101_00101_00100 (.subis (.x 4) (.x 5) 5) = true := by decide
/-- `LDUR X2, [XZR, #255]` (R145). -/
theorem test_decode_ldur : decodesTo 0b11111000010_011111111_00_11111_00010 (.ldur (.x 2) .xzr 0xFF) = true := by decide
/-- `LDURB X3, [X1, #7]` (R145). -/
theorem test_decode_ldurb : decodesTo 0b00111000010_000000111_00_00001_00011 (.ldurb (.x 3) (.x 1) 7) = true := by decide
/-- `LDURH X3, [X1, #3]` (R145). -/
theorem test_decode_ldurh : decodesTo 0b01111000010_000000011_00_00001_00011 (.ldurh (.x 3) (.x 1) 3) = true := by decide
/-- `LDURSW X7, [X1, #8]` (R139). -/
theorem test_decode_ldursw : decodesTo 0b10111000100_000001000_00_00001_00111 (.ldursw (.x 7) (.x 1) 8) = true := by decide
/-- `STUR X6, [X1, #16]` (R140). -/
theorem test_decode_stur : decodesTo 0b11111000000_000010000_00_00001_00110 (.stur (.x 6) (.x 1) 16) = true := by decide
/-- `STURB X2, [X1, #1]` (R145). -/
theorem test_decode_sturb : decodesTo 0b00111000000_000000001_00_00001_00010 (.sturb (.x 2) (.x 1) 1) = true := by decide
/-- `STURH X6, [X1, #-2]` (R142). -/
theorem test_decode_sturh : decodesTo 0b01111000000_111111110_00_00001_00110 (.sturh (.x 6) (.x 1) 0x1FE) = true := by decide
/-- `STURW X6, [X1, #8]` (R143). -/
theorem test_decode_sturw : decodesTo 0b10111000000_000001000_00_00001_00110 (.sturw (.x 6) (.x 1) 8) = true := by decide
/-- `HLT` (R94). -/
theorem test_decode_hlt : decodesTo 0b11010100010_000000000000000000000 .hlt = true := by decide
/-- `B #-2` (R162). -/
theorem test_decode_b : decodesTo 0b000101_11111111111111111111111110 (.b 0x3FFFFFE) = true := by decide
/-- `CBZ X1, #0x3FFFF` (R162). -/
theorem test_decode_cbz : decodesTo 0b10110100_0111111111111111111_00001 (.cbz (.x 1) 0x3FFFF) = true := by decide
/-- `CBNZ X5, #-2` (R94). -/
theorem test_decode_cbnz : decodesTo 0b10110101_1111111111111111110_00101 (.cbnz (.x 5) 0x7FFFE) = true := by decide

/-- Words of no row: all zeros, all ones, ARM's NOP, and the neighbours of LDURSW's and STURW's rows (R86, R88). -/
theorem test_decode_unknown : classOf 0x00000000 = none ∧ classOf 0xFFFFFFFF = none ∧ classOf 0xD503201F = none
    ∧ classOf 0xB8400000 = none ∧ classOf 0xD4200000 = none := by decide

/-- The rows' opcode prefixes give the masks and match values that R86 prints. -/
theorem test_rows_are_masks : opcodeRows.map (fun r => (r.cls, r.mask, r.matchValue)) = maskMatchRows := by decide

/-- Fewer than four bytes are no instruction (R70). -/
theorem test_decode_truncated : (match decodeBytes [0x8B, 0x02, 0x00] with
    | .error .truncated => true
    | .error .unknownOpcode => false
    | .ok _ => false) = true := by decide

/-! ## One step per instruction -/

/-- The state a step leaves when a word is placed where it fetches; the state before where the step stops. -/
def after (w : Nat) (s : State) : State :=
  match step (s.withFetchWord 32 w) with
  | .next t => t
  | .fault _ => s
  | .refused _ => s

/-- Reset with one register set. -/
def with1 (n : Fin 31) (v : Word) : State := writeReg n v State.reset

/-- Reset with two registers set. -/
def with2 (n : Fin 31) (v : Word) (k : Fin 31) (v' : Word) : State := writeReg k v' (writeReg n v State.reset)

/-- N, Z, C, V as the spec prints them. -/
def nzcv (n z c v : Nat) : Flags := ⟨n == 1, z == 1, c == 1, v == 1⟩

/-- Eight bytes at an address. -/
def eightAt (a : Nat) (bs : List Byte) (s : State) : State := { s with mem := Memory.writeList s.mem a bs }

/-- R118. -/
theorem test_movz : (after 0xD2FFFFE9 (with1 9 0x1111111111111111)).x (.x 9) = 0xFFFF000000000000 := by decide
/-- R115: flags 0. -/
theorem test_movz_clears_flags : (after 0xD2900009 { State.reset with flags := nzcv 1 1 1 1 }).flags = nzcv 0 0 0 0 := by decide
/-- R118. -/
theorem test_movk : (after 0xF2F7DDE9 (with1 9 0x0123456789ABCDEF)).x (.x 9) = 0xBEEF456789ABCDEF := by decide
/-- R118. -/
theorem test_movk_lsl16 : (after 0xF2BBD5A9 (with1 9 0xBEEF)).x (.x 9) = 0xDEADBEEF := by decide
/-- R129: the sum wraps and the flags are 0. -/
theorem test_add : (after 0x8B020020 (with2 1 0xFFFFFFFFFFFFFFFF 2 1)).x (.x 0) = 0
    ∧ (after 0x8B020020 (with2 1 0xFFFFFFFFFFFFFFFF 2 1)).flags = nzcv 0 0 0 0 := by decide
/-- R129: source and destination are one register. -/
theorem test_add_same_register : (after 0x8B010021 (with1 1 0x4000000000000001)).x (.x 1) = 0x8000000000000002 := by decide
/-- R129: signed overflow. -/
theorem test_adds : (after 0xAB020023 (with2 1 0x7FFFFFFFFFFFFFFF 2 1)).x (.x 3) = 0x8000000000000000
    ∧ (after 0xAB020023 (with2 1 0x7FFFFFFFFFFFFFFF 2 1)).flags = nzcv 1 0 0 1 := by decide
/-- R129. -/
theorem test_adds_all_but_n : (after 0xAB020023 (with2 1 0x8000000000000000 2 0x8000000000000000)).flags = nzcv 0 1 1 1 := by decide
/-- R129. -/
theorem test_sub : (after 0xCB020023 (with2 1 0 2 1)).x (.x 3) = 0xFFFFFFFFFFFFFFFF
    ∧ (after 0xCB020023 (with2 1 0 2 1)).flags = nzcv 0 0 0 0 := by decide
/-- R129: C is 0 when the subtrahend is 0. -/
theorem test_subs_zero_operand : (after 0xEB020023 (with2 1 5 2 0)).x (.x 3) = 5
    ∧ (after 0xEB020023 (with2 1 5 2 0)).flags = nzcv 0 0 0 0 := by decide
/-- R129: V is the minuend's sign when the subtrahend is 2^63. -/
theorem test_subs_min_operand : (after 0xEB020023 (with2 1 0xFFFFFFFFFFFFFFFF 2 0x8000000000000000)).flags = nzcv 0 0 1 1 := by decide
/-- R129: the immediate is signed. -/
theorem test_addi : (after 0x91200041 (with1 2 0)).x (.x 1) = 0xFFFFFFFFFFFFF800
    ∧ (after 0x91200041 (with1 2 0)).flags = nzcv 0 0 0 0 := by decide
/-- R129. -/
theorem test_addis : (after 0xB11FFC41 (with1 2 0x7FFFFFFFFFFFFFFF)).x (.x 1) = 0x80000000000007FE
    ∧ (after 0xB11FFC41 (with1 2 0x7FFFFFFFFFFFFFFF)).flags = nzcv 1 0 0 1 := by decide
/-- R126. -/
theorem test_addis_minus_one : (after 0xB13FFC41 (with1 2 1)).x (.x 1) = 0
    ∧ (after 0xB13FFC41 (with1 2 1)).flags = nzcv 0 1 1 0 := by decide
/-- R127. -/
theorem test_subi : (after 0xD10004A5 (with1 5 5)).x (.x 5) = 4 ∧ (after 0xD10004A5 (with1 5 5)).flags = nzcv 0 0 0 0 := by decide
/-- R129: a borrow. -/
theorem test_subis : (after 0xF10014A4 (with1 5 3)).x (.x 4) = 0xFFFFFFFFFFFFFFFE
    ∧ (after 0xF10014A4 (with1 5 3)).flags = nzcv 1 0 0 0 := by decide
/-- R128. -/
theorem test_subis_equal : (after 0xF10014A4 (with1 5 5)).flags = nzcv 0 1 1 0 := by decide
/-- R136. -/
theorem test_ldur : (after 0xF8400024 (eightAt 0x60 [0x12, 0, 0, 0, 0, 0, 0, 0] (with1 1 0x60))).x (.x 4) = 0x1200000000000000 := by decide
/-- R247: no register is written, a halt is requested. -/
theorem test_ldur_out_of_bounds : (after 0xF8400024 (with2 1 65529 4 7)).x (.x 4) = 7
    ∧ (after 0xF8400024 (with2 1 65529 4 7)).halted = true := by decide
/-- R145: zero-extended. -/
theorem test_ldurb : (after 0x38407023 (eightAt 0x60 [1, 0x23, 0x45, 0x67, 0x89, 0xAB, 0xCD, 0xEF] (with1 1 0x60))).x (.x 3) = 0xEF := by decide
/-- R145: all eight bytes are read. -/
theorem test_ldurb_near_the_end : (after 0x38400023 (with1 1 65529)).halted = true ∧ (after 0x38400023 (with1 1 65528)).halted = false := by decide
/-- R145. -/
theorem test_ldurh : (after 0x78403023 (eightAt 0x60 [1, 0x23, 0x45, 0x67, 0x89, 0xAB, 0xCD, 0xEF] (with1 1 0x60))).x (.x 3) = 0x6789 := by decide
/-- R139: sign-extended. -/
theorem test_ldursw : (after 0xB8808027 (eightAt 0x68 [0xDE, 0xAD, 0xBE, 0xEF] (with1 1 0x60))).x (.x 7) = 0xFFFFFFFFDEADBEEF := by decide
/-- R145. -/
theorem test_ldursw_positive : (after 0xB8800027 (eightAt 0x60 [1, 0x23, 0x45, 0x67, 0x89, 0xAB, 0xCD, 0xEF] (with1 1 0x60))).x (.x 7) = 0x01234567 := by decide
/-- R140. -/
theorem test_stur : (after 0xF8010026 (with2 1 0x60 6 0xDEADBEEF)).wordAt 0x70 = 0x00000000DEADBEEF := by decide
/-- R140, R62: the bytes in range are written and a halt is requested. -/
theorem test_stur_partly_out_of_bounds : (after 0xF8000026 (with2 1 65534 6 0x1122334455667788)).byteAt 65535 = 0x22
    ∧ (after 0xF8000026 (with2 1 65534 6 0x1122334455667788)).halted = true := by decide
/-- R145. -/
theorem test_sturb : (after 0x38001022 (eightAt 0x60 [1, 0x23, 0x45, 0x67, 0x89, 0xAB, 0xCD, 0xEF]
    (with2 1 0x60 2 0xFFFFFFFFFFFFFF5A))).wordAt 0x60 = 0x015A456789ABCDEF := by decide
/-- R145: a byte store to the last byte does not halt. -/
theorem test_sturb_last_byte : (after 0x38000022 (with2 1 65535 2 0x5A)).byteAt 65535 = 0x5A
    ∧ (after 0x38000022 (with2 1 65535 2 0x5A)).halted = false := by decide
/-- R142. -/
theorem test_sturh : (after 0x781FE026 (with2 1 0x60 6 0xDEADBEEF)).wordAt 0x5E = 0xBEEF000000000000 := by decide
/-- R143. -/
theorem test_sturw : (after 0xB8008026 (with2 1 0x60 6 0xDEADBEEF)).wordAt 0x68 = 0xDEADBEEF00000000 := by decide
/-- R150: halted is set and the flags stay. -/
theorem test_hlt : (after 0xD4400000 { State.reset with flags := nzcv 1 0 1 1 }).halted = true
    ∧ (after 0xD4400000 { State.reset with flags := nzcv 1 0 1 1 }).flags = nzcv 1 0 1 1 := by decide
/-- R162. -/
theorem test_b : (after 0x14000006 State.reset).pc = 0x1C := by decide
/-- R162. -/
theorem test_b_backwards_wraps : (after 0x17FFFFFE State.reset).pc = 0xFFFFFFFFFFFFFFFC := by decide
/-- R162. -/
theorem test_cbz : (after 0xB4000041 { State.reset with pc := 0x10 }).pc = 0x1C
    ∧ (after 0xB4000041 { with1 1 1 with pc := 0x10 }).pc = 0x14 := by decide
/-- R162. -/
theorem test_cbz_xzr : (after 0xB400003F State.reset).pc = 8 := by decide
/-- R162. -/
theorem test_cbnz : (after 0xB5FFFFC5 { with1 5 4 with pc := 8 }).pc = 4 ∧ (after 0xB5FFFFC5 { State.reset with pc := 8 }).pc = 0xC := by decide
/-- R162. -/
theorem test_cbnz_xzr : (after 0xB500003F State.reset).pc = 4 := by decide
/-- R118, R129, R145: a destination of 31. -/
theorem test_zero_register_write : (after 0xD280003F State.reset).fatal = some .zeroRegisterWrite
    ∧ (after 0xEB02003F State.reset).fatal = some .zeroRegisterWrite
    ∧ (after 0xF840003F State.reset).fatal = some .zeroRegisterWrite := by decide
/-- R88: the all-zero word. -/
theorem test_unknown_opcode : (after 0 State.reset).fatal = some .unknownOpcode := by decide

/-! ## Witnesses: for each statement with hypotheses, a state and operands that meet all of them together -/

/-- 30_encoding.md R90: one word for each clause, and one ignored bit set in it. -/
theorem witness_IgnoredBitsDoNotMatter :
    classOf 0x8B020020 ∈ [some OpClass.add, some .adds, some .sub, some .subs]
      ∧ classOf 0xF8400024 ∈ [some OpClass.ldur, some .ldurb, some .ldurh, some .ldursw, some .stur, some .sturb,
        some .sturh, some .sturw]
      ∧ classOf 0xD4400000 = some .hlt := by decide

/-- The highest address in range. -/
theorem witness_ByteAccessInRange :
    (65535 : Word).toNat < State.reset.params.memSize ∧ Memory.wf State.reset.mem = true := by decide

/-- The lowest address out of bounds. -/
theorem witness_ByteAccessOutOfBoundsRequestsHalt : State.reset.params.memSize ≤ (65536 : Word).toNat := by decide

/-- A doubleword whose byte 1 is the last in range and whose byte 2 is the first out of bounds; an address outside. -/
theorem witness_MmuWriteStoresTheLowBytes : Memory.wf State.reset.mem = true
    ∧ 1 < Width.double.bytes ∧ State.reset.inRange (65534 + BitVec.ofNat 64 1) = true
    ∧ State.reset.spanInRange 65534 Width.double.bytes = false
    ∧ ∀ i, i < Width.double.bytes → (65533 : Word) ≠ 65534 + BitVec.ofNat 64 i := by decide

/-- The last address at which all eight bytes are in range, reached with a negative offset. -/
theorem witness_LoadsInRangeWriteTheirView :
    isNumber 65528 ((((with1 1 65529).x (.x 1)).toNat : Int) + (0x1FF : BitVec 9).toInt)
      ∧ (with1 1 65529).spanInRange 65528 8 = true := by
  unfold isNumber
  decide

/-- One address further. -/
theorem witness_LoadOutOfBoundsNeverCommits :
    isNumber 65529 ((((with1 1 65528).x (.x 1)).toNat : Int) + (1 : BitVec 9).toInt)
      ∧ (with1 1 65528).spanInRange 65529 8 = false := by
  unfold isNumber
  decide

/-- A halfword at the last address: its byte 0 in range, its byte 1 out of bounds, and an address it does not store
to. -/
theorem witness_StoresWriteTheLowBytes : Memory.wf (with1 1 65535).mem = true
    ∧ isNumber 65535 ((((with1 1 65535).x (.x 1)).toNat : Int) + (0 : BitVec 9).toInt)
    ∧ (with1 1 65535).inRange (65535 + BitVec.ofNat 64 0) = true
    ∧ (with1 1 65535).spanInRange 65535 Width.half.bytes = false
    ∧ ∀ i, i < Width.half.bytes → (65534 : Word) ≠ 65535 + BitVec.ofNat 64 i := by
  unfold isNumber
  decide

theorem witness_StoreThenLoadRoundTrip : Memory.wf (with2 1 65528 2 0x89ABCDEF).mem = true
    ∧ (with2 1 65528 2 0x89ABCDEF).spanInRange ((with2 1 65528 2 0x89ABCDEF).x (.x 1) + (0 : BitVec 9).signExtend 64) 8
      = true
    ∧ ∃ t, exec (storeInstr .word (.x 2) (.x 1) 0) (with2 1 65528 2 0x89ABCDEF) = .next t :=
  ⟨by decide, by decide, _, rfl⟩

/-- One instruction for each of the first two clauses. -/
theorem witness_DestinationThirtyOneIsFatal : dst (.subs .xzr (.x 1) (.x 2)) = some .xzr
    ∧ dst (.stur .xzr (.x 1) 0) ≠ some .xzr ∧ ∃ t, exec (.stur .xzr (.x 1) 0) State.reset = .next t :=
  ⟨by decide, by decide, _, rfl⟩

/-- A state with a decode task. -/
def decoding (w : IWord) : State :=
  { State.reset with pc := 4, taskIF := .done, busyIF := true, taskID := .running ⟨w, 4⟩, busyID := true }

/-- The first clause at the all-zero word, the second at `SUBS XZR, X1, X2` with its sources unlocked. -/
theorem witness_DecodeUnitRaisesTheFatalErrors :
    ((decoding 0).taskID = .running ⟨0, 4⟩ ∧ (decoding 0).fatal = none
        ∧ ∀ r ∈ maskMatchRows, (0 : IWord) &&& r.2.1 ≠ r.2.2)
      ∧ (decoding 0xEB02003F).taskID = .running ⟨0xEB02003F, 4⟩ ∧ (decoding 0xEB02003F).fatal = none
      ∧ decode 0xEB02003F = .ok (.subs .xzr (.x 1) (.x 2)) ∧ dst (.subs .xzr (.x 1) (.x 2)) = some .xzr
      ∧ ∀ r, src1 (.subs .xzr (.x 1) (.x 2)) = some r ∨ src2 (.subs .xzr (.x 1) (.x 2)) = some r →
          (decoding 0xEB02003F).locked r = false := by
  refine ⟨by decide, rfl, rfl, rfl, rfl, ?_⟩
  rintro r (h | h) <;> cases h <;> rfl

/-- A fatal error, a halt, and either with nothing scheduled. -/
theorem witness_EndedRunAdmitsNothing :
    (raiseFatal .unknownOpcode State.reset).fatal = some .unknownOpcode
      ∧ (requestHalt State.reset).fatal = none ∧ (requestHalt State.reset).halted = true
      ∧ (requestHalt State.reset).schedule = [] ∧ (requestHalt State.reset).ended :=
  ⟨rfl, rfl, rfl, rfl, .inl rfl⟩

/-- `ADD X0, X1, X2` at address 0 of an otherwise empty Memory. -/
def adding : State := State.reset.withFetchWord 32 0x8B020020

theorem adding_ready : adding.Ready := ⟨rfl, by decide, rfl, rfl⟩

theorem witness_StepRunsTheDecodedInstruction : adding.Ready ∧ adding.fetchInRange
    ∧ loadInRange (.add (.x 0) (.x 1) (.x 2)) (fetchAccess adding)
    ∧ decode (wordOfBytes (adding.byteAt adding.pc) (adding.byteAt (adding.pc + 1)) (adding.byteAt (adding.pc + 2))
      (adding.byteAt (adding.pc + 3))) = .ok (.add (.x 0) (.x 1) (.x 2)) :=
  ⟨adding_ready, show adding.spanInRange adding.pc 8 = true by decide, trivial, rfl⟩

theorem reset_ready : State.reset.Ready := ⟨rfl, by decide, rfl, rfl⟩

/-- The all-zero word at address 0. -/
theorem witness_UnknownWordIsFatal : State.reset.Ready ∧ State.reset.fetchInRange
    ∧ ∀ r ∈ maskMatchRows, wordOfBytes (State.reset.byteAt State.reset.pc) (State.reset.byteAt (State.reset.pc + 1))
      (State.reset.byteAt (State.reset.pc + 2)) (State.reset.byteAt (State.reset.pc + 3)) &&& r.2.1 ≠ r.2.2 :=
  ⟨reset_ready, show State.reset.spanInRange State.reset.pc 8 = true by decide, by decide⟩

/-- The first PC at which one of the eight bytes is out of bounds. -/
theorem witness_FetchOutOfBoundsHaltsFirst : State.Ready { State.reset with pc := 65529 }
    ∧ State.spanInRange { State.reset with pc := 65529 } 65529 8 = false :=
  ⟨⟨rfl, by decide, rfl, rfl⟩, by decide⟩

theorem witness_PlacedInstructionIsTheNextOneRun : Memory.wf State.reset.mem = true
    ∧ decodeTableWord 32 0x8B020020 = some (.add (.x 0) (.x 1) (.x 2)) := by decide

/-! ### A pipeline at work: MOVZ X1 in writeback, STURB in memory access, B in execute, MOVZ X3 in IDEX, MOVZ X4 in
IFID -/

/-- The state. -/
def atWork : State := { State.reset with
  phase := .started, pc := 0x18, lq := [1, 3]
  taskWB := .running ⟨0xD28000A1, 5⟩, busyWB := true
  taskMEM := .running ⟨0x38000022, 0x100, 0x12⟩, busyMEM := true
  taskEX := .running ⟨0x14000006, 0x10, 0, 0, 6, false⟩, busyEX := true
  idex := some ⟨0xD28000E3, 0x14, 0, 0, 7, true⟩
  ifid := some ⟨0xD2800104, 0x18⟩
  taskIF := .done, busyIF := true }

/-- A list of words each of which an instruction that decode accepts. -/
theorem accepted_cons {w : IWord} {ws : List IWord} {i : Instr} (h : decode w = .ok i) (hi : i.wellFormed = true)
    (hs : ∀ v ∈ ws, ∃ j, decode v = .ok j ∧ j.wellFormed = true) :
    ∀ v ∈ w :: ws, ∃ j, decode v = .ok j ∧ j.wellFormed = true := by
  intro v hv
  rcases List.mem_cons.1 hv with rfl | hv
  · exact ⟨i, h, hi⟩
  · exact hs v hv

theorem accepted_nil : ∀ v ∈ ([] : List IWord), ∃ j, decode v = .ok j ∧ j.wellFormed = true :=
  fun _ h => absurd h List.not_mem_nil

/-- No word of a list is HLT. -/
theorem notHlt {ws : List IWord} (h : ws.all (fun w => classOf w != some .hlt) = true) :
    ∀ w ∈ ws, decode w ≠ .ok .hlt := by
  intro w hw e
  have hc := List.all_eq_true.1 h w hw
  unfold decode at e
  split at e
  · rename_i c hcl
    cases c <;> simp_all [instrOf]
  · cases e

theorem atWork_pipelineOk : atWork.PipelineOk := by
  refine ⟨⟨rfl, rfl, rfl, rfl, rfl⟩, ⟨rfl, fun h => by cases h⟩, ⟨?_, ?_, ?_⟩, ?_, ?_, ?_⟩
  · exact accepted_cons (w := 0xD28000A1) rfl rfl (accepted_cons (w := 0x38000022) rfl rfl
      (accepted_cons (w := 0x14000006) rfl rfl (accepted_cons (w := 0xD28000E3) rfl rfl accepted_nil)))
  · exact notHlt (ws := [0xD28000A1, 0x38000022]) (by decide)
  · intro d h
    cases h
    decide
  · exact show atWork.lq = atWork.inFlight.flatMap reservesOf by decide
  · refine ⟨fun h => absurd rfl h, fun _ _ _ h => absurd rfl h⟩
  · exact fun h => absurd rfl h

theorem atWork_fetchOrderOk : atWork.FetchOrderOk := by
  refine ⟨?_, ?_, ?_⟩
  · intro d h
    cases h
    rfl
  · intro d h
    cases h
  · intro d f h
    cases h

theorem atWork_pcOk : atWork.PcOk := by
  refine ⟨show _ % 4 = 0 by decide, ?_, ?_, ?_, ?_⟩ <;> intro d h <;> cases h <;> exact show _ % 4 = 0 by decide

theorem atWork_memoryOk : atWork.MemoryOk := ⟨rfl, rfl⟩

/-! ### The host: Memory before, in and after a run -/

theorem witness_FlashedImageIsBigEndianFromZero : State.reset.phase = .unsized := rfl

/-- Creating Memory before the first pulse changes its size, the first pulse starts the run, and nothing after it
changes the size. -/
theorem witness_ParametersAreFixedForARun :
    (∃ t, step { State.reset with schedule := [.createMemory 64] } = .next t ∧ t.params ≠ State.reset.params)
      ∧ (∃ t, step { State.reset with schedule := [.pulse] } = .next t)
      ∧ atWork.phase = .started ∧ atWork.phase ≠ .unsized ∧ (∀ rest, atWork.schedule ≠ .reset :: rest)
      ∧ ∃ t, step atWork = .next t :=
  ⟨⟨_, rfl, by decide⟩, ⟨_, rfl⟩, rfl, by decide, fun _ h => (by cases h), _, rfl⟩

/-- Not created, created, running, and stopped; an image that just fits. -/
theorem witness_HostActsOnMemoryWhileTheCoreIsNotRunning :
    State.reset.phase = .unsized ∧ State.phase { State.reset with phase := .ready } ≠ .unsized
      ∧ (atWork.phase = .started ∧ atWork.halted = false ∧ atWork.fatal = none)
      ∧ (State.halted { atWork with halted := true } = true)
      ∧ State.MemoryOk { State.reset with params := ⟨8, 0⟩ } ∧ 4 * [0xD28000A1, 0xD4400000].length ≤ (⟨8, 0⟩ : Params).memSize :=
  ⟨rfl, by decide, ⟨rfl, rfl, rfl⟩, rfl, ⟨rfl, rfl⟩, by decide⟩

/-- 70_reset_and_hazards.md R271: Memory is created once, and not while the core runs. -/
theorem test_createOnce : performEvent (.createMemory 64) (createMemory 8 State.reset) = .refused .eventNotEnabled
    ∧ performEvent (.flash []) atWork = .refused .eventNotEnabled
    ∧ performEvent (.load []) atWork = .refused .eventNotEnabled := ⟨rfl, rfl, rfl⟩

/-- Eight bytes of Memory and every register 7: a load of eight bytes from address 4 runs past the end. -/
def loadingPastTheEnd : State := { State.reset with params := ⟨8, 0⟩, regs := Vector.replicate 31 7 }

/-- `LDUR X9, [XZR, #4]` at 0: the sequential machine writes X9 (47_pipeline_control.md R231), the pipeline does not
(60_exceptions.md R247). -/
theorem test_sequentialLoadCommits :
    (match stepSeq (State.withFetchWord loadingPastTheEnd 32 0xF84043E9) with
      | .next t => t.x (.x 9) == 0 && t.halted
      | .fault _ => false
      | .refused _ => false) = true
      ∧ (match step (State.withFetchWord loadingPastTheEnd 32 0xF84043E9) with
      | .next t => t.x (.x 9) == 7 && t.halted
      | .fault _ => false
      | .refused _ => false) = true := by decide

/-- An ended run, and each kind of word at the PC: unknown, an addition, a load of 31, a load out of bounds. -/
theorem witness_SequentialStepCommitsEveryLoad :
    State.ended { State.reset with halted := true }
      ∧ (State.reset.halted = false ∧ State.reset.fatal = none)
      ∧ (∀ r ∈ maskMatchRows, (0 : IWord) &&& r.2.1 ≠ r.2.2)
      ∧ (∀ w rt rn off9, Instr.add (.x 0) (.x 1) (.x 2) ≠ loadInstr w rt rn off9)
      ∧ decode 0xF84043FF = .ok (loadInstr .double .xzr .xzr 4)
      ∧ decode 0xF84043E9 = .ok (loadInstr .double (.x 9) .xzr 4) ∧ isNumber 4 (((0 : Word).toNat : Int) + (4 : BitVec 9).toInt)
      ∧ loadingPastTheEnd.spanInRange 4 8 = false := by
  refine ⟨.inl rfl, ⟨rfl, rfl⟩, by decide, ?_, rfl, rfl, show _ = _ by decide, by decide⟩
  rintro (_ | _ | _ | _) _ _ _ h <;> cases h

/-- Every stage at work or free, and every input latch populated or empty, in one of three states: all idle, all work
done with every input latch populated, all at work. -/
theorem witness_PulseAdmitsTailFirst :
    (State.reset.BusyOk ∧ State.reset.halted = false ∧ State.reset.fatal = none)
      ∧ (atWork.BusyOk ∧ atWork.halted = false ∧ atWork.fatal = none)
      ∧ State.BusyOk { atWork with taskWB := .done, taskMEM := .done, taskEX := .done, exmem := some ⟨0, 0, 0⟩
                                   memwb := some ⟨0, 0⟩ } :=
  ⟨⟨⟨rfl, rfl, rfl, rfl, rfl⟩, rfl, rfl⟩, ⟨atWork_pipelineOk.1, rfl, rfl⟩, rfl, rfl, rfl, rfl, rfl⟩

theorem witness_PulseOnlyAdmits : atWork.halted = false ∧ atWork.fatal = none := ⟨rfl, rfl⟩

theorem witness_TakenBranchFlushesFetchAndDecode : atWork.PipelineOk ∧ atWork.fatal = none
    ∧ atWork.taskEX = .running ⟨0x14000006, 0x10, 0, 0, 6, false⟩ ∧ decode 0x14000006 = .ok (.b 6)
    ∧ (executeUnit (.b 6) 0x10 0 0 6).map (·.taken) = some (some 0x28) ∧ atWork.exmem = none :=
  ⟨atWork_pipelineOk, rfl, rfl, rfl, by decide, rfl⟩

theorem witness_FetchStepPublishesWordAndIncrementedPc :
    State.fatal { State.reset with taskIF := .running (), busyIF := true } = none
      ∧ State.taskIF { State.reset with taskIF := .running (), busyIF := true } = .running () := ⟨rfl, rfl⟩

/-- `ADD X0, X1, X2` in decode: waiting for X2, waiting for IDEX, and free to go. -/
theorem witness_DecodeWaitsThenReadsReservesPublishes :
    (decoding 0x8B020020).fatal = none ∧ (decoding 0x8B020020).taskID = .running ⟨0x8B020020, 4⟩
      ∧ decode 0x8B020020 = .ok (.add (.x 0) (.x 1) (.x 2)) ∧ dst (.add (.x 0) (.x 1) (.x 2)) ≠ some .xzr
      ∧ (src2 (.add (.x 0) (.x 1) (.x 2)) = some (.x 2)
          ∧ State.locked { decoding 0x8B020020 with lq := [2] } (.x 2) = true)
      ∧ State.idex { decoding 0x8B020020 with idex := atWork.idex } ≠ none
      ∧ (decoding 0x8B020020).idex = none
      ∧ ∀ r, src1 (.add (.x 0) (.x 1) (.x 2)) = some r ∨ src2 (.add (.x 0) (.x 1) (.x 2)) = some r →
          (decoding 0x8B020020).locked r = false := by
  refine ⟨rfl, rfl, rfl, by decide, by decide, by decide, rfl, ?_⟩
  rintro r (h | h) <;> cases h <;> rfl

/-- MOVZ and its reservation for the second clause, STURB for the first. -/
theorem witness_WritebackCommitsToTheOldestReservation :
    (atWork.fatal = none ∧ atWork.taskWB = .running ⟨0xD28000A1, 5⟩ ∧ decode 0xD28000A1 = .ok (.movz (.x 1) 0 5)
        ∧ dst (.movz (.x 1) 0 5) = some (.x 1) ∧ atWork.lq = 1 :: [3])
      ∧ State.taskWB { atWork with taskWB := .running ⟨0x38000022, 0⟩ } = .running ⟨0x38000022, 0⟩
      ∧ decode 0x38000022 = .ok (.sturb (.x 2) (.x 1) 0) ∧ dst (.sturb (.x 2) (.x 1) 0) = none :=
  ⟨⟨rfl, rfl, rfl, rfl, rfl⟩, rfl, rfl, rfl⟩

/-- The state an event leaves; the state before where it stops. -/
def afterEvent (e : Event) (s : State) : State :=
  match performEvent e s with
  | .next t => t
  | .fault _ => s
  | .refused _ => s

/-- CBZ in execute, its register not zero: an execute step that takes no branch. -/
theorem witness_EachResourceHasItsOneWriter_notTaken :
    let s := { atWork with taskEX := .running ⟨0xB4000041, 0x10, 1, 0, 2, false⟩ }
    performEvent (.stage .execute) s = .next (afterEvent (.stage .execute) s)
      ∧ decode 0xB4000041 = .ok (.cbz (.x 1) 2)
      ∧ ¬ IDEX.takesBranch ⟨0xB4000041, 0x10, 1, 0, 2, false⟩ := by
  refine ⟨rfl, rfl, ?_⟩
  rintro (⟨_, h⟩ | ⟨_, _, h, ha⟩ | ⟨_, _, h, _⟩)
  · cases h
  · exact absurd ha (by decide)
  · cases h

theorem witness_EachResourceHasItsOneWriter : performEvent .pulse atWork = .next (afterEvent .pulse atWork)
    ∧ performEvent (.stage .execute) atWork = .next (afterEvent (.stage .execute) atWork)
    ∧ performEvent (.stage .memory) atWork = .next (afterEvent (.stage .memory) atWork)
    ∧ performEvent (.stage .writeback) atWork = .next (afterEvent (.stage .writeback) atWork)
    ∧ performEvent (.stage .decode) (decoding 0x8B020020) = .next (afterEvent (.stage .decode) (decoding 0x8B020020))
    ∧ performEvent (.stage .fetch) { State.reset with taskIF := .running () }
        = .next (afterEvent (.stage .fetch) { State.reset with taskIF := .running () }) :=
  ⟨rfl, rfl, rfl, rfl, rfl, rfl⟩

/-! ### The invariants: a state at work that meets each, and a step from it -/

theorem witness_StepKeepsMemoryCanonical : atWork.MemoryOk ∧ ∃ t, step atWork = .next t :=
  ⟨atWork_memoryOk, _, rfl⟩

theorem witness_StepKeepsPipelineBookkeeping : atWork.PipelineOk ∧ ∃ t, step atWork = .next t :=
  ⟨atWork_pipelineOk, _, rfl⟩

theorem witness_StepKeepsPcAligned : atWork.PcOk ∧ ∃ t, step atWork = .next t := ⟨atWork_pcOk, _, rfl⟩

theorem witness_StepKeepsFetchOrder : atWork.BusyOk ∧ atWork.GateOk ∧ atWork.FetchOrderOk ∧ ∃ t, step atWork = .next t :=
  ⟨atWork_pipelineOk.1, atWork_pipelineOk.2.1, atWork_fetchOrderOk, _, rfl⟩

theorem witness_LockQueueIsNeverDequeuedEmpty : atWork.PipelineOk := atWork_pipelineOk

theorem witness_WritebackWritesTheInstructionsOwnDestination : atWork.PipelineOk ∧ atWork.fatal = none
    ∧ atWork.taskWB = .running ⟨0xD28000A1, 5⟩ ∧ decode 0xD28000A1 = .ok (.movz (.x 1) 0 5)
    ∧ dst (.movz (.x 1) 0 5) = some (.x 1) := ⟨atWork_pipelineOk, rfl, rfl, rfl, rfl⟩

/-- `ADD X0, X3, X3` in decode, its source unlocked, while MOVZ X1 is in writeback and STURB in memory access. -/
def decodingAtWork : State :=
  { atWork with taskEX := .done, idex := none, lq := [1], ifid := none, pc := 0x14
                taskID := .running ⟨0x8B030060, 0x14⟩, busyID := true }

theorem decodingAtWork_pipelineOk : decodingAtWork.PipelineOk := by
  refine ⟨⟨rfl, rfl, rfl, rfl, rfl⟩, ⟨rfl, fun h => by cases h⟩, ⟨?_, ?_, ?_⟩, ?_, ?_, ?_⟩
  · exact accepted_cons (w := 0xD28000A1) rfl rfl (accepted_cons (w := 0x38000022) rfl rfl accepted_nil)
  · exact notHlt (ws := [0xD28000A1, 0x38000022]) (by decide)
  · intro d h
    cases h
  · exact show decodingAtWork.lq = decodingAtWork.inFlight.flatMap reservesOf by decide
  · refine ⟨fun h => absurd rfl h, fun _ h => by cases h⟩
  · exact fun h => absurd rfl h

theorem decodingAtWork_fetchOrderOk : decodingAtWork.FetchOrderOk := by
  refine ⟨?_, ?_, ?_⟩
  · intro d h
    cases h
  · intro d h _
    cases h
    rfl
  · intro d f _ h
    cases h

theorem witness_EnabledDecodeHasNoOlderWriterInFlight : decodingAtWork.PipelineOk
    ∧ decodingAtWork.taskID = .running ⟨0x8B030060, 0x14⟩ ∧ decode 0x8B030060 = .ok (.add (.x 0) (.x 3) (.x 3))
    ∧ stageEnabled .decode decodingAtWork = true ∧ src1 (.add (.x 0) (.x 3) (.x 3)) = some (.x 3) :=
  ⟨decodingAtWork_pipelineOk, rfl, rfl, by decide, rfl⟩

/-- HLT in execute, MOVZ X3 behind it in IDEX, everything older retired. -/
def halting : State := { State.reset with
  phase := .started, pc := 0x18, lq := [3], taskEX := .running ⟨0xD4400000, 0x10, 0, 0, 0, false⟩, busyEX := true
  idex := some ⟨0xD28000E3, 0x14, 0, 0, 7, true⟩, taskIF := .done, busyIF := true }

theorem halting_pipelineOk : halting.PipelineOk := by
  refine ⟨⟨rfl, rfl, rfl, rfl, rfl⟩, ⟨rfl, fun h => by cases h⟩, ⟨?_, ?_, ?_⟩, ?_, ?_, ?_⟩
  · exact accepted_cons (w := 0xD4400000) rfl rfl (accepted_cons (w := 0xD28000E3) rfl rfl accepted_nil)
  · exact notHlt (ws := []) rfl
  · intro d h
    cases h
    decide
  · exact show halting.lq = halting.inFlight.flatMap reservesOf by decide
  · refine ⟨fun h => absurd rfl h, fun _ _ _ h => absurd rfl h⟩
  · exact fun h => absurd rfl h

theorem witness_HltHaltsOnlyWhenDrained : halting.PipelineOk
    ∧ halting.taskEX = .running ⟨0xD4400000, 0x10, 0, 0, 0, false⟩ ∧ decode 0xD4400000 = .ok .hlt
    ∧ ∃ t, performEvent (.stage .execute) halting = .next t := ⟨halting_pipelineOk, rfl, rfl, _, rfl⟩

theorem witness_ReferenceTickIsARunOfEvents : atWork.halted = false ∧ atWork.fatal = none ∧ ∃ t, tick atWork = .next t :=
  ⟨rfl, rfl, _, rfl⟩

theorem witness_OneInstructionThroughThePipelineIsTheStep : adding.Ready ∧ adding.BusyOk
    ∧ ∃ u, step adding = .next u ∧ ¬ u.ended := by
  refine ⟨adding_ready, ⟨rfl, rfl, rfl, rfl, rfl⟩, _, rfl, ?_⟩
  rintro (h | h)
  · exact absurd h (by decide)
  · exact h rfl

/-- A fetch running beside the pipeline at work. -/
def fetchingAtWork : State := { atWork with taskIF := .running (), ifid := none }

theorem fetchingAtWork_pipelineOk : fetchingAtWork.PipelineOk :=
  ⟨⟨rfl, rfl, rfl, rfl, rfl⟩, ⟨rfl, fun _ => rfl⟩, atWork_pipelineOk.2.2.1, atWork_pipelineOk.2.2.2.1,
    atWork_pipelineOk.2.2.2.2.1, fun h => absurd rfl h⟩

theorem fetchingAtWork_fetchOrderOk : fetchingAtWork.FetchOrderOk := by
  refine ⟨?_, ?_, ?_⟩
  · intro d h
    cases h
  · intro d h
    cases h
  · intro d f h
    cases h

/-- Each of the five events from a state at work, the branch of `atWork` taken. -/
theorem witness_PipelineEventsKeepTheCompletedState :
    (atWork.PipelineOk ∧ atWork.FetchOrderOk ∧ (∀ d, atWork.taskEX = .running d → decode d.instr ≠ .ok .hlt))
      ∧ (fetchingAtWork.PipelineOk ∧ fetchingAtWork.FetchOrderOk)
      ∧ (∃ t, performEvent .pulse atWork = .next t) ∧ (∃ t, performEvent (.stage .execute) atWork = .next t)
      ∧ (∃ t, performEvent (.stage .memory) atWork = .next t)
      ∧ (∃ t, performEvent (.stage .writeback) atWork = .next t)
      ∧ ∃ t, performEvent (.stage .fetch) fetchingAtWork = .next t := by
  refine ⟨⟨atWork_pipelineOk, atWork_fetchOrderOk, ?_⟩, ⟨fetchingAtWork_pipelineOk, fetchingAtWork_fetchOrderOk⟩,
    ⟨_, rfl⟩, ⟨_, rfl⟩, ⟨_, rfl⟩, ⟨_, rfl⟩, _, rfl⟩
  intro d h
  cases h
  exact notHlt (ws := [0x14000006]) (by decide) _ (by simp)

theorem witness_DecodeIssuesTheSequentialInstruction : decodingAtWork.PipelineOk ∧ decodingAtWork.FetchOrderOk
    ∧ decodingAtWork.taskID = .running ⟨0x8B030060, 0x14⟩ ∧ decode 0x8B030060 = .ok (.add (.x 0) (.x 3) (.x 3))
    ∧ (Instr.add (.x 0) (.x 3) (.x 3)).wellFormed = true ∧ Instr.add (.x 0) (.x 3) (.x 3) ≠ .hlt
    ∧ (decodingAtWork.taskEX.inputs.any (·.endsPath)) = false
    ∧ loadInRange (.add (.x 0) (.x 3) (.x 3)) decodingAtWork.completed
    ∧ ∃ t, performEvent (.stage .decode) decodingAtWork = .next t :=
  ⟨decodingAtWork_pipelineOk, decodingAtWork_fetchOrderOk, rfl, rfl, rfl, by decide, rfl, trivial, _, rfl⟩

end Sys2Proof.Tests
end

/-! # The pipeline's bookkeeping, kept by every step (10_state.md R11, R25, R30, R31) -/

namespace Sys2Proof.Machine

/-! ## Reservations of a word (46_pipeline_stages.md R182, R190) -/

theorem reservesOf_of_decode {w : IWord} {i : Instr} (h : decode w = .ok i) :
    reservesOf w = (reservation i).toList := by
  unfold reservesOf
  rw [h]

theorem reservesOf_hlt {w : IWord} (h : decode w = .ok .hlt) : reservesOf w = [] := reservesOf_of_decode h

/-- A word makes one reservation or none. -/
theorem reservesOf_nil_or_singleton (w : IWord) : reservesOf w = [] ∨ ∃ n, reservesOf w = [n] := by
  cases h : decode w with
  | error e => exact .inl (by unfold reservesOf; rw [h])
  | ok i =>
    rw [reservesOf_of_decode h]
    cases reservation i with
    | none => exact .inl rfl
    | some n => exact .inr ⟨n, rfl⟩

theorem wellFormed_eq_not_writesXzr (i : Instr) : i.wellFormed = !writesXzr i := by
  cases i <;> rfl

theorem onlySignals_eq_isNone_dst (i : Instr) : onlySignals i = (dst i).isNone := by
  cases i <;> rfl

/-- Decode accepts the word: its class is known and its destination is not 31 (46_pipeline_stages.md R177, R181). -/
def Accepted (w : IWord) : Prop := ∃ i, decode w = .ok i ∧ i.wellFormed = true

/-- Writeback dequeues for an accepted word exactly when decode reserved for it (46_pipeline_stages.md R182, R190). -/
theorem dequeues_of_accepted {w : IWord} (h : Accepted w) : dequeues w = !(reservesOf w).isEmpty := by
  obtain ⟨i, hi, hwf⟩ := h
  have hx : dst i ≠ some .xzr := by
    simpa [wellFormed_eq_not_writesXzr, writesXzr] using hwf
  have hd : dequeues w = !(dst i).isNone := by
    unfold dequeues
    rw [hi]
    simp [onlySignals_eq_isNone_dst]
  rw [hd, reservesOf_of_decode hi, reservation]
  cases hr : dst i with
  | none => rfl
  | some r =>
    cases r with
    | x n => rfl
    | xzr => exact absurd hr hx

/-! ## The bookkeeping apart from idleness before the first pulse -/

/-- The parts of `PipelineOk` that speak of no phase. -/
structure State.Bookkeeping (s : State) : Prop where
  busy : s.BusyOk
  gate : s.GateOk
  accepted : s.AcceptedOk
  lockQueue : s.LockQueueOk
  drain : s.DrainOk

theorem pipelineOk_iff {s : State} : s.PipelineOk ↔ s.Bookkeeping ∧ s.IdleOk :=
  ⟨fun ⟨b, g, a, l, d, i⟩ => ⟨⟨b, g, a, l, d⟩, i⟩, fun ⟨⟨b, g, a, l, d⟩, i⟩ => ⟨b, g, a, l, d, i⟩⟩

theorem idleOk_of_started {s : State} (h : s.phase = .started) : s.IdleOk := fun hn => absurd h hn

/-- A stage has work only in a run that has started (70_reset_and_hazards.md R272). -/
theorem started_of_stageEnabled {st : Stage} {s : State} (h : s.IdleOk) (he : stageEnabled st s = true) :
    s.phase = .started := by
  by_contra hn
  obtain ⟨hIF, hID, hEX, hMEM, hWB, -⟩ := h hn
  cases st <;> simp [stageEnabled, *] at he

theorem inputs_of_idle {α : Type} {t : Task α} (h : t = .none ∨ t = .done) : t.inputs = [] := by
  obtain rfl | rfl := h <;> rfl

/-- The bookkeeping speaks of the control state alone. -/
theorem State.Bookkeeping.of_data {s : State} (h : s.Bookkeeping) (regs : Vector Word 31) (pc : Word) (flags : Flags)
    (mem : Memory) (mar mdr : Word) (halted : Bool) (fatal : Option FatalCause) (params : Params) (phase : Phase) :
    State.Bookkeeping { s with
      regs := regs, pc := pc, flags := flags, mem := mem, mar := mar, mdr := mdr, halted := halted, fatal := fatal
      params := params, phase := phase } :=
  ⟨h.busy, h.gate, h.accepted, h.lockQueue, h.drain⟩

/-- The same words in flight and past execute, the same LockQueue, and IDEX unchanged or emptied: what is said of the
words still holds. -/
theorem State.Bookkeeping.of_same_words {s t : State} (h : s.Bookkeeping) (hin : t.inFlight = s.inFlight)
    (hpast : t.pastExecute = s.pastExecute) (hlq : t.lq = s.lq) (hidex : t.idex = s.idex ∨ t.idex = none)
    (busy : t.BusyOk) (gate : t.GateOk) (drain : t.DrainOk) : t.Bookkeeping := by
  obtain ⟨acc, noHlt, res⟩ := h.accepted
  refine ⟨busy, gate, ⟨?_, ?_, ?_⟩, ?_, drain⟩
  · rw [hin]; exact acc
  · rw [hpast]; exact noHlt
  · intro d hd
    obtain e | e := hidex <;> rw [e] at hd
    · exact res d hd
    · cases hd
  · unfold State.LockQueueOk
    rw [hlq, hin]
    exact h.lockQueue

/-! ## A pulse (47_pipeline_control.md R203, R204): tail first, so that each admission finds the stage after it
already admitted -/

theorem admitWB_keeps {s : State} (h : s.Bookkeeping) :
    (launchWB (clearWB s)).Bookkeeping
      ∧ ((launchWB (clearWB s)).memwb ≠ none → (launchWB (clearWB s)).busyWB = true) := by
  obtain ⟨hIF, hID, hEX, hMEM, hWB⟩ := h.busy
  obtain ⟨-, hdrain⟩ := h.drain
  obtain ⟨hb, -, e⟩ | ⟨ht, m, hm, e⟩ | ⟨ht, hm, e⟩ := admitWB_cases hWB <;> rw [e]
  · exact ⟨h, fun _ => hb⟩
  · refine ⟨h.of_same_words ?_ ?_ rfl (.inl rfl) ⟨hIF, hID, hEX, hMEM, rfl⟩ h.gate ⟨?_, hdrain⟩, ?_⟩
    · simp [State.inFlight, State.pastExecute, inputs_of_idle ht, hm]
    · simp [State.pastExecute, inputs_of_idle ht, hm]
    · exact fun hn => absurd rfl hn
    · exact fun hn => absurd rfl hn
  · refine ⟨h.of_same_words ?_ ?_ rfl (.inl rfl) ⟨hIF, hID, hEX, hMEM, rfl⟩ h.gate ⟨?_, hdrain⟩, ?_⟩
    · simp [State.inFlight, State.pastExecute, inputs_of_idle ht]
    · simp [State.pastExecute, inputs_of_idle ht]
    · exact fun hn => absurd hm hn
    · exact fun hn => absurd hm hn

theorem admitMEM_keeps {s : State} (h : s.Bookkeeping) (hcov : s.memwb ≠ none → s.busyWB = true) :
    (launchMEM (clearMEM s)).Bookkeeping
      ∧ ((launchMEM (clearMEM s)).exmem ≠ none → (launchMEM (clearMEM s)).busyMEM = true) := by
  obtain ⟨hIF, hID, hEX, hMEM, hWB⟩ := h.busy
  obtain ⟨hb, -, e⟩ | ⟨ht, m, hm, e⟩ | ⟨ht, hm, e⟩ := admitMEM_cases hMEM <;> rw [e]
  · exact ⟨h, fun _ => hb⟩
  · refine ⟨h.of_same_words ?_ ?_ rfl (.inl rfl) ⟨hIF, hID, hEX, rfl, hWB⟩ h.gate ⟨?_, ?_⟩, ?_⟩
    · simp [State.inFlight, State.pastExecute, inputs_of_idle ht, hm]
    · simp [State.pastExecute, inputs_of_idle ht, hm]
    · exact fun hn => .inl (hcov hn)
    · exact fun _ _ _ hn => absurd rfl hn
    · exact fun hn => absurd rfl hn
  · refine ⟨h.of_same_words ?_ ?_ rfl (.inl rfl) ⟨hIF, hID, hEX, rfl, hWB⟩ h.gate ⟨?_, ?_⟩, ?_⟩
    · simp [State.inFlight, State.pastExecute, inputs_of_idle ht]
    · simp [State.pastExecute, inputs_of_idle ht]
    · exact fun hn => .inl (hcov hn)
    · exact fun _ _ _ hn => absurd hm hn
    · exact fun hn => absurd hm hn

theorem admitEX_keeps {s : State} (h : s.Bookkeeping) (hcov : s.exmem ≠ none → s.busyMEM = true) :
    (launchEX (clearEX s)).Bookkeeping := by
  obtain ⟨hIF, hID, hEX, hMEM, hWB⟩ := h.busy
  obtain ⟨hdrain, -⟩ := h.drain
  obtain ⟨-, -, e⟩ | ⟨ht, -, d, hd, e⟩ | ⟨ht, -, e⟩ := admitEX_cases hEX <;> rw [e]
  · exact h
  · refine h.of_same_words ?_ rfl rfl (.inr rfl) ⟨hIF, hID, rfl, hMEM, hWB⟩ h.gate ⟨hdrain, fun _ _ _ => hcov⟩
    simp [State.inFlight, State.pastExecute, inputs_of_idle ht, hd]
  · refine h.of_same_words ?_ rfl rfl (.inl rfl) ⟨hIF, hID, rfl, hMEM, hWB⟩ h.gate ⟨hdrain, fun _ _ _ => hcov⟩
    simp [State.inFlight, State.pastExecute, inputs_of_idle ht]

theorem admitID_keeps {s : State} (h : s.Bookkeeping) : (launchID (clearID s)).Bookkeeping := by
  obtain ⟨hIF, hID, hEX, hMEM, hWB⟩ := h.busy
  obtain ⟨released, -⟩ := h.gate
  obtain ⟨-, -, e⟩ | ⟨-, d, -, e⟩ | ⟨-, hd, e⟩ := admitID_cases hID <;> rw [e]
  · exact h
  · exact ⟨⟨hIF, rfl, hEX, hMEM, hWB⟩, ⟨released, fun _ => rfl⟩, h.accepted, h.lockQueue, h.drain⟩
  · exact ⟨⟨hIF, rfl, hEX, hMEM, hWB⟩, ⟨released, fun _ => hd⟩, h.accepted, h.lockQueue, h.drain⟩

theorem admitIF_keeps {s : State} (h : s.Bookkeeping) : (launchIF (clearIF s)).Bookkeeping := by
  obtain ⟨hIF, hID, hEX, hMEM, hWB⟩ := h.busy
  obtain ⟨released, -⟩ := h.gate
  obtain ⟨-, -, e⟩ | ⟨-, hd, e⟩ | ⟨-, -, e⟩ := admitIF_cases hIF <;> rw [e]
  · exact h
  · exact ⟨⟨rfl, hID, hEX, hMEM, hWB⟩, ⟨released, fun _ => hd⟩, h.accepted, h.lockQueue, h.drain⟩
  · exact ⟨⟨rfl, hID, hEX, hMEM, hWB⟩, ⟨released, nofun⟩, h.accepted, h.lockQueue, h.drain⟩

theorem pulse_keeps_bookkeeping {s : State} (h : s.Bookkeeping) : (pulse s).Bookkeeping := by
  obtain ⟨hWB, coverMEMWB⟩ := admitWB_keeps h
  obtain ⟨hMEM, coverEXMEM⟩ := admitMEM_keeps hWB coverMEMWB
  exact admitIF_keeps (admitID_keeps (admitEX_keeps hMEM coverEXMEM))

/-! ## Fetch and decode -/

theorem fetchStep_keeps {s : State} (h : s.Bookkeeping) (ht : s.taskIF = .running ()) : (fetchStep s).Bookkeeping := by
  obtain ⟨hIF, hID, hEX, hMEM, hWB⟩ := h.busy
  obtain ⟨released, -⟩ := h.gate
  rw [ht] at hIF
  rw [fetchStep_eq]
  exact ⟨⟨hIF, hID, hEX, hMEM, hWB⟩, ⟨released, nofun⟩, h.accepted, h.lockQueue, h.drain⟩

theorem reserve_eq (i : Instr) (s : State) : reserve i s = { s with lq := s.lq ++ (reservation i).toList } := by
  unfold reserve
  cases reservation i with
  | none => simp
  | some n => rfl

/-- The decode step waits for an empty IDEX to publish into (46_pipeline_stages.md R181, R192). -/
theorem idex_none_of_decodeEnabled {d : IFID} {s : State} {i : Instr} (he : decodeEnabled d s = true)
    (hi : decode d.instr = .ok i) (hx : writesXzr i = false) : s.idex = none := by
  unfold decodeEnabled at he
  simp only [hi, hx, Bool.false_or, Bool.and_eq_true, Option.isNone_iff_eq_none] at he
  exact he.2

/-- Decode's publication adds the youngest word in flight, and its reservation behind those of the others
(46_pipeline_stages.md R182, R183). -/
theorem decodeStep_keeps {d : IFID} {s : State} (h : s.Bookkeeping) (ht : s.taskID = .running d)
    (he : decodeEnabled d s = true) : (decodeStep d s).Bookkeeping := by
  obtain ⟨c, e⟩ | ⟨i, hi, hx, e⟩ := decodeStep_cases d s <;> rw [e]
  · exact h.of_data ..
  rw [reserve_eq]
  obtain ⟨hIF, hID, hEX, hMEM, hWB⟩ := h.busy
  obtain ⟨acc, noHlt, -⟩ := h.accepted
  rw [ht] at hID
  have hin : ∀ l, State.inFlight { s with lq := l, idex := some (idexRecord d i s), taskID := .done }
      = s.inFlight ++ [d.instr] := by
    simp [State.inFlight, State.pastExecute, idex_none_of_decodeEnabled he hi hx, idexRecord]
  refine ⟨⟨hIF, hID, hEX, hMEM, hWB⟩, h.gate, ⟨?_, noHlt, ?_⟩, ?_, h.drain⟩
  · rw [hin]
    refine List.forall_mem_append.2 ⟨acc, List.forall_mem_singleton.2 ⟨i, hi, ?_⟩⟩
    rw [wellFormed_eq_not_writesXzr, hx]
    rfl
  · rintro - ⟨⟩
    simp only [idexRecord, reservesOf_of_decode hi]
    cases reservation i <;> rfl
  · unfold State.LockQueueOk
    rw [hin, List.flatMap_append, List.flatMap_singleton, reservesOf_of_decode hi]
    exact congrArg (· ++ _) h.lockQueue

/-! ## Execute -/

/-- Without IDEX's reservation the LockQueue is the reservations of the words that a flush leaves in flight
(47_pipeline_control.md R207). -/
theorem lq_without_idex {s : State} (h : s.Bookkeeping) :
    (if s.idexReserved then s.lq.dropLast else s.lq)
      = (s.pastExecute ++ s.taskEX.inputs.map (·.instr)).flatMap reservesOf := by
  have hl : s.lq = _ := h.lockQueue
  obtain ⟨-, -, res⟩ := h.accepted
  rw [hl, State.inFlight, List.flatMap_append, State.idexReserved]
  cases hd : s.idex with
  | none => simp
  | some d =>
    obtain e | ⟨n, e⟩ := reservesOf_nil_or_singleton d.instr <;> simp [res d hd, e]

theorem flush_keeps {s : State} (h : s.Bookkeeping) (target : Word) : (flush target s).Bookkeeping := by
  obtain ⟨-, -, hEX, hMEM, hWB⟩ := h.busy
  obtain ⟨acc, noHlt, -⟩ := h.accepted
  have hin : (flush target s).inFlight = s.pastExecute ++ s.taskEX.inputs.map (·.instr) := by
    simp [State.inFlight, State.pastExecute]
  have hlq : (flush target s).lq = (flush target s).inFlight.flatMap reservesOf := by
    rw [hin, flush_lq, lq_without_idex h]
  rw [flush_eq] at hin hlq ⊢
  refine ⟨⟨rfl, rfl, hEX, hMEM, hWB⟩, ⟨rfl, nofun⟩, ⟨?_, noHlt, nofun⟩, hlq, h.drain⟩
  rw [hin]
  exact fun w hw => acc w (List.mem_append_left _ hw)

theorem resolveBranch_keeps {s : State} (h : s.Bookkeeping) (taken : Option Word) :
    (resolveBranch taken s).Bookkeeping := by
  cases taken with
  | none => exact h
  | some target =>
    have e : resolveBranch (some target) s = flush target s := by
      simp only [resolveBranch, flush_eq]
      rfl
    rw [e]
    exact flush_keeps h target

@[simp] theorem resolveBranch_taskEX (taken : Option Word) (s : State) :
    (resolveBranch taken s).taskEX = s.taskEX := by
  cases taken <;> simp [resolveBranch]

@[simp] theorem resolveBranch_exmem (taken : Option Word) (s : State) :
    (resolveBranch taken s).exmem = s.exmem := by
  cases taken <;> simp [resolveBranch]

/-- Publication into an empty EXMEM moves the word past execute (46_pipeline_stages.md R186). -/
theorem publishEXMEM_keeps {s : State} {d : IDEX} (h : s.Bookkeeping) (ht : s.taskEX = .running d)
    (hempty : s.exmem = none) (hd : decode d.instr ≠ .ok .hlt) (res wdata : Word) :
    State.Bookkeeping { s with exmem := some ⟨d.instr, res, wdata⟩, taskEX := .done } := by
  obtain ⟨hIF, hID, hEX, hMEM, hWB⟩ := h.busy
  obtain ⟨acc, noHlt, hres⟩ := h.accepted
  obtain ⟨hdrain, -⟩ := h.drain
  rw [ht] at hEX
  have hpast : State.pastExecute { s with exmem := some ⟨d.instr, res, wdata⟩, taskEX := .done }
      = s.pastExecute ++ [d.instr] := by
    simp [State.pastExecute, hempty]
  have hin : State.inFlight { s with exmem := some ⟨d.instr, res, wdata⟩, taskEX := .done } = s.inFlight := by
    rw [State.inFlight, hpast]
    simp [State.inFlight, ht]
  refine ⟨⟨hIF, hID, hEX, hMEM, hWB⟩, h.gate, ⟨?_, ?_, hres⟩, ?_, hdrain, nofun⟩
  · rw [hin]; exact acc
  · rw [hpast]; exact List.forall_mem_append.2 ⟨noHlt, List.forall_mem_singleton.2 hd⟩
  · unfold State.LockQueueOk; rw [hin]; exact h.lockQueue

/-- HLT leaves execute without publishing; it had made no reservation (44_system.md R150, R152). -/
theorem retireHlt_keeps {s : State} {d : IDEX} (h : s.Bookkeeping) (ht : s.taskEX = .running d)
    (hd : decode d.instr = .ok .hlt) : State.Bookkeeping { requestHalt s with taskEX := .done } := by
  obtain ⟨hIF, hID, hEX, hMEM, hWB⟩ := h.busy
  obtain ⟨acc, noHlt, hres⟩ := h.accepted
  obtain ⟨hdrain, -⟩ := h.drain
  have hl : s.lq = _ := h.lockQueue
  rw [ht] at hEX
  have hin : State.inFlight { requestHalt s with taskEX := .done }
      = s.pastExecute ++ s.idex.toList.map (·.instr) := by
    simp [State.inFlight, State.pastExecute]
  refine ⟨⟨hIF, hID, hEX, hMEM, hWB⟩, h.gate, ⟨?_, noHlt, hres⟩, ?_, hdrain, nofun⟩
  · rw [hin]
    refine fun w hw => acc w ?_
    rw [State.inFlight, List.append_assoc]
    exact (List.mem_append.1 hw).elim (List.mem_append_left _) fun hw =>
      List.mem_append_right _ (List.mem_append_right _ hw)
  · unfold State.LockQueueOk
    rw [hin]
    simpa [State.inFlight, ht, reservesOf_hlt hd] using hl

theorem executeStep_keeps {s : State} {d : IDEX} (h : s.Bookkeeping) (ht : s.taskEX = .running d)
    (he : executeEnabled d s = true) : (executeStep d s).Bookkeeping := by
  obtain ⟨e, -⟩ | ⟨e, hd⟩ | ⟨i, o, hi, hu, e⟩ := executeStep_cases d s <;> rw [e]
  · exact h.of_data ..
  · exact retireHlt_keeps h ht hd
  · have hne : i ≠ .hlt := fun hhlt => by
      rw [(executeUnit_none_iff ..).2 hhlt] at hu
      cases hu
    rw [executeEnabled_other s hi hne, Option.isNone_iff_eq_none] at he
    have hflags : (setFlags o.flags s).Bookkeeping := h.of_data ..
    refine publishEXMEM_keeps (resolveBranch_keeps hflags o.taken) (by simpa using ht) (by simpa using he) ?_ _ _
    simpa [hi] using hne

/-! ## Memory access and writeback -/

/-- The memory-access unit touches Memory, MAR, MDR and the halt bit alone (46_pipeline_stages.md R188). -/
theorem memoryUnit_frame (i : Instr) (res wdata : Word) (s : State) : ∃ mem mar mdr halted,
    (memoryUnit i res wdata s).1 = { s with mem := mem, mar := mar, mdr := mdr, halted := halted } := by
  obtain ⟨view, e⟩ | ⟨w, e⟩ | e := memoryUnit_cases i res wdata s <;> rw [e]
  · exact ⟨_, _, _, _, congrArg Prod.fst (loadVia_eq view res s)⟩
  · exact ⟨_, _, _, _, congrArg Prod.fst (storeVia_eq w res wdata s)⟩
  · exact ⟨_, _, _, _, rfl⟩

/-- The memory-access step hands its word on to MEMWB. -/
theorem memoryStep_frame (e : EXMEM) (s : State) : ∃ mem mar mdr halted val,
    memoryStep e s = { s with
      mem := mem, mar := mar, mdr := mdr, halted := halted, memwb := some ⟨e.instr, val⟩, taskMEM := .done } := by
  obtain ⟨r, hr, ⟨i, -, rfl⟩ | ⟨-, rfl⟩⟩ := memoryStep_eq e s <;> rw [hr]
  · obtain ⟨mem, mar, mdr, halted, hu⟩ := memoryUnit_frame i e.res e.wdata s
    rw [hu]
    exact ⟨_, _, _, _, _, rfl⟩
  · exact ⟨_, _, _, _, _, rfl⟩

theorem memoryStep_keeps {s : State} {e : EXMEM} (h : s.Bookkeeping) (ht : s.taskMEM = .running e)
    (hempty : s.memwb = none) : (memoryStep e s).Bookkeeping := by
  obtain ⟨hIF, hID, hEX, hMEM, hWB⟩ := h.busy
  obtain ⟨-, hdrain⟩ := h.drain
  rw [ht] at hMEM
  obtain ⟨mem, mar, mdr, halted, val, eq⟩ := memoryStep_frame e s
  rw [eq]
  refine h.of_same_words ?_ ?_ rfl (.inl rfl) ⟨hIF, hID, hEX, hMEM, hWB⟩ h.gate ⟨fun _ => .inr hMEM, hdrain⟩
  · simp [State.inFlight, State.pastExecute, ht, hempty]
  · simp [State.pastExecute, ht, hempty]

/-- The word in writeback is the oldest in flight. -/
theorem inFlight_of_writeback {s : State} {m : MEMWB} (ht : s.taskWB = .running m) :
    s.inFlight = m.instr :: State.inFlight { s with taskWB := .done } := by
  simp [State.inFlight, State.pastExecute, ht]

/-- The reservation of the word in writeback is the LockQueue's head (10_state.md R25). -/
theorem lq_of_writeback {s : State} {m : MEMWB} (h : s.Bookkeeping) (ht : s.taskWB = .running m) :
    s.lq = reservesOf m.instr ++ (State.inFlight { s with taskWB := .done }).flatMap reservesOf := by
  rw [← List.flatMap_cons, ← inFlight_of_writeback ht]
  exact h.lockQueue

theorem accepted_of_writeback {s : State} {m : MEMWB} (h : s.Bookkeeping) (ht : s.taskWB = .running m) :
    Accepted m.instr := by
  obtain ⟨acc, -, -⟩ := h.accepted
  exact acc _ (by rw [inFlight_of_writeback ht]; exact List.mem_cons_self)

/-- With the word in writeback its reservation leaves the LockQueue (46_pipeline_stages.md R190). -/
theorem retireWB_keeps {s : State} {m : MEMWB} (h : s.Bookkeeping) (ht : s.taskWB = .running m)
    {rest : List (Fin 31)} (hlq : s.lq = reservesOf m.instr ++ rest) :
    State.Bookkeeping { s with lq := rest, taskWB := .done } := by
  obtain ⟨hIF, hID, hEX, hMEM, hWB⟩ := h.busy
  obtain ⟨acc, noHlt, hres⟩ := h.accepted
  rw [ht] at hWB
  have hpast : s.pastExecute = m.instr :: State.pastExecute { s with taskWB := .done } := by
    simp [State.pastExecute, ht]
  rw [inFlight_of_writeback ht] at acc
  rw [hpast] at noHlt
  exact ⟨⟨hIF, hID, hEX, hMEM, hWB⟩, h.gate,
    ⟨(List.forall_mem_cons.1 acc).2, (List.forall_mem_cons.1 noHlt).2, hres⟩,
    List.append_cancel_left (hlq.symm.trans (lq_of_writeback h ht)), h.drain⟩

theorem writebackStep_keeps {s t : State} {m : MEMWB} (h : s.Bookkeeping) (ht : s.taskWB = .running m)
    (e : writebackStep m s = .next t) : t.Bookkeeping := by
  have hdeq := dequeues_of_accepted (accepted_of_writeback h ht)
  have hlq := lq_of_writeback h ht
  obtain ⟨hd, n, rest, hs, rfl⟩ | ⟨hd, rfl⟩ := writebackStep_next e <;> rw [hdeq] at hd
  · obtain hr | ⟨k, hr⟩ := reservesOf_nil_or_singleton m.instr
    · simp [hr] at hd
    · have hk : n = k := by
        rw [hs, hr] at hlq
        exact (List.cons.inj hlq).1
      exact (retireWB_keeps h ht (rest := rest) (by rw [hs, hr, hk]; rfl)).of_data ..
  · have hr : reservesOf m.instr = [] := by simpa using hd
    exact retireWB_keeps h ht (rest := s.lq) (by rw [hr]; rfl)

/-! ## Every event -/

theorem stageStep_keeps_bookkeeping {st : Stage} {s t : State} (h : s.Bookkeeping) (he : stageEnabled st s = true)
    (e : stageStep st s = .next t) : t.Bookkeeping := by
  cases st with
  | fetch =>
    cases e
    exact fetchStep_keeps h (stageEnabled_fetch.1 he)
  | decode =>
    obtain ⟨d, ht, he⟩ := stageEnabled_decode.1 he
    simp only [stageStep, ht] at e
    cases e
    exact decodeStep_keeps h ht he
  | execute =>
    obtain ⟨d, ht, he⟩ := stageEnabled_execute.1 he
    simp only [stageStep, ht] at e
    cases e
    exact executeStep_keeps h ht he
  | memory =>
    obtain ⟨d, ht, he⟩ := stageEnabled_memory.1 he
    simp only [stageStep, ht] at e
    cases e
    exact memoryStep_keeps h ht he
  | writeback =>
    obtain ⟨m, ht⟩ := stageEnabled_writeback.1 he
    simp only [stageStep, ht] at e
    exact writebackStep_keeps h ht e

theorem stageStep_pipelineOk {st : Stage} {s t : State} (h : s.PipelineOk) (he : stageEnabled st s = true)
    (e : stageStep st s = .next t) : t.PipelineOk := by
  obtain ⟨hb, hidle⟩ := pipelineOk_iff.1 h
  obtain ⟨-, hphase, -⟩ := stageStep_host e
  exact pipelineOk_iff.2 ⟨stageStep_keeps_bookkeeping hb he e,
    idleOk_of_started (hphase.trans (started_of_stageEnabled hidle he))⟩

/-- The first pulse of a run ends the time in which nothing may be in flight. -/
theorem beginRun_pipelineOk {s : State} (h : s.PipelineOk) : (beginRun s).PipelineOk := by
  obtain ⟨hb, -⟩ := pipelineOk_iff.1 h
  exact pipelineOk_iff.2 ⟨hb.of_data .., idleOk_of_started rfl⟩

theorem pulse_pipelineOk {s : State} (h : s.PipelineOk) : (pulse (beginRun s)).PipelineOk := by
  obtain ⟨hb, -⟩ := pipelineOk_iff.1 (beginRun_pipelineOk h)
  obtain ⟨-, hphase, -⟩ := pulse_host (beginRun s)
  exact pipelineOk_iff.2 ⟨pulse_keeps_bookkeeping hb, idleOk_of_started hphase⟩

/-- What an instruction's meaning can change is no part of the bookkeeping. -/
theorem pipelineOk_of_data {s : State} (h : s.PipelineOk) (regs : Vector Word 31) (pc : Word) (flags : Flags)
    (mem : Memory) (mar mdr : Word) (halted : Bool) (fatal : Option FatalCause) : State.PipelineOk { s with
      regs := regs, pc := pc, flags := flags, mem := mem, mar := mar, mdr := mdr, halted := halted, fatal := fatal } := h

/-- One instruction alone leaves the pipeline as it was (log 33). -/
theorem instructionStep_pipelineOk {s t : State} (h : s.PipelineOk) (e : instructionStep s = .next t) :
    t.PipelineOk := by
  have hf : (fetchAccess s).PipelineOk := by
    rw [fetchAccess_eq]
    exact pipelineOk_of_data h ..
  obtain rfl | ⟨i, -, e⟩ | rfl := instructionStep_next e
  · exact hf
  · obtain ⟨_, _, _, _, _, _, _, _, e'⟩ := exec_next i (fetchAccess s)
    rw [e'] at e
    cases e
    exact pipelineOk_of_data hf ..
  · exact pipelineOk_of_data hf ..

/-- `reset()` empties the pipeline (47_pipeline_control.md R210). -/
theorem resetCore_pipelineOk (s : State) : (resetCore s).PipelineOk :=
  ⟨⟨rfl, rfl, rfl, rfl, rfl⟩, ⟨rfl, nofun⟩, ⟨nofun, nofun, nofun⟩, rfl, ⟨nofun, nofun⟩,
    fun _ => ⟨rfl, rfl, rfl, rfl, rfl, rfl, rfl, rfl, rfl⟩⟩

/-- Memory is created before the first pulse, when nothing is in flight. -/
theorem createMemory_pipelineOk {s : State} (h : s.PipelineOk) (hp : s.phase = .unsized) (size : Nat) :
    (createMemory size s).PipelineOk := by
  obtain ⟨hb, hidle⟩ := pipelineOk_iff.1 h
  exact pipelineOk_iff.2 ⟨hb.of_data .., fun _ => hidle (by rw [hp]; nofun)⟩

theorem loadImage_pipelineOk {s : State} (h : s.PipelineOk) (image : List IWord) : (loadImage image s).PipelineOk :=
  pipelineOk_of_data h ..

/-- Settles O47: each kind of event keeps the bookkeeping. -/
theorem stepKeepsPipelineBookkeeping : Obligations.StepKeepsPipelineBookkeeping := by
  intro s t hs h
  refine step_keeps (P := State.PipelineOk) ?schedule ?pulse ?stage ?instruction ?reset ?create ?zero ?flash ?load hs h
  case schedule => exact fun s _ hs => hs
  case pulse => exact fun s hs _ _ => pulse_pipelineOk hs
  case stage => exact fun st s t hs _ he e => stageStep_pipelineOk hs he e
  case instruction => exact fun s t hs _ _ e => instructionStep_pipelineOk (beginRun_pipelineOk hs) e
  case reset => exact fun s _ => resetCore_pipelineOk s
  case create => exact fun s size hs hp => createMemory_pipelineOk hs hp size
  case zero => exact fun s hs => pipelineOk_of_data hs ..
  case flash => exact fun s image hs hp => loadImage_pipelineOk (createMemory_pipelineOk hs hp _) image
  case load => exact fun s image hs _ => loadImage_pipelineOk hs image

/-- Settles O10: by the laws of a register write. -/
theorem registerReadsWhatWasLastWritten : Obligations.RegisterReadsWhatWasLastWritten :=
  fun s n v => ⟨writeReg_x_same n v s, fun _ hr => writeReg_x_other hr v s, x_xzr s, x_xzr (writeReg n v s)⟩

end Sys2Proof.Machine


/-! # Memory: the byte accesses, the MMU, and the canonical form that every step keeps (20_memory.md) -/

namespace Sys2Proof.Machine

/-! ## A byte as a program reads it (20_memory.md R44, R45) -/

theorem inRange_iff {s : State} {a : Word} : s.inRange a = true ↔ a.toNat < s.params.memSize := by
  simp [State.inRange]

theorem inRange_eq_false_iff {s : State} {a : Word} : s.inRange a = false ↔ s.params.memSize ≤ a.toNat := by
  simp [State.inRange]

theorem byteAt_inRange {s : State} {a : Word} (h : s.inRange a = true) : s.byteAt a = Memory.read s.mem a.toNat :=
  if_pos h

/-- Equal parameters and equal cells give equal bytes, in range or not. -/
theorem byteAt_of_read {s t : State} (hp : t.params = s.params) {a : Word}
    (hr : Memory.read t.mem a.toNat = Memory.read s.mem a.toNat) : t.byteAt a = s.byteAt a := by
  simp [State.byteAt, State.inRange, hp, hr]

/-! ## Byte accesses (20_memory.md R44 to R46) -/

theorem memByteRead_inRange {s : State} {a : Word} (h : s.inRange a = true) :
    memByteRead s a = (s, Memory.read s.mem a.toNat) := by
  simp [memByteRead, requestHaltUnless, byteAt_inRange h, h]

theorem memByteWrite_inRange {s : State} {a : Word} (h : s.inRange a = true) (b : Byte) :
    memByteWrite s a b = { s with mem := Memory.write s.mem a.toNat b } := by
  simp [memByteWrite_eq, h]

theorem memByteWrite_byteAt_same {s : State} {a : Word} (h : s.inRange a = true) (b : Byte)
    (canonical : Memory.wf s.mem = true) : (memByteWrite s a b).byteAt a = b := by
  rw [memByteWrite_inRange h, byteAt_inRange]
  · exact Memory.read_write_same canonical a.toNat b
  · exact h

theorem memByteWrite_byteAt_other {s : State} {a a' : Word} (h : s.inRange a = true) (b : Byte) (hne : a' ≠ a) :
    (memByteWrite s a b).byteAt a' = s.byteAt a' := by
  rw [memByteWrite_inRange h]
  apply byteAt_of_read
  · rfl
  · exact Memory.read_write_other (BitVec.toNat_ne.1 hne) s.mem b

/-- Settles O11: by the closed forms in range and the laws of a write to Memory. -/
theorem byteAccessInRange : Obligations.ByteAccessInRange := by
  intro s a b hlt
  have h : s.inRange a = true := inRange_iff.2 hlt
  exact ⟨memByteRead_inRange h, memByteWrite_byteAt_same h b, fun _ hne => memByteWrite_byteAt_other h b hne,
    by rw [memByteWrite_inRange h]⟩

/-- Settles O12: by the two operations' own branches out of bounds. -/
theorem byteAccessOutOfBoundsRequestsHalt : Obligations.ByteAccessOutOfBoundsRequestsHalt := by
  intro s a b hle
  have h : s.inRange a = false := inRange_eq_false_iff.2 hle
  constructor
  · simp [memByteRead, requestHaltUnless, State.byteAt, h]
  · simp [memByteWrite_eq, h]

/-! ## MMURead (20_memory.md R48, R62) -/

/-- Byte `k + 1`, counted from the least significant, is byte `k` of what stands before the last byte. -/
theorem extractByte_append_succ {n : Nat} (x : BitVec n) (b : Byte) (k : Nat) :
    (x ++ b).extractLsb' (8 * (k + 1)) 8 = x.extractLsb' (8 * k) 8 :=
  BitVec.extractLsb'_append_eq_of_le (Nat.le_add_left 8 (8 * k))

/-- Byte `i` of the eight from `a` up, the most significant first. -/
theorem wordAt_byte (s : State) (a : Word) {i : Nat} (hi : i < 8) :
    (s.wordAt a).extractLsb' (8 * (7 - i)) 8 = s.byteAt (a + BitVec.ofNat 64 i) := by
  unfold State.wordAt
  interval_cases i <;>
    simp only [Nat.reduceSub, extractByte_append_succ, Nat.mul_zero, BitVec.extractLsb'_append_eq_right,
      BitVec.extractLsb'_eq_self, BitVec.ofNat_eq_ofNat, BitVec.add_zero]

theorem spanInRange_eq_false_iff {s : State} {a : Word} {n : Nat} :
    s.spanInRange a n = false ↔ ∃ i, i < n ∧ s.params.memSize ≤ (a + BitVec.ofNat 64 i).toNat := by
  rw [← Bool.not_eq_true, spanInRange_iff]
  simp [inRange_iff]

/-- Settles O13: MDR byte by byte, and the bounds of the eight bytes. -/
theorem mmuReadIsEightBytesBigEndian : Obligations.MmuReadIsEightBytesBigEndian := by
  intro s a
  rw [mmuRead_eq]
  refine ⟨fun i hi => wordAt_byte s a hi, ?_, rfl⟩
  rw [← spanInRange_eq_false_iff]
  simp

/-! ## MMUWrite (20_memory.md R49, R62) -/

theorem lowBytes_getElem (v : Word) (n i : Nat) (hi : i < (lowBytes v n).length) :
    (lowBytes v n)[i] = v.extractLsb' (8 * (n - 1 - i)) 8 := by
  induction n generalizing i with
  | zero => exact absurd hi (Nat.not_lt_zero i)
  | succ n ih =>
    cases i with
    | zero => rfl
    | succ i =>
      have e : n + 1 - 1 - (i + 1) = n - 1 - i := by omega
      rw [e]
      exact ih i (Nat.lt_of_succ_lt_succ hi)

theorem Width.bytes_le_eight (w : Width) : w.bytes ≤ 8 := by cases w <;> decide

/-- A stored byte in range. -/
theorem mmuWrite_byteAt_inside {s : State} (canonical : Memory.wf s.mem = true) (a : Word) (w : Width) (v : Word)
    {i : Nat} (hi : i < w.bytes) (hr : s.inRange (a + BitVec.ofNat 64 i) = true) :
    (mmuWrite a w v s).byteAt (a + BitVec.ofNat 64 i) = v.extractLsb' (8 * (w.bytes - 1 - i)) 8 := by
  have hl := lowBytes_length v w.bytes
  have hw := w.bytes_le_eight
  have hi' : i < (lowBytes v w.bytes).length := by omega
  calc (mmuWrite a w v s).byteAt (a + BitVec.ofNat 64 i)
      = Memory.read (writtenMem s.params.memSize (lowBytes v w.bytes) a s.mem) (a + BitVec.ofNat 64 i).toNat :=
        byteAt_inRange hr
    _ = (lowBytes v w.bytes)[i] := writtenMem_read_inside _ a canonical (by omega) i hi' (inRange_iff.1 hr)
    _ = v.extractLsb' (8 * (w.bytes - 1 - i)) 8 := lowBytes_getElem v w.bytes i hi'

/-- A byte the store does not reach. -/
theorem mmuWrite_byteAt_outside (s : State) {a : Word} {w : Width} (v : Word) {a' : Word}
    (h : ∀ i, i < w.bytes → a' ≠ a + BitVec.ofNat 64 i) : (mmuWrite a w v s).byteAt a' = s.byteAt a' := by
  apply byteAt_of_read
  · rfl
  · refine writtenMem_read_outside _ a s.mem a'.toNat fun i hi => ?_
    rw [lowBytes_length] at hi
    exact (BitVec.toNat_ne.1 (h i hi)).symm

/-- Settles O14: the bytes the store reaches, those it does not, and the closed form for the rest. -/
theorem mmuWriteStoresTheLowBytes : Obligations.MmuWriteStoresTheLowBytes := by
  intro s a w v canonical
  refine ⟨fun i hi hr => mmuWrite_byteAt_inside canonical a w v hi hr,
    fun a' h => mmuWrite_byteAt_outside s v h, ?_, rfl⟩
  rw [mmuWrite_eq]
  simp

/-! ## A pulse only admits (47_pipeline_control.md R203, R204) -/

/-- A state with the latches, busy flags and tasks of another. -/
def State.withPipelineOf (s t : State) : State :=
  { s with
    ifid := t.ifid, idex := t.idex, exmem := t.exmem, memwb := t.memwb
    busyIF := t.busyIF, busyID := t.busyID, busyEX := t.busyEX, busyMEM := t.busyMEM, busyWB := t.busyWB
    taskIF := t.taskIF, taskID := t.taskID, taskEX := t.taskEX, taskMEM := t.taskMEM, taskWB := t.taskWB }

theorem eq_withPipelineOf_trans {s t u : State} (ht : t = s.withPipelineOf t) (hu : u = t.withPipelineOf u) :
    u = s.withPipelineOf u := by
  rw [ht] at hu
  exact hu

/-- A pulse changes latches, busy flags and tasks alone. -/
theorem pulse_frame (s : State) : pulse s = s.withPipelineOf (pulse s) := by
  have one : ∀ f ∈ [clearWB, launchWB, clearMEM, launchMEM, clearEX, launchEX, clearID, launchID, clearIF, launchIF],
      ∀ u : State, f u = u.withPipelineOf (f u) := by
    intro f hf u
    simp only [List.mem_cons, List.not_mem_nil, or_false] at hf
    rcases hf with rfl | rfl | rfl | rfl | rfl | rfl | rfl | rfl | rfl | rfl
    all_goals
      simp only [clearWB, launchWB, clearMEM, launchMEM, clearEX, launchEX, clearID, launchID, clearIF, launchIF]
      (repeat' split) <;> rfl
  simp only [List.forall_mem_cons] at one
  obtain ⟨clWB, laWB, clMEM, laMEM, clEX, laEX, clID, laID, clIF, laIF, -⟩ := one
  have hWB := eq_withPipelineOf_trans (clWB s) (laWB _)
  have hMEM := eq_withPipelineOf_trans (eq_withPipelineOf_trans hWB (clMEM _)) (laMEM _)
  have hEX := eq_withPipelineOf_trans (eq_withPipelineOf_trans hMEM (clEX _)) (laEX _)
  have hID := eq_withPipelineOf_trans (eq_withPipelineOf_trans hEX (clID _)) (laID _)
  exact eq_withPipelineOf_trans (eq_withPipelineOf_trans hID (clIF _)) (laIF _)

theorem pulse_memoryOk {s : State} (h : s.MemoryOk) : (pulse s).MemoryOk := by
  rw [pulse_frame]
  exact h

/-! ## Every event keeps the canonical form (20_memory.md R41, R44) -/

theorem resolveBranch_mem (taken : Option Word) (s : State) : (resolveBranch taken s).mem = s.mem := by
  cases taken <;> simp [resolveBranch]

theorem writebackStep_mem {m : MEMWB} {s t : State} (e : writebackStep m s = .next t) : t.mem = s.mem := by
  obtain ⟨-, n, rest, -, rfl⟩ | ⟨-, rfl⟩ := writebackStep_next e <;> rfl

theorem decodeStep_mem (d : IFID) (s : State) : (decodeStep d s).mem = s.mem := by
  obtain ⟨c, e⟩ | ⟨i, -, -, e⟩ := decodeStep_cases d s <;> rw [e]
  · rfl
  · rw [reserve_eq]

theorem executeStep_mem (d : IDEX) (s : State) : (executeStep d s).mem = s.mem := by
  obtain ⟨e, -⟩ | ⟨e, -⟩ | ⟨i, o, -, -, e⟩ := executeStep_cases d s <;> rw [e]
  · rfl
  · rfl
  · exact resolveBranch_mem o.taken (setFlags o.flags s)

/-- Only memory access writes Memory. -/
theorem stageStep_mem {st : Stage} {s t : State} (hst : st ≠ .memory) (e : stageStep st s = .next t) :
    t.mem = s.mem := by
  cases st with
  | memory => exact absurd rfl hst
  | fetch =>
    cases e
    rw [fetchStep_eq]
  | decode =>
    simp only [stageStep] at e
    split at e <;> cases e
    · exact decodeStep_mem ..
    · rfl
    · rfl
  | execute =>
    simp only [stageStep] at e
    split at e <;> cases e
    · exact executeStep_mem ..
    · rfl
    · rfl
  | writeback =>
    simp only [stageStep] at e
    split at e
    · exact writebackStep_mem e
    · cases e; rfl
    · cases e; rfl

theorem memoryStep_memoryOk {s : State} (h : s.MemoryOk) (e : EXMEM) : (memoryStep e s).MemoryOk := by
  obtain ⟨r, hr, ⟨i, -, rfl⟩ | ⟨-, rfl⟩⟩ := memoryStep_eq e s <;> rw [hr]
  · exact memoryUnit_memoryOk h i e.res e.wdata
  · exact h

theorem stageStep_memoryOk {st : Stage} {s t : State} (h : s.MemoryOk) (he : stageEnabled st s = true)
    (e : stageStep st s = .next t) : t.MemoryOk := by
  by_cases hst : st = .memory
  · subst hst
    obtain ⟨d, ht, -⟩ := stageEnabled_memory.1 he
    simp only [stageStep, ht] at e
    cases e
    exact memoryStep_memoryOk h d
  · obtain ⟨hp, -, -⟩ := stageStep_host e
    exact memoryOk_congr (stageStep_mem hst e) hp h

theorem instructionStep_memoryOk {s t : State} (h : s.MemoryOk) (e : instructionStep s = .next t) : t.MemoryOk := by
  have hf : (fetchAccess s).MemoryOk := by
    rw [fetchAccess_eq]
    exact h
  obtain rfl | ⟨i, -, e⟩ | rfl := instructionStep_next e
  · exact hf
  · exact exec_memoryOk hf e
  · exact hf

theorem memoryOk_of_empty {s : State} (h : s.mem = []) : s.MemoryOk := by
  unfold State.MemoryOk
  rw [h]
  exact ⟨rfl, rfl⟩

/-- An image that fits lands below `MEM_SIZE` (20_memory.md R43). -/
theorem loadImage_memoryOk {s : State} (h : s.MemoryOk) {image : List IWord}
    (hfits : 4 * image.length ≤ s.params.memSize) : (loadImage image s).MemoryOk := by
  obtain ⟨canonical, bounded⟩ := h
  refine ⟨Memory.wf_writeList canonical .., Memory.within_writeList bounded _ _ ?_⟩
  rw [imageBytes_length, Config.imageBase, Nat.zero_add]
  exact hfits

/-- Settles O46: each kind of event keeps Memory canonical and within bounds. -/
theorem stepKeepsMemoryCanonical : Obligations.StepKeepsMemoryCanonical := by
  intro s t hs h
  refine step_keeps (P := State.MemoryOk) ?schedule ?pulse ?stage ?instruction ?reset ?create ?zero ?flash ?load hs h
  case schedule => exact fun s _ hs => hs
  case pulse => exact fun s hs _ _ => pulse_memoryOk (s := beginRun s) hs
  case stage => exact fun st s t hs _ he e => stageStep_memoryOk hs he e
  case instruction => exact fun s t hs _ _ e => instructionStep_memoryOk (s := beginRun s) hs e
  case reset => exact fun s hs => hs
  case create => exact fun s n _ _ => memoryOk_of_empty rfl
  case zero => exact fun s _ => memoryOk_of_empty rfl
  case flash => exact fun s image _ _ => loadImage_memoryOk (memoryOk_of_empty rfl) (Nat.le_refl _)
  case load => exact fun s image hs hl => loadImage_memoryOk hs hl

end Sys2Proof.Machine


/-! # Arithmetic with an immediate (42_arithmetic.md R125 to R128) -/

namespace Sys2Proof.Machine

/-! ## The ALU's results and flags as numbers (40_alu.md R101, R102, R107) -/

/-- The flags of an addition are those of the numbers added; V is the library's signed overflow. -/
theorem aluAdd_flagsOfAddition (a b : Word) : FlagsOfAddition (aluAdd a b).2 a b := by
  have sign : ∀ w : Word, w.getLsbD 63 = w.msb := fun w => (BitVec.msb_eq_getLsbD_last w).symm
  refine ⟨?n, ?z, ?c, ?v⟩
  case n => simp only [aluAdd, addFlags, sign, BitVec.msb_eq_toInt, decide_eq_true_eq]
  case z =>
    rw [← BitVec.toNat_add, ← BitVec.toNat_zero (w := 64), ← BitVec.toNat_eq]
    exact beq_iff_eq
  case c => exact decide_eq_true_iff
  case v =>
    have overflow : (aluAdd a b).2.v = BitVec.saddOverflow a b := by
      simp only [aluAdd, addFlags, sign, BitVec.saddOverflow_eq, bne]
    simp [overflow, BitVec.saddOverflow, or_comm]

/-- The flags of a subtraction are those of adding the negation. -/
theorem aluSub_flagsOfAddition (a b : Word) : FlagsOfAddition (aluSub a b).2 a (0 - b) := by
  rw [aluSub_snd, zero_sub]
  exact aluAdd_flagsOfAddition a (-b)

theorem isNumber_add_ofInt (a : Word) (k : Int) : isNumber (a + BitVec.ofInt 64 k) (a.toNat + k) := by
  simp only [isNumber, BitVec.toNat_add, BitVec.toNat_ofInt]
  omega

theorem isNumber_sub_ofInt (a : Word) (k : Int) : isNumber (a - BitVec.ofInt 64 k) (a.toNat - k) := by
  simp only [isNumber, BitVec.toNat_sub, BitVec.toNat_ofInt]
  omega

/-- The sign-extended immediate is the 64-bit word of its signed number (30_encoding.md R81). -/
theorem aluImm_eq_ofInt (imm12 : BitVec 12) : aluImm imm12 = BitVec.ofInt 64 imm12.toInt := rfl

/-! ## A register result and its frame (42_arithmetic.md R120) -/

theorem onlyRegister_writeReg_setFlags (n : Fin 31) (v : Word) (f : Flags) (s : State) :
    s.OnlyRegister n (writeReg n v (setFlags f s)) := by
  refine ⟨fun r hr => ?registers, ⟨fun a => ?bytes, rfl⟩, ⟨rfl, rfl⟩, rfl, rfl, ?control⟩
  case registers => rw [writeReg_x_other hr, x_of_regs (setFlags_regs f s)]
  case bytes => exact byteAt_of_mem rfl rfl a
  case control => simp [State.SameControl]

/-- Retiring into X0 to X30 completes with the result and the flags given, whatever is known of the two, and changes
nothing else. -/
theorem retireValue_meets (R : Word → Prop) (F : Flags → Prop) {o : ExOut} (hres : R o.res) (hflags : F o.flags)
    (n : Fin 31) (s : State) :
    ∃ t, retireValue (.x n) o s = .next t ∧ R (t.x (.x n)) ∧ F t.flags ∧ s.OnlyRegister n t := by
  refine ⟨writeReg n o.res (setFlags o.flags s), rfl, ?_, hflags, onlyRegister_writeReg_setFlags n _ _ s⟩
  rw [writeReg_x_same]
  exact hres

/-! ## The meanings of the four instructions (42_arithmetic.md R125 to R128) -/

theorem exec_addi (rd rn : Reg) (imm12 : BitVec 12) (s : State) :
    exec (.addi rd rn imm12) s = retireValue rd (dropFlags (aluAdd (s.x rn) (aluImm imm12))) s := rfl

theorem exec_addis (rd rn : Reg) (imm12 : BitVec 12) (s : State) :
    exec (.addis rd rn imm12) s = retireValue rd (keepFlags (aluAdd (s.x rn) (aluImm imm12))) s := rfl

theorem exec_subi (rd rn : Reg) (imm12 : BitVec 12) (s : State) :
    exec (.subi rd rn imm12) s = retireValue rd (dropFlags (aluSub (s.x rn) (aluImm imm12))) s := rfl

theorem exec_subis (rd rn : Reg) (imm12 : BitVec 12) (s : State) :
    exec (.subis rd rn imm12) s = retireValue rd (keepFlags (aluSub (s.x rn) (aluImm imm12))) s := rfl

/-- Settles O20: the sum and the flags of the addition, retired into the destination. -/
theorem addiAndAddisResultFlagsAndFrame : Obligations.AddiAndAddisResultFlagsAndFrame := by
  intro n rn imm12 s
  have sum : isNumber (aluAdd (s.x rn) (.ofInt 64 imm12.toInt)).1 ((s.x rn).toNat + imm12.toInt) :=
    isNumber_add_ofInt (s.x rn) imm12.toInt
  rw [exec_addi, exec_addis, aluImm_eq_ofInt]
  constructor
  case left => exact retireValue_meets (isNumber · _) (· = clearFlags) sum rfl n s
  case right => exact retireValue_meets (isNumber · _) (FlagsOfAddition · _ _) sum (aluAdd_flagsOfAddition _ _) n s

/-- Settles O21: the difference and the flags of adding the negation, retired into the destination. -/
theorem subiAndSubisResultFlagsAndFrame : Obligations.SubiAndSubisResultFlagsAndFrame := by
  intro n rn imm12 s
  have difference : isNumber (aluSub (s.x rn) (.ofInt 64 imm12.toInt)).1 ((s.x rn).toNat - imm12.toInt) := by
    rw [aluSub_fst]
    exact isNumber_sub_ofInt (s.x rn) imm12.toInt
  rw [exec_subi, exec_subis, aluImm_eq_ofInt]
  constructor
  case left => exact retireValue_meets (isNumber · _) (· = clearFlags) difference rfl n s
  case right =>
    exact retireValue_meets (isNumber · _) (FlagsOfAddition · _ _) difference (aluSub_flagsOfAddition _ _) n s

end Sys2Proof.Machine


/-! # Addition, negation and subtraction (40_alu.md R101, R102, R104, R107) -/

namespace Sys2Proof.Machine

/-- Settles O5: the sum is the library's, and the flags are those of the numbers. -/
theorem aluAddGivesSumAndFlags : Obligations.AluAddGivesSumAndFlags :=
  fun a b => ⟨BitVec.toNat_add a b, aluAdd_flagsOfAddition a b⟩

/-- Settles O6: negation is the library's, whose number is known; the two fixed points are computed. -/
theorem aluNegateIsTwosComplement : Obligations.AluNegateIsTwosComplement := by
  refine ⟨fun a => ⟨?number, rfl⟩, rfl, rfl⟩
  case number => rw [aluNegate_eq, BitVec.toNat_neg]

/-! ## The flags of a subtraction (40_alu.md R107) -/

theorem isNumber_sub (a b : Word) : isNumber (a - b) (a.toNat - b.toNat) := by
  simpa using isNumber_sub_ofInt a b.toNat

theorem aluSub_n_iff (a b : Word) : (aluSub a b).2.n = true ↔ (aluSub a b).1.toInt < 0 := by
  rw [aluSub_snd, aluSub_fst, sub_eq_add_neg]
  exact (aluAdd_flagsOfAddition a (-b)).1

theorem aluSub_z_iff (a b : Word) : (aluSub a b).2.z = true ↔ a = b := by
  obtain ⟨-, zero, -, -⟩ := aluAdd_flagsOfAddition a (-b)
  rw [aluSub_snd, zero, BitVec.toNat_neg, BitVec.toNat_eq]
  omega

/-- The negation of a word other than 0 is `2^64 - u(b)`, so the sum carries exactly when nothing is borrowed; that of
0 is 0, and nothing carries. -/
theorem aluSub_c_iff (a b : Word) : (aluSub a b).2.c = true ↔ b ≠ 0 ∧ b.toNat ≤ a.toNat := by
  obtain ⟨-, -, carry, -⟩ := aluAdd_flagsOfAddition a (-b)
  have nonzero : b ≠ 0 ↔ b.toNat ≠ 0 := BitVec.toNat_ne
  rw [aluSub_snd, carry, BitVec.toNat_neg, nonzero]
  omega

/-- The negation of `2^63` is itself, so the overflow is that of adding the least signed number: it says that `a` is
negative. -/
theorem aluSub_intMin_v (a : Word) : (aluSub a (BitVec.intMin 64)).2.v = a.getLsbD 63 := by
  obtain ⟨-, -, -, overflow⟩ := aluAdd_flagsOfAddition a (BitVec.intMin 64)
  have lower : -2 ^ 63 ≤ a.toInt := BitVec.le_toInt a
  have upper : a.toInt < 2 ^ 63 := BitVec.toInt_lt
  have sign : a.getLsbD 63 = decide (a.toInt < 0) := (BitVec.msb_eq_getLsbD_last a).symm.trans BitVec.msb_eq_toInt
  have least : (BitVec.intMin 64).toInt = -2 ^ 63 := rfl
  rw [aluSub_snd, BitVec.neg_intMin, Bool.eq_iff_iff, overflow, sign, decide_eq_true_iff, least]
  omega

/-- Every other word's negation has the negated signed number, so the overflow is that of the difference. -/
theorem aluSub_v_iff (a : Word) {b : Word} (hb : b ≠ BitVec.intMin 64) :
    (aluSub a b).2.v = true ↔ a.toInt - b.toInt < -2 ^ 63 ∨ 2 ^ 63 ≤ a.toInt - b.toInt := by
  obtain ⟨-, -, -, overflow⟩ := aluAdd_flagsOfAddition a (-b)
  rw [aluSub_snd, overflow, BitVec.toInt_neg_of_ne_intMin hb, ← sub_eq_add_neg]

/-- Settles O7: each flag's own law, C's read at `b = 0` and away from it, V's at `b = 2^63` and away from it. -/
theorem subtractionFlagsHaveTheTwoCorners : Obligations.SubtractionFlagsHaveTheTwoCorners := by
  intro a b
  refine ⟨?number, aluSub_n_iff a b, aluSub_z_iff a b, ?zeroCarry, ?carry, ?minOverflow, aluSub_v_iff a⟩
  case number => rw [aluSub_fst]; exact isNumber_sub a b
  case zeroCarry => exact fun hb => Bool.eq_false_iff.2 fun hc => ((aluSub_c_iff a b).1 hc).1 hb
  case carry => exact fun hb => (aluSub_c_iff a b).trans (and_iff_right hb)
  case minOverflow => rintro rfl; exact aluSub_intMin_v a

end Sys2Proof.Machine


/-! # Move wide (41_move_wide.md R115 to R117) -/

namespace Sys2Proof.Machine

theorem exec_movz (rd : Reg) (hw : BitVec 2) (imm16 : BitVec 16) (s : State) :
    exec (.movz rd hw imm16) s = retireValue rd (exMovz hw (moveImm imm16)) s := rfl

theorem exec_movk (rd : Reg) (hw : BitVec 2) (imm16 : BitVec 16) (s : State) :
    exec (.movk rd hw imm16) s = retireValue rd (exMovk hw (s.x rd) (moveImm imm16)) s := rfl

/-! ## The two results -/

/-- The greatest shift amount is 48, so no bit of the immediate leaves the word (R117). -/
theorem exMovz_res_toNat (hw : BitVec 2) (imm16 : BitVec 16) :
    (exMovz hw (moveImm imm16)).res.toNat = imm16.toNat * 2 ^ (16 * hw.toNat) := by
  have factor : 2 ^ (16 * hw.toNat) ≤ 2 ^ 48 := Nat.pow_le_pow_right (by decide) (by have := hw.isLt; omega)
  have fits : imm16.toNat * 2 ^ (16 * hw.toNat) < 2 ^ 16 * 2 ^ 48 :=
    Nat.mul_lt_mul_of_lt_of_le imm16.isLt factor (by decide)
  have unshifted : (moveImm imm16).toNat = imm16.toNat := BitVec.toNat_setWidth_of_le (by decide)
  simp only [exMovz, ExOut.value, moveShift_eq, BitVec.toNat_shiftLeft, unshifted, Nat.shiftLeft_eq]
  exact Nat.mod_eq_of_lt fits

/-- A bit of a 16-bit field moved up by `n`: the field's own, counted from `n`. -/
theorem getLsbD_moveImm_shiftLeft (imm16 : BitVec 16) (n : Nat) {k : Nat} (hk : k < 64) :
    (moveImm imm16 <<< n).getLsbD k = (!decide (k < n) && imm16.getLsbD (k - n)) := by
  simp [moveImm, hk]

/-- The word `w` is `a` with the 16 bits that `hw` selects replaced by the immediate (R116). -/
def SixteenBitsReplaced (hw : BitVec 2) (imm16 : BitVec 16) (a w : Word) : Prop :=
  ∀ k : Nat, k < 64 → w.getLsbD k =
    if 16 * hw.toNat ≤ k ∧ k < 16 * hw.toNat + 16 then imm16.getLsbD (k - 16 * hw.toNat) else a.getLsbD k

/-- MOVK's mask is itself a moved field, of sixteen ones: inside it the old bit is cleared, outside it the moved
immediate has no bit. -/
theorem exMovk_res_replaced (hw : BitVec 2) (imm16 : BitVec 16) (a : Word) :
    SixteenBitsReplaced hw imm16 a (exMovk hw a (moveImm imm16)).res := by
  intro k hk
  have mask : (0xFFFF : Word) = moveImm (BitVec.allOnes 16) := rfl
  simp only [exMovk, ExOut.value, moveShift_eq, mask, BitVec.getLsbD_or, BitVec.getLsbD_and, BitVec.getLsbD_not,
    getLsbD_moveImm_shiftLeft _ _ hk, BitVec.getLsbD_allOnes, hk]
  split
  case isTrue inside =>
    have reached : ¬ k < 16 * hw.toNat := by omega
    have inField : k - 16 * hw.toNat < 16 := by omega
    simp [reached, inField]
  case isFalse outside =>
    by_cases below : k < 16 * hw.toNat
    case pos => simp [below]
    case neg =>
      have past : 16 ≤ k - 16 * hw.toNat := by omega
      simp [below, past]

/-! ## The two instructions -/

/-- Settles O16: the shifted immediate, retired into the destination. -/
theorem movzWritesTheShiftedImmediate : Obligations.MovzWritesTheShiftedImmediate := by
  intro n hw imm16 s
  rw [exec_movz]
  exact retireValue_meets (·.toNat = imm16.toNat * 2 ^ (16 * hw.toNat)) (· = clearFlags)
    (exMovz_res_toNat hw imm16) rfl n s

/-- Settles O17: the old value with the selected bits replaced, retired into the destination. -/
theorem movkReplacesSixteenBits : Obligations.MovkReplacesSixteenBits := by
  intro n hw imm16 s
  rw [exec_movk]
  exact retireValue_meets (SixteenBitsReplaced hw imm16 (s.x (.x n))) (· = clearFlags)
    (exMovk_res_replaced hw imm16 _) rfl n s

end Sys2Proof.Machine


/-! # Arithmetic with two registers (42_arithmetic.md R121 to R124) -/

namespace Sys2Proof.Machine

theorem exec_add (rd rn rm : Reg) (s : State) :
    exec (.add rd rn rm) s = retireValue rd (dropFlags (aluAdd (s.x rn) (s.x rm))) s := rfl

theorem exec_adds (rd rn rm : Reg) (s : State) :
    exec (.adds rd rn rm) s = retireValue rd (keepFlags (aluAdd (s.x rn) (s.x rm))) s := rfl

theorem exec_sub (rd rn rm : Reg) (s : State) :
    exec (.sub rd rn rm) s = retireValue rd (dropFlags (aluSub (s.x rn) (s.x rm))) s := rfl

theorem exec_subs (rd rn rm : Reg) (s : State) :
    exec (.subs rd rn rm) s = retireValue rd (keepFlags (aluSub (s.x rn) (s.x rm))) s := rfl

/-- Settles O18: the ALU's sum and the flags of the addition, retired into the destination. -/
theorem addAndAddsResultFlagsAndFrame : Obligations.AddAndAddsResultFlagsAndFrame := by
  intro n rn rm s
  obtain ⟨sum, flags⟩ := aluAddGivesSumAndFlags (s.x rn) (s.x rm)
  rw [exec_add, exec_adds]
  constructor
  case left => exact retireValue_meets (·.toNat = _) (· = clearFlags) sum rfl n s
  case right => exact retireValue_meets (·.toNat = _) (FlagsOfAddition · _ _) sum flags n s

/-- Settles O19: the ALU's difference and the flags of adding the negation, retired into the destination. -/
theorem subAndSubsResultFlagsAndFrame : Obligations.SubAndSubsResultFlagsAndFrame := by
  intro n rn rm s
  obtain ⟨difference, -⟩ := subtractionFlagsHaveTheTwoCorners (s.x rn) (s.x rm)
  rw [exec_sub, exec_subs]
  constructor
  case left => exact retireValue_meets (isNumber · _) (· = clearFlags) difference rfl n s
  case right =>
    exact retireValue_meets (isNumber · _) (FlagsOfAddition · _ _) difference (aluSub_flagsOfAddition _ _) n s

end Sys2Proof.Machine


/-! # Loads and stores (43_load_store.md R135 to R144) -/

namespace Sys2Proof.Machine

/-! ## The effective address (43_load_store.md R135) -/

/-- The sign-extended offset is the 64-bit word of its signed number (30_encoding.md R82). -/
theorem offsetImm_eq_ofInt (off9 : BitVec 9) : offsetImm off9 = BitVec.ofInt 64 off9.toInt := rfl

theorem isNumber_unique {v w : Word} {k : Int} (hv : isNumber v k) (hw : isNumber w k) : v = w :=
  BitVec.eq_of_toNat_eq (Int.ofNat_inj.1 (hv.trans hw.symm))

/-- The word that is base plus signed offset is the one the execute unit computes. -/
theorem address_eq_of_isNumber {ea base : Word} {off9 : BitVec 9} (h : isNumber ea (base.toNat + off9.toInt)) :
    ea = base + offsetImm off9 := by
  rw [offsetImm_eq_ofInt]
  exact isNumber_unique h (isNumber_add_ofInt base off9.toInt)

/-! ## What each load and each store is -/

/-- The view of the eight bytes read that the load of a width takes (20_memory.md R50). -/
def Width.view : Width → Word → Word
  | .byte => viewByte
  | .half => viewHalf
  | .word => viewSignedWord
  | .double => viewDouble

theorem exec_loadInstr (w : Width) (rt rn : Reg) (off9 : BitVec 9) (s : State) :
    exec (loadInstr w rt rn off9) s =
      retireLoad rt (ExOut.access (s.x rn + offsetImm off9) 0) (loadVia w.view) s := by
  cases w <;> rfl

theorem exec_storeInstr (w : Width) (rt rn : Reg) (off9 : BitVec 9) (s : State) :
    exec (storeInstr w rt rn off9) s =
      .next (mmuWrite (s.x rn + offsetImm off9) w (s.x rt) (setFlags clearFlags s)) := by
  cases w <;> rfl

/-- In range a load reads and writes its register. -/
theorem exec_loadInstr_inRange {w : Width} {n : Fin 31} {rn : Reg} {off9 : BitVec 9} {s : State}
    (h : s.spanInRange (s.x rn + offsetImm off9) 8 = true) :
    exec (loadInstr w (.x n) rn off9) s =
      .next (writeReg n (w.view (s.wordAt (s.x rn + offsetImm off9)))
        (mmuRead (s.x rn + offsetImm off9) (setFlags clearFlags s))) := by
  rw [exec_loadInstr]
  exact congrArg Host.Outcome.next (if_pos h)

/-- Out of bounds a load reads and commits nothing (60_exceptions.md R247). -/
theorem exec_loadInstr_outOfBounds {w : Width} {n : Fin 31} {rn : Reg} {off9 : BitVec 9} {s : State}
    (h : s.spanInRange (s.x rn + offsetImm off9) 8 = false) :
    exec (loadInstr w (.x n) rn off9) s = .next (mmuRead (s.x rn + offsetImm off9) (setFlags clearFlags s)) := by
  rw [exec_loadInstr]
  exact congrArg Host.Outcome.next (if_neg (Bool.eq_false_iff.1 h))

/-! ## Their frame -/

/-- No instruction's meaning touches control state, except that a destination of 31 is fatal. -/
theorem sameControl_of_exec {i : Instr} {s t : State} (h : exec i s = .next t) (hf : t.fatal = s.fatal) :
    s.SameControl t := by
  simp only [State.SameControl, exec_control h, hf, and_self]

theorem mmuRead_setFlags_halted (ea : Word) (f : Flags) (s : State) :
    (mmuRead ea (setFlags f s)).halted = (s.halted || !s.spanInRange ea 8) := rfl

theorem mmuRead_setFlags_sameMemory (ea : Word) (f : Flags) (s : State) :
    s.SameMemory (mmuRead ea (setFlags f s)) :=
  ⟨byteAt_of_mem rfl rfl, rfl⟩

/-! ## The views as numbers (20_memory.md R50, 43_load_store.md R136 to R139) -/

/-- Bits above the last byte are bits of what stands before it. -/
theorem extractLsb'_append_byte {n : Nat} (x : BitVec n) (b : Byte) (start len : Nat) :
    (x ++ b).extractLsb' (start + 8) len = x.extractLsb' start len :=
  BitVec.extractLsb'_append_eq_of_le (Nat.le_add_left 8 start)

/-- The sign is that of the bits before the last byte, so there must be one. -/
theorem toInt_append_byte {n : Nat} (x : BitVec (n + 1)) (b : Byte) : (x ++ b).toInt = 2 ^ 8 * x.toInt + b.toNat :=
  BitVec.toInt_append

theorem viewByte_wordAt (s : State) (a : Word) : viewByte (s.wordAt a) = (s.byteAt a).setWidth 64 := by
  simp only [viewByte, State.wordAt, extractLsb'_append_byte, BitVec.extractLsb'_eq_self]

theorem viewHalf_wordAt (s : State) (a : Word) :
    viewHalf (s.wordAt a) = (s.byteAt a ++ s.byteAt (a + 1)).setWidth 64 := by
  simp only [viewHalf, State.wordAt, extractLsb'_append_byte, BitVec.extractLsb'_eq_self]

theorem viewSignedWord_wordAt (s : State) (a : Word) :
    viewSignedWord (s.wordAt a) =
      (s.byteAt a ++ s.byteAt (a + 1) ++ s.byteAt (a + 2) ++ s.byteAt (a + 3)).signExtend 64 := by
  simp only [viewSignedWord, State.wordAt, extractLsb'_append_byte, BitVec.extractLsb'_eq_self]

theorem viewByte_wordAt_toNat (s : State) (a : Word) : (viewByte (s.wordAt a)).toNat = (s.byteAt a).toNat := by
  rw [viewByte_wordAt, BitVec.toNat_setWidth_of_le (by decide)]

theorem viewHalf_wordAt_toNat (s : State) (a : Word) :
    (viewHalf (s.wordAt a)).toNat = 2 ^ 8 * (s.byteAt a).toNat + (s.byteAt (a + 1)).toNat := by
  rw [viewHalf_wordAt, BitVec.toNat_setWidth_of_le (by decide), BitVec.toNat_append,
    ← Nat.shiftLeft_add_eq_or_of_lt (s.byteAt (a + 1)).isLt, Nat.shiftLeft_eq, Nat.mul_comm]

theorem viewSignedWord_wordAt_toInt (s : State) (a : Word) :
    (viewSignedWord (s.wordAt a)).toInt = 2 ^ 24 * (s.byteAt a).toInt + 2 ^ 16 * ((s.byteAt (a + 1)).toNat : Int)
      + 2 ^ 8 * ((s.byteAt (a + 2)).toNat : Int) + ((s.byteAt (a + 3)).toNat : Int) := by
  rw [viewSignedWord_wordAt, BitVec.toInt_signExtend_of_le (by decide)]
  simp only [toInt_append_byte]
  omega

/-! ## What a store leaves is what the load of its width views (43_load_store.md R144) -/

/-- When the first `n` bytes of a doubleword are the low `n` bytes of a word, so are the `8 * n` bits they make up: bit
`k` of these is bit `k % 8` of byte `n - 1 - k / 8`. -/
theorem firstBits_eq_setWidth_of_bytes {d v : Word} {n : Nat} (hn : n ≤ 8)
    (h : ∀ i, i < n → d.extractLsb' (8 * (7 - i)) 8 = v.extractLsb' (8 * (n - 1 - i)) 8) :
    d.extractLsb' (64 - 8 * n) (8 * n) = v.setWidth (8 * n) := by
  apply BitVec.eq_of_getLsbD_eq
  intro k hk
  have byte := congrArg (·.getLsbD (k % 8)) (h (n - 1 - k / 8) (by omega))
  have inByte : k % 8 < 8 := Nat.mod_lt k (by decide)
  have bitOfD : 8 * (7 - (n - 1 - k / 8)) + k % 8 = 64 - 8 * n + k := by omega
  have bitOfV : 8 * (n - 1 - (n - 1 - k / 8)) + k % 8 = k := by omega
  simpa [inByte, bitOfD, bitOfV, hk] using byte

/-! ## The four statements -/

/-- Settles O22: the view of the eight bytes, as each width's number, and the frame of a read and a register write. -/
theorem loadsInRangeWriteTheirView : Obligations.LoadsInRangeWriteTheirView := by
  intro w n rn off9 ea s address inRange
  obtain rfl := address_eq_of_isNumber address
  have e := exec_loadInstr_inRange (w := w) (n := n) inRange
  refine ⟨_, e, ?value, rfl, rfl, rfl, fun r hr => ?registers,
    mmuRead_setFlags_sameMemory (s.x rn + offsetImm off9) clearFlags s, rfl, ?halted, sameControl_of_exec e rfl⟩
  case value =>
    rw [writeReg_x_same]
    cases w with
    | byte => exact viewByte_wordAt_toNat s _
    | half => exact viewHalf_wordAt_toNat s _
    | word => exact viewSignedWord_wordAt_toInt s _
    | double => exact fun i hi => wordAt_byte s _ hi
  case registers => exact (writeReg_x_other hr _ _).trans (x_of_regs rfl r)
  case halted => rw [writeReg_halted, mmuRead_setFlags_halted, inRange, Bool.not_true, Bool.or_false]

/-- Settles O23: out of bounds only the read is left, and it requests the halt. -/
theorem loadOutOfBoundsNeverCommits : Obligations.LoadOutOfBoundsNeverCommits := by
  intro w n rn off9 ea s address outOfBounds
  obtain rfl := address_eq_of_isNumber address
  have e := exec_loadInstr_outOfBounds (w := w) (n := n) outOfBounds
  refine ⟨_, e, ?halted, rfl, rfl, rfl, x_of_regs rfl,
    mmuRead_setFlags_sameMemory (s.x rn + offsetImm off9) clearFlags s, rfl, sameControl_of_exec e rfl⟩
  rw [mmuRead_setFlags_halted, outOfBounds, Bool.not_false, Bool.or_true]

/-- Settles O24: the MMU's write, whose bytes are known, from a state with its flags cleared. -/
theorem storesWriteTheLowBytes : Obligations.StoresWriteTheLowBytes := by
  intro w rt rn off9 ea s canonical address
  obtain rfl := address_eq_of_isNumber address
  have e := exec_storeInstr w rt rn off9 s
  obtain ⟨inside, outside, halted, -⟩ :=
    mmuWriteStoresTheLowBytes (setFlags clearFlags s) (s.x rn + offsetImm off9) w (s.x rt) canonical
  exact ⟨_, e, inside, outside, halted, rfl, rfl, rfl, x_of_regs rfl, rfl, sameControl_of_exec e rfl⟩

/-- Settles O25: the bytes the store leaves in range are the first of the eight the load reads, and its view extends
them. -/
theorem storeThenLoadRoundTrip : Obligations.StoreThenLoadRoundTrip := by
  intro w rt rn n off9 s t canonical inRange store
  obtain rfl := Host.Outcome.next.inj ((exec_storeInstr w rt rn off9 s).symm.trans store)
  refine ⟨_, exec_loadInstr_inRange inRange, ?_⟩
  rw [writeReg_x_same]
  generalize hd : State.wordAt _ _ = d
  have stored : d.extractLsb' (64 - 8 * w.bytes) (8 * w.bytes) = (s.x rt).setWidth (8 * w.bytes) := by
    refine firstBits_eq_setWidth_of_bytes w.bytes_le_eight fun i hi => ?_
    have hi8 : i < 8 := Nat.lt_of_lt_of_le hi w.bytes_le_eight
    rw [← hd, wordAt_byte _ _ hi8]
    exact mmuWrite_byteAt_inside canonical _ w (s.x rt) hi (spanInRange_iff.1 inRange i hi8)
  cases w with
  | byte => exact congrArg (BitVec.setWidth 64) stored
  | half => exact congrArg (BitVec.setWidth 64) stored
  | word => exact congrArg (BitVec.signExtend 64) stored
  | double => exact (BitVec.extractLsb'_eq_self.symm.trans stored).trans (BitVec.setWidth_eq (s.x rt))

end Sys2Proof.Machine


/-! # HLT (44_system.md R150 to R152) -/

namespace Sys2Proof.Machine

/-- HLT's meaning is the halt request (44_system.md R150). -/
theorem exec_hlt (s : State) : exec .hlt s = .next (requestHalt s) := rfl

/-- Settles O26: its meaning is the halt request, which writes `halted` alone. -/
theorem hltSetsHaltedAndNothingElse : Obligations.HltSetsHaltedAndNothingElse := by
  intro s
  exact ⟨_, exec_hlt s, requestHalt_halted s, requestHalt_flags s, requestHalt_pc s, x_of_regs (requestHalt_regs s),
    ⟨byteAt_of_mem (requestHalt_mem s) (requestHalt_params s), requestHalt_mem s⟩,
    ⟨requestHalt_mar s, requestHalt_mdr s⟩, sameControl_of_exec (exec_hlt s) (requestHalt_fatal s)⟩

/-- HLT's execute step requests the halt and publishes nothing (44_system.md R150). -/
theorem executeStep_hlt {d : IDEX} (s : State) (h : decode d.instr = .ok .hlt) :
    executeStep d s = { requestHalt s with taskEX := .done } := by
  unfold executeStep
  rw [h]
  rfl

theorem eq_none_of_not_isActive {α : Type} {t : Task α} (h : t.isActive = false) : t = .none := by
  cases t with
  | none => rfl
  | running a => cases h
  | done => cases h

/-- Once HLT's execute step is enabled nothing is past execute: memory access and writeback are idle, and a populated
latch before them would be counted by a busy flag (44_system.md R151). -/
theorem drained_of_executeEnabled_hlt {s : State} {d : IDEX} (h : s.Bookkeeping) (ht : s.taskEX = .running d)
    (hd : decode d.instr = .ok .hlt) (he : executeEnabled d s = true) :
    s.memwb = none ∧ s.exmem = none ∧ s.taskMEM = .none ∧ s.taskWB = .none := by
  obtain ⟨-, -, -, hMEM, hWB⟩ := h.busy
  obtain ⟨coverMEMWB, coverEXMEM⟩ := h.drain
  rw [executeEnabled_hlt s hd, Bool.and_eq_true, Bool.not_eq_true', Bool.not_eq_true'] at he
  obtain ⟨idleMEM, idleWB⟩ := he
  refine ⟨?memwb, ?exmem, eq_none_of_not_isActive (hMEM ▸ idleMEM), eq_none_of_not_isActive (hWB ▸ idleWB)⟩
  case memwb =>
    by_contra populated
    simpa [idleMEM, idleWB] using coverMEMWB populated
  case exmem =>
    by_contra populated
    simpa [idleMEM] using coverEXMEM d ht hd populated

/-- With nothing past execute and no word in execute, IDEX holds all that is in flight, and so all that is reserved
(10_state.md R25). -/
theorem lq_of_drained {s : State} (h : s.LockQueueOk) (hmemwb : s.memwb = none) (hexmem : s.exmem = none)
    (hEX : s.taskEX = .none ∨ s.taskEX = .done) (hMEM : s.taskMEM = .none) (hWB : s.taskWB = .none) :
    s.lq = (s.idex.toList.map (·.instr)).flatMap reservesOf := by
  have inIDEX : s.inFlight = s.idex.toList.map (·.instr) := by
    simp [State.inFlight, State.pastExecute, inputs_of_idle hEX, hmemwb, hexmem, hMEM, hWB]
  rw [← inIDEX]
  exact h

/-- Settles O53: the guard of HLT's step leaves nothing past execute, and the step keeps the LockQueue's invariant. -/
theorem hltHaltsOnlyWhenDrained : Obligations.HltHaltsOnlyWhenDrained := by
  intro s t d hs ht hd e
  obtain ⟨hb, -⟩ := pipelineOk_iff.1 hs
  obtain ⟨-, enabled, e⟩ := stageEvent_next.1 e
  obtain ⟨d', ht', he⟩ := stageEnabled_execute.1 enabled
  obtain rfl := Task.running.inj (ht.symm.trans ht')
  simp only [stageStep, ht, executeStep_hlt s hd, Host.Outcome.next.injEq] at e
  obtain ⟨hmemwb, hexmem, hMEM, hWB⟩ := drained_of_executeEnabled_hlt hb ht hd he
  have lockQueue := (retireHlt_keeps hb ht hd).lockQueue
  subst e
  exact ⟨rfl, hmemwb, hexmem, hMEM, hWB, lq_of_drained lockQueue hmemwb hexmem (.inr rfl) hMEM hWB,
    x_of_regs rfl, byteAt_of_mem rfl rfl, rfl⟩

end Sys2Proof.Machine


/-! # Branches (45_branch.md R155 to R159, 47_pipeline_control.md R207) -/

namespace Sys2Proof.Machine

/-! ## The target (45_branch.md R155) -/

/-- B's sign-extended offset is the 64-bit word of its signed number (30_encoding.md R84). -/
theorem branchOffset_eq_ofInt (off26 : BitVec 26) : branchOffset off26 = BitVec.ofInt 64 off26.toInt := rfl

/-- So is the offset of CBZ and CBNZ (30_encoding.md R83). -/
theorem condOffset_eq_ofInt (off19 : BitVec 19) : condOffset off19 = BitVec.ofInt 64 off19.toInt := rfl

theorem isNumber_branchTarget (ipc : Word) (k : Int) :
    isNumber (branchTarget ipc (BitVec.ofInt 64 k)) (ipc.toNat + 4 * k) := by
  have scaled : BitVec.ofInt 64 k <<< 2 = BitVec.ofInt 64 (4 * k) := by
    rw [BitVec.shiftLeft_eq_mul_twoPow, BitVec.ofInt_mul, BitVec.mul_comm]
    rfl
  rw [branchTarget_eq, scaled]
  exact isNumber_add_ofInt ipc (4 * k)

/-! ## What each branch is (45_branch.md R157 to R159) -/

theorem exec_b (off26 : BitVec 26) (s : State) :
    exec (.b off26) s = retireBranch (ExOut.branch (some (branchTarget s.pc (branchOffset off26)))) s := rfl

theorem exec_cbz (rt : Reg) (off19 : BitVec 19) (s : State) :
    exec (.cbz rt off19) s = retireBranch (exCbz s.pc (s.x rt) (condOffset off19)) s := rfl

theorem exec_cbnz (rt : Reg) (off19 : BitVec 19) (s : State) :
    exec (.cbnz rt off19) s = retireBranch (exCbnz s.pc (s.x rt) (condOffset off19)) s := rfl

theorem exCbz_eq (ipc a imm : Word) :
    exCbz ipc a imm = ExOut.branch (if a = 0 then some (branchTarget ipc imm) else none) := by
  simp [exCbz]

theorem exCbnz_eq (ipc a imm : Word) :
    exCbnz ipc a imm = ExOut.branch (if a = 0 then none else some (branchTarget ipc imm)) := by
  simp [exCbnz]

/-! ## Their frame -/

theorem onlyPcAndFlags_setFlags (f : Flags) (pc : Word) (s : State) :
    s.OnlyPcAndFlags { setFlags f s with pc := pc } :=
  ⟨x_of_regs rfl, ⟨byteAt_of_mem rfl rfl, rfl⟩, ⟨rfl, rfl⟩, rfl, by simp [State.SameControl]⟩

/-- A branch, taken or not, completes with the flags cleared, and writes the PC only when it is taken. -/
theorem retireBranch_completes (taken : Option Word) (s : State) :
    ∃ t, retireBranch (ExOut.branch taken) s = .next t ∧ t.pc = taken.getD s.pc ∧ t.flags = clearFlags
      ∧ s.OnlyPcAndFlags t := by
  have e : retireBranch (ExOut.branch taken) s = .next { setFlags clearFlags s with pc := taken.getD s.pc } := by
    cases taken <;> rfl
  exact ⟨_, e, rfl, rfl, onlyPcAndFlags_setFlags clearFlags (taken.getD s.pc) s⟩

/-- Settles O27: B retires as a taken branch to a target whose number is known. -/
theorem branchGoesToItsTarget : Obligations.BranchGoesToItsTarget := by
  intro off26 s
  rw [exec_b, branchOffset_eq_ofInt]
  obtain ⟨t, e, hpc, hflags, frame⟩ := retireBranch_completes (some (branchTarget s.pc (.ofInt 64 off26.toInt))) s
  refine ⟨t, e, ?_, hflags, frame⟩
  rw [hpc]
  exact isNumber_branchTarget s.pc off26.toInt

/-- Settles O28: by cases on whether the register is 0, each retires as a taken or as an untaken branch. -/
theorem compareAndBranchTakenExactlyWhen : Obligations.CompareAndBranchTakenExactlyWhen := by
  intro rt off19 s
  rw [exec_cbz, exec_cbnz, exCbz_eq, exCbnz_eq, condOffset_eq_ofInt]
  obtain ⟨t, et, tpc, tflags, tframe⟩ := retireBranch_completes (some (branchTarget s.pc (.ofInt 64 off19.toInt))) s
  obtain ⟨u, eu, upc, uflags, uframe⟩ := retireBranch_completes none s
  have target : isNumber t.pc (s.pc.toNat + 4 * off19.toInt) := by
    rw [tpc]
    exact isNumber_branchTarget s.pc off19.toInt
  by_cases zero : s.x rt = 0
  · rw [if_pos zero, if_pos zero]
    exact ⟨⟨t, et, fun _ => target, (absurd zero ·), tflags, tframe⟩,
      ⟨u, eu, (absurd zero ·), fun _ => upc, uflags, uframe⟩⟩
  · rw [if_neg zero, if_neg zero]
    exact ⟨⟨u, eu, (absurd · zero), fun _ => upc, uflags, uframe⟩,
      ⟨t, et, fun _ => target, (absurd · zero), tflags, tframe⟩⟩

/-! ## A taken branch in the pipeline (47_pipeline_control.md R207) -/

theorem resolveBranch_taken (target : Word) (s : State) : resolveBranch (some target) s = flush target s := by
  simp only [resolveBranch, flush_eq]
  rfl

/-- A taken branch's execute step flushes and publishes a record without a value (46_pipeline_stages.md R186). -/
theorem executeStep_taken {d : IDEX} {i : Instr} {o : ExOut} {target : Word} (s : State)
    (hi : decode d.instr = .ok i) (hu : executeUnit i d.ipc d.a d.b d.imm = some o) (ht : o.taken = some target) :
    executeStep d s = { flush target (setFlags clearFlags s) with exmem := some ⟨d.instr, 0, 0⟩, taskEX := .done } := by
  obtain ⟨-, -, rfl⟩ := executeUnit_taken hu ht
  rw [← resolveBranch_taken]
  unfold executeStep
  simp only [hi, hu]
  rfl

/-- With EXMEM empty a taken branch's execute step is the next one of its stage (46_pipeline_stages.md R192). -/
theorem performEvent_execute_taken {s : State} {d : IDEX} {i : Instr} {o : ExOut} {target : Word}
    (hfatal : s.fatal = none) (hEX : s.taskEX = .running d) (hempty : s.exmem = none) (hi : decode d.instr = .ok i)
    (hu : executeUnit i d.ipc d.a d.b d.imm = some o) (ht : o.taken = some target) :
    performEvent (.stage .execute) s =
      .next { flush target (setFlags clearFlags s) with exmem := some ⟨d.instr, 0, 0⟩, taskEX := .done } := by
  have notHlt : i ≠ .hlt := fun hhlt => by simp [(executeUnit_none_iff ..).2 hhlt] at hu
  have enabled : executeEnabled d s = true := by rw [executeEnabled_other s hi notHlt, hempty]; rfl
  refine stageEvent_next.2 ⟨hfatal, stageEnabled_execute.2 ⟨d, hEX, enabled⟩, ?_⟩
  simp only [stageStep, hEX, executeStep_taken s hi hu ht]

/-- A flush takes IDEX's reservation, if there is one, off the end of the LockQueue and no other (10_state.md R25). -/
theorem lq_eq_flush_append_idex {s : State} (h : s.Bookkeeping) (target : Word) :
    s.lq = (flush target s).lq ++ (s.idex.toList.map (·.instr)).flatMap reservesOf := by
  rw [flush_lq, lq_without_idex h, ← List.flatMap_append]
  exact h.lockQueue

/-- Settles O41: the step is a flush and a publication, and the bookkeeping says whose reservation the flush takes. -/
theorem takenBranchFlushesFetchAndDecode : Obligations.TakenBranchFlushesFetchAndDecode := by
  intro s d i o target hs hfatal hEX hi hu ht hempty
  obtain ⟨bookkeeping, -⟩ := pipelineOk_iff.1 hs
  have step := performEvent_execute_taken hfatal hEX hempty hi hu ht
  have reservation := lq_eq_flush_append_idex (s := setFlags clearFlags s) (bookkeeping.of_data ..) target
  rw [flush_eq] at step reservation
  exact ⟨_, step, rfl, rfl, rfl, rfl, rfl, rfl, rfl, rfl, rfl, rfl, rfl, reservation, x_of_regs rfl,
    ⟨byteAt_of_mem rfl rfl, rfl⟩, rfl, rfl, rfl, rfl, rfl, rfl⟩

end Sys2Proof.Machine


/-! # The stage units (46_pipeline_stages.md) -/

namespace Sys2Proof.Machine

/-! ## When a stage's step happens, and what it then is (46_pipeline_stages.md R192) -/

theorem performEvent_fetch_next {s t : State} : performEvent (.stage .fetch) s = .next t ↔
    s.fatal = none ∧ s.taskIF = .running () ∧ t = fetchStep s := by
  refine stageEvent_next.trans (and_congr_right fun _ => and_congr stageEnabled_fetch ?_)
  rw [stageStep, Host.Outcome.next.injEq, eq_comm]

theorem performEvent_decode_next {s t : State} : performEvent (.stage .decode) s = .next t ↔
    s.fatal = none ∧ ∃ d, s.taskID = .running d ∧ decodeEnabled d s = true ∧ t = decodeStep d s := by
  refine stageEvent_next.trans (and_congr_right fun _ => ?_)
  rw [stageEnabled_decode, stageStep]
  cases s.taskID <;> simp [@eq_comm _ t]

theorem performEvent_execute_next {s t : State} : performEvent (.stage .execute) s = .next t ↔
    s.fatal = none ∧ ∃ d, s.taskEX = .running d ∧ executeEnabled d s = true ∧ t = executeStep d s := by
  refine stageEvent_next.trans (and_congr_right fun _ => ?_)
  rw [stageEnabled_execute, stageStep]
  cases s.taskEX <;> simp [@eq_comm _ t]

theorem performEvent_memory_next {s t : State} : performEvent (.stage .memory) s = .next t ↔
    s.fatal = none ∧ ∃ e, s.taskMEM = .running e ∧ s.memwb = none ∧ t = memoryStep e s := by
  refine stageEvent_next.trans (and_congr_right fun _ => ?_)
  rw [stageEnabled_memory, stageStep]
  cases s.taskMEM <;> simp [@eq_comm _ t]

theorem performEvent_writeback_next {s t : State} : performEvent (.stage .writeback) s = .next t ↔
    s.fatal = none ∧ ∃ m, s.taskWB = .running m ∧ writebackStep m s = .next t := by
  refine stageEvent_next.trans (and_congr_right fun _ => ?_)
  rw [stageEnabled_writeback, stageStep]
  cases s.taskWB <;> simp

/-- A stage's step whose guard is false is refused (log 27). -/
theorem performEvent_stage_refused {st : Stage} {s : State} (hfatal : s.fatal = none)
    (disabled : stageEnabled st s = false) : performEvent (.stage st) s = .refused .eventNotEnabled := by
  simp only [performEvent, stageEvent, hfatal, disabled]
  rfl

/-! ## Fetch (46_pipeline_stages.md R173) -/

/-- Settles O42: by the closed form of the fetch step and the word it keeps. -/
theorem fetchStepPublishesWordAndIncrementedPc : Obligations.FetchStepPublishesWordAndIncrementedPc := by
  intro s hfatal hIF
  have step := performEvent_fetch_next.2 ⟨hfatal, hIF, rfl⟩
  rw [fetchStep_eq, fetchedWord_eq] at step
  refine ⟨_, step, rfl, rfl, rfl, rfl, rfl, ?halted, hfatal, x_of_regs rfl, rfl, ⟨byteAt_of_mem rfl rfl, rfl⟩, rfl⟩
  case halted => simp

/-! ## Decode (46_pipeline_stages.md R177 to R183) -/

theorem reservation_of_dst {i : Instr} {n : Fin 31} (h : dst i = some (.x n)) : reservation i = some n := by
  unfold reservation
  rw [h]

theorem reservation_of_dst_none {i : Instr} (h : dst i = none) : reservation i = none := by
  unfold reservation
  rw [h]

theorem writesXzr_eq_false_iff {i : Instr} : writesXzr i = false ↔ dst i ≠ some .xzr := by
  simp [writesXzr]

theorem sourceFree_iff {s : State} {r : Option Reg} :
    s.sourceFree r = true ↔ ∀ q, r = some q → s.locked q = false := by
  cases r <;> simp [State.sourceFree]

theorem sourcesFree_iff {s : State} {i : Instr} :
    s.sourcesFree i = true ↔ ∀ r, src1 i = some r ∨ src2 i = some r → s.locked r = false := by
  simp [State.sourcesFree, sourceFree_iff, or_imp, forall_and]

/-- The guard of a known class whose destination is not 31 (46_pipeline_stages.md R179, R192). -/
theorem decodeEnabled_iff {d : IFID} {s : State} {i : Instr} (hi : decode d.instr = .ok i) (hx : dst i ≠ some .xzr) :
    decodeEnabled d s = true ↔
      (∀ r, src1 i = some r ∨ src2 i = some r → s.locked r = false) ∧ s.idex = none := by
  simp [decodeEnabled, hi, writesXzr_eq_false_iff.2 hx, sourcesFree_iff]

/-- Decode's publication for a known class whose destination is not 31 (46_pipeline_stages.md R182, R183). -/
theorem decodeStep_publishes {d : IFID} {i : Instr} (s : State) (hi : decode d.instr = .ok i)
    (hx : dst i ≠ some .xzr) : decodeStep d s = { s with
      lq := s.lq ++ (reservation i).toList, idex := some (idexRecord d i s), taskID := .done } := by
  simp [decodeStep, hi, writesXzr_eq_false_iff.2 hx, reserve_eq]

/-- Settles O43: the guard is the sources' freedom and an empty IDEX, and the step publishes `idexRecord`. -/
theorem decodeWaitsThenReadsReservesPublishes : Obligations.DecodeWaitsThenReadsReservesPublishes := by
  intro s d i hfatal hID hi hx
  constructor
  · intro waits
    refine performEvent_stage_refused hfatal (Bool.eq_false_iff.2 fun enabled => ?_)
    obtain ⟨d', hID', enabled⟩ := stageEnabled_decode.1 enabled
    obtain rfl := Task.running.inj (hID.symm.trans hID')
    obtain ⟨free, empty⟩ := (decodeEnabled_iff hi hx).1 enabled
    obtain populated | ⟨r, source, locked⟩ := waits
    · exact populated empty
    · exact Bool.false_ne_true ((free r source).symm.trans locked)
  · intro empty free
    have step := performEvent_decode_next.2 ⟨hfatal, d, hID, (decodeEnabled_iff hi hx).2 ⟨free, empty⟩, rfl⟩
    rw [decodeStep_publishes s hi hx] at step
    refine ⟨_, idexRecord d i s, step, rfl, rfl, rfl, rfl, rfl, fun _ h => congrArg s.xOpt h, congrArg s.xOpt,
      fun _ h => congrArg s.xOpt h, congrArg s.xOpt, fun n h => ?reserves, fun h => ?reservesNone,
      rfl, rfl, rfl, rfl, rfl, rfl⟩
    case reserves => simp [idexRecord, reservation_of_dst h]
    case reservesNone => simp [idexRecord, reservation_of_dst_none h]

/-! ## Writeback (46_pipeline_stages.md R189, R190) -/

theorem dequeues_of_decode {w : IWord} {i : Instr} (h : decode w = .ok i) : dequeues w = (dst i).isSome := by
  unfold dequeues
  rw [h]
  simp [onlySignals_eq_isNone_dst]

/-- Settles O44: the class without destination is the one that dequeues nothing. -/
theorem writebackCommitsToTheOldestReservation : Obligations.WritebackCommitsToTheOldestReservation := by
  intro s m i hfatal hWB hi
  have dequeued := dequeues_of_decode hi
  constructor
  · intro hdst
    rw [hdst] at dequeued
    exact performEvent_writeback_next.2 ⟨hfatal, m, hWB, writebackStep_signal s dequeued⟩
  · intro r hdst n rest hlq
    rw [hdst] at dequeued
    exact performEvent_writeback_next.2 ⟨hfatal, m, hWB, writebackStep_dequeue dequeued hlq⟩

/-! ## A pulse fills no latch (10_state.md R30) -/

/-- The latch keeps its record or is emptied. -/
def KeptOrEmptied {α : Type} (before after : Option α) : Prop := after = before ∨ after = none

theorem KeptOrEmptied.trans {α : Type} {a b c : Option α} (hb : KeptOrEmptied a b) (hc : KeptOrEmptied b c) :
    KeptOrEmptied a c := by
  obtain rfl | rfl := hc
  · exact hb
  · exact .inr rfl

/-- Each of the four latches keeps its record or is emptied. -/
structure State.FillsNoLatch (s t : State) : Prop where
  ifid : KeptOrEmptied s.ifid t.ifid
  idex : KeptOrEmptied s.idex t.idex
  exmem : KeptOrEmptied s.exmem t.exmem
  memwb : KeptOrEmptied s.memwb t.memwb

theorem State.FillsNoLatch.trans {s t u : State} (ht : s.FillsNoLatch t) (hu : t.FillsNoLatch u) :
    s.FillsNoLatch u :=
  ⟨ht.ifid.trans hu.ifid, ht.idex.trans hu.idex, ht.exmem.trans hu.exmem, ht.memwb.trans hu.memwb⟩

theorem pulse_fillsNoLatch (s : State) : s.FillsNoLatch (pulse s) := by
  have one : ∀ f ∈ [clearWB, launchWB, clearMEM, launchMEM, clearEX, launchEX, clearID, launchID, clearIF, launchIF],
      ∀ u : State, u.FillsNoLatch (f u) := by
    intro f hf u
    simp only [List.mem_cons, List.not_mem_nil, or_false] at hf
    rcases hf with rfl | rfl | rfl | rfl | rfl | rfl | rfl | rfl | rfl | rfl
    all_goals
      simp only [clearWB, launchWB, clearMEM, launchMEM, clearEX, launchEX, clearID, launchID, clearIF, launchIF]
      (repeat' split) <;> constructor <;> simp [KeptOrEmptied]
  simp only [List.forall_mem_cons] at one
  obtain ⟨clWB, laWB, clMEM, laMEM, clEX, laEX, clID, laID, clIF, laIF, -⟩ := one
  have hWB := (clWB s).trans (laWB _)
  have hMEM := (hWB.trans (clMEM _)).trans (laMEM _)
  have hEX := (hMEM.trans (clEX _)).trans (laEX _)
  have hID := (hEX.trans (clID _)).trans (laID _)
  exact (hID.trans (clIF _)).trans (laIF _)

/-- A pulse leaves the registers, the PC, the flags, Memory and the LockQueue as they were (47_pipeline_control.md
R205). -/
theorem pulse_keeps_data (s : State) : (pulse s).regs = s.regs ∧ (pulse s).pc = s.pc ∧ (pulse s).flags = s.flags
    ∧ (pulse s).mem = s.mem ∧ (pulse s).lq = s.lq := by
  rw [pulse_frame]
  exact ⟨rfl, rfl, rfl, rfl, rfl⟩

/-! ## What the steps of decode and execute write (46_pipeline_stages.md R167) -/

/-- The decode step writes the LockQueue's tail, IDEX, its own task and the fatal condition. -/
theorem decodeStep_frame (d : IFID) (s : State) : ∃ added idex task fatal, (task = s.taskID ∨ task = .done)
    ∧ decodeStep d s = { s with lq := s.lq ++ added, idex := idex, taskID := task, fatal := fatal } := by
  obtain ⟨c, e⟩ | ⟨i, -, -, e⟩ := decodeStep_cases d s
  · exact ⟨[], s.idex, s.taskID, some c, .inl rfl, by rw [e, List.append_nil]; rfl⟩
  · exact ⟨(reservation i).toList, some (idexRecord d i s), .done, s.fatal, .inr rfl, by rw [e, reserve_eq]⟩

/-- Only a branch whose condition holds is taken (45_branch.md R157 to R159). -/
theorem takesBranch_of_taken {d : IDEX} {i : Instr} {o : ExOut} {target : Word} (hi : decode d.instr = .ok i)
    (hu : executeUnit i d.ipc d.a d.b d.imm = some o) (ht : o.taken = some target) : d.takesBranch := by
  cases i with
  | b off26 => exact .inl ⟨off26, hi⟩
  | cbz rt off19 =>
    obtain rfl : exCbz d.ipc d.a d.imm = o := Option.some.inj hu
    obtain ⟨zero, -⟩ : d.a = 0 ∧ branchTarget d.ipc d.imm = target := by simpa [exCbz_eq, ExOut.branch] using ht
    exact .inr (.inl ⟨rt, off19, hi, zero⟩)
  | cbnz rt off19 =>
    obtain rfl : exCbnz d.ipc d.a d.imm = o := Option.some.inj hu
    obtain ⟨nonzero, -⟩ : d.a ≠ 0 ∧ branchTarget d.ipc d.imm = target := by simpa [exCbnz_eq, ExOut.branch] using ht
    exact .inr (.inr ⟨rt, off19, hi, nonzero⟩)
  | hlt => cases hu
  | movz | movk | add | adds | sub | subs | addi | addis | subi | subis | ldur | ldurb | ldurh | ldursw | stur | sturb
    | sturh | sturw =>
    cases hu
    cases ht

/-- An execute step that takes no branch writes the flags, EXMEM, its own task and the run-state bits; one that takes a
branch writes, by the flush, the PC, the LockQueue's newest entry and all that belongs to fetch and decode as well. -/
theorem executeStep_frame (d : IDEX) (s : State) : ∃ flags exmem,
    (∃ task halted fatal, (task = s.taskEX ∨ task = .done) ∧ executeStep d s = { s with
        flags := flags, exmem := exmem, taskEX := task, halted := halted, fatal := fatal })
      ∨ (d.takesBranch ∧ ∃ pc lq, (lq = s.lq ∨ lq = s.lq.dropLast) ∧ executeStep d s = { s with
          flags := flags, exmem := exmem, taskEX := .done, pc := pc, lq := lq, ifid := none, idex := none
          taskIF := .none, busyIF := false, taskID := .none, busyID := false, exFlushing := false }) := by
  obtain ⟨e, -⟩ | ⟨e, -⟩ | ⟨i, o, hi, hu, e⟩ := executeStep_cases d s
  · exact ⟨_, _, .inl ⟨_, _, _, .inl rfl, e⟩⟩
  · exact ⟨_, _, .inl ⟨_, _, _, .inr rfl, e⟩⟩
  · cases ht : o.taken with
    | none =>
      rw [ht] at e
      exact ⟨_, _, .inl ⟨_, _, _, .inr rfl, e⟩⟩
    | some target =>
      have e := executeStep_taken s hi hu ht
      rw [flush_eq] at e
      refine ⟨_, _, .inr ⟨takesBranch_of_taken hi hu ht, _, _, ?_, e⟩⟩
      split
      · exact .inr rfl
      · exact .inl rfl

/-! ## Every event -/

/-- Settles O45: each stage's frame names all that its step writes; a pulse keeps the data and fills no latch. -/
theorem eachResourceHasItsOneWriter : Obligations.EachResourceHasItsOneWriter := by
  rintro e s t (rfl | ⟨st, rfl⟩) h
  · obtain ⟨-, -, h⟩ := whenClocked_next.1 h
    obtain rfl := Host.Outcome.next.inj h
    obtain ⟨regs, pc, flags, mem, lq⟩ := pulse_keeps_data (beginRun s)
    obtain ⟨ifid, idex, exmem, memwb⟩ := pulse_fillsNoLatch (beginRun s)
    exact ⟨fun _ => regs, fun _ _ => pc, fun _ => flags, fun _ => mem, nofun, nofun, nofun, nofun, fun _ _ _ => lq,
      fun _ => Or.imp_right (⟨·, .inl rfl⟩) ifid, fun _ => Or.imp_right (⟨·, .inl rfl⟩) idex,
      fun _ => Or.imp_right (⟨·, rfl⟩) exmem, fun _ => Or.imp_right (⟨·, rfl⟩) memwb, (absurd rfl ·)⟩
  cases st with
  | fetch =>
    obtain ⟨-, -, rfl⟩ := performEvent_fetch_next.1 h
    simp [fetchStep_eq]
  | decode =>
    obtain ⟨-, d, -, -, rfl⟩ := performEvent_decode_next.1 h
    obtain ⟨added, idex, task, fatal, rfl | rfl, frame⟩ := decodeStep_frame d s <;> simp [frame]
  | execute =>
    obtain ⟨-, d, hEX, -, rfl⟩ := performEvent_execute_next.1 h
    obtain ⟨flags, exmem, ⟨task, halted, fatal, rfl | rfl, frame⟩ | ⟨taken, pc, lq, rfl | rfl, frame⟩⟩ :=
      executeStep_frame d s
    · simp [frame]
    · simp [frame]
    · simp [frame, hEX, taken]
    · simp [frame, hEX, taken]
  | memory =>
    obtain ⟨-, r, -, -, rfl⟩ := performEvent_memory_next.1 h
    obtain ⟨mem, mar, mdr, halted, val, frame⟩ := memoryStep_frame r s
    simp [frame]
  | writeback =>
    obtain ⟨-, m, -, h⟩ := performEvent_writeback_next.1 h
    obtain ⟨-, n, rest, hlq, rfl⟩ | ⟨-, rfl⟩ := writebackStep_next h
    · have dequeued : ∃ taken, s.lq = taken ++ rest := ⟨[n], hlq⟩
      simp [dequeued]
    · simp

end Sys2Proof.Machine


/-! # The controller (47_pipeline_control.md R200, R203 to R205, R231) -/

namespace Sys2Proof.Machine

/-! ## A run that has ended (47_pipeline_control.md R200, 60_exceptions.md R242, R245) -/

theorem whenClocked_fatal {s : State} {c : FatalCause} (h : s.fatal = some c)
    (o : Host.Outcome State Fault Refusal) : whenClocked s o = .fault (.fatalError c) := by
  unfold whenClocked
  rw [h]

theorem whenClocked_halted {s : State} (hfatal : s.fatal = none) (hhalted : s.halted = true)
    (o : Host.Outcome State Fault Refusal) : whenClocked s o = .fault .clockStopped := by
  unfold whenClocked
  rw [hfatal, hhalted]
  rfl

theorem stageEvent_fatal {s : State} {c : FatalCause} (h : s.fatal = some c) (st : Stage) :
    stageEvent st s = .fault (.fatalError c) := by
  unfold stageEvent
  rw [h]

/-- A pulse, a tick and an instruction go through the clock's guard (R200). -/
theorem performEvent_needs_clock {e : Event} (he : e ∈ [Event.pulse, .tick, .instruction]) (s : State) :
    ∃ o, performEvent e s = whenClocked s o := by
  simp only [List.mem_cons, List.not_mem_nil, or_false] at he
  obtain rfl | rfl | rfl := he <;> exact ⟨_, rfl⟩

theorem performEvent_fatal {e : Event} {s : State} {c : FatalCause}
    (he : e ∈ [Event.pulse, .tick, .instruction] ∨ ∃ st, e = .stage st) (h : s.fatal = some c) :
    performEvent e s = .fault (.fatalError c) := by
  obtain he | ⟨st, rfl⟩ := he
  · obtain ⟨o, guarded⟩ := performEvent_needs_clock he s
    rw [guarded, whenClocked_fatal h]
  · exact stageEvent_fatal h st

theorem performEvent_halted {e : Event} {s : State} (he : e ∈ [Event.pulse, .tick, .instruction])
    (hfatal : s.fatal = none) (hhalted : s.halted = true) : performEvent e s = .fault .clockStopped := by
  obtain ⟨o, guarded⟩ := performEvent_needs_clock he s
  rw [guarded, whenClocked_halted hfatal hhalted]

theorem step_of_schedule_nil {s : State} (h : s.schedule = []) : step s = performEvent (defaultEvent s) s := by
  unfold step nextEvent
  rw [h]

/-- The event the step takes itself needs the clock. -/
theorem defaultEvent_mem (s : State) : defaultEvent s ∈ [Event.pulse, .tick, .instruction] := by
  unfold defaultEvent
  split <;> simp

/-- Settles O31: a guard stands before each of these events, and the step takes one of them. -/
theorem endedRunAdmitsNothing : Obligations.EndedRunAdmitsNothing := by
  refine ⟨fun s c e h he => performEvent_fatal he h, fun s e hfatal hhalted he => performEvent_halted he hfatal hhalted,
    fun s hschedule hended => ?_⟩
  rw [step_of_schedule_nil hschedule]
  have hevent := defaultEvent_mem s
  cases hfatal : s.fatal with
  | some c => exact ⟨_, performEvent_fatal (.inl hevent) hfatal⟩
  | none =>
    obtain hhalted | hne := hended
    · exact ⟨_, performEvent_halted hevent hfatal hhalted⟩
    · exact absurd hfatal hne

/-! ## A pulse while the clock runs (47_pipeline_control.md R205) -/

theorem performEvent_pulse {s : State} (hhalted : s.halted = false) (hfatal : s.fatal = none) :
    performEvent .pulse s = .next (pulse (beginRun s)) :=
  whenClocked_next.2 ⟨hfatal, hhalted, rfl⟩

/-- Settles O40: a pulse changes latches, busy flags and tasks alone. -/
theorem pulseOnlyAdmits : Obligations.PulseOnlyAdmits := by
  intro s hhalted hfatal
  have admits := performEvent_pulse hhalted hfatal
  rw [pulse_frame] at admits
  exact ⟨_, admits, ⟨rfl, rfl, rfl, rfl, rfl, rfl⟩, rfl, rfl, rfl, rfl, rfl, rfl⟩

/-! ## What a pulse does with each stage (47_pipeline_control.md R203, R204) -/

/-- A pulse's admission at a stage, from its task and input latch before to its task, input latch and busy flag after;
`gated` stops a launch (R208). -/
inductive Admission {α : Type} (gated : Bool) (task : Task α) (latch : Option α) : Task α → Option α → Bool → Prop where
  /-- The stage is still at work and is left alone. -/
  | atWork (a : α) (running : task = .running a) : Admission gated task latch task latch true
  /-- The stage is launched on its latch, which is emptied. -/
  | launched (a : α) (free : task = .none ∨ task = .done) (ungated : gated = false) (populated : latch = some a) :
      Admission gated task latch (.running a) none true
  /-- The stage has nothing to take and is idle. -/
  | idle (free : task = .none ∨ task = .done) (nothing : gated = true ∨ latch = none) :
      Admission gated task latch .none latch false

/-- A stage that the pulse finds free is one without a running task, when its busy flag agrees (10_state.md R31). -/
theorem free_iff {α : Type} {task : Task α} {busy : Bool} (h : busy = task.isActive) :
    busy = false ∨ task = .done ↔ task = .none ∨ task = .done := by
  rw [h]
  cases task <;> simp

/-- The three ways are told apart by whether the stage is free and whether it may take its latch's record. -/
theorem Admission.meets {α : Type} {gated busy busy' : Bool} {task task' : Task α} {latch latch' : Option α}
    (h : Admission gated task latch task' latch' busy') (hbusy : busy = task.isActive) :
    let free := busy = false ∨ task = .done
    (free → gated = false → ∀ a, latch = some a → task' = .running a ∧ busy' = true ∧ latch' = none)
      ∧ (free → gated = true ∨ latch = none → task' = .none ∧ busy' = false ∧ latch' = latch)
      ∧ (¬ free → task' = task ∧ busy' = true ∧ latch' = latch) := by
  simp only [free_iff hbusy]
  cases h with
  | atWork a running => simp [running]
  | launched a free ungated populated => simp [free, ungated, populated]
  | idle free nothing => obtain rfl | rfl := nothing <;> simp [free]

/-- A stage without a gate launches on every populated latch. -/
theorem Admission.meets_ungated {α : Type} {busy busy' : Bool} {task task' : Task α} {latch latch' : Option α}
    (h : Admission false task latch task' latch' busy') (hbusy : busy = task.isActive) :
    let free := busy = false ∨ task = .done
    (free → ∀ a, latch = some a → task' = .running a ∧ busy' = true ∧ latch' = none)
      ∧ (free → latch = none → task' = .none ∧ busy' = false ∧ latch' = none)
      ∧ (¬ free → task' = task ∧ busy' = true ∧ latch' = latch) := by
  obtain ⟨launched, idle, atWork⟩ := h.meets hbusy
  refine ⟨fun free => launched free rfl, fun free empty => ?_, atWork⟩
  rw [← empty]
  exact idle free (.inr empty)

theorem admitWB_admission {s : State} (h : s.busyWB = s.taskWB.isActive) : ∃ task latch busy,
    launchWB (clearWB s) = { s with taskWB := task, memwb := latch, busyWB := busy }
      ∧ Admission false s.taskWB s.memwb task latch busy := by
  obtain ⟨hbusy, ⟨m, running⟩, e⟩ | ⟨free, m, populated, e⟩ | ⟨free, empty, e⟩ := admitWB_cases h
  · exact ⟨_, _, s.busyWB, e, hbusy ▸ .atWork m running⟩
  · exact ⟨_, _, _, e, .launched m free rfl populated⟩
  · exact ⟨_, _, _, e, .idle free (.inr empty)⟩

theorem admitMEM_admission {s : State} (h : s.busyMEM = s.taskMEM.isActive) : ∃ task latch busy,
    launchMEM (clearMEM s) = { s with taskMEM := task, exmem := latch, busyMEM := busy }
      ∧ Admission false s.taskMEM s.exmem task latch busy := by
  obtain ⟨hbusy, ⟨m, running⟩, e⟩ | ⟨free, m, populated, e⟩ | ⟨free, empty, e⟩ := admitMEM_cases h
  · exact ⟨_, _, s.busyMEM, e, hbusy ▸ .atWork m running⟩
  · exact ⟨_, _, _, e, .launched m free rfl populated⟩
  · exact ⟨_, _, _, e, .idle free (.inr empty)⟩

/-- Execute alone is gated, by the flushing mark (R208). -/
theorem admitEX_admission {s : State} (h : s.busyEX = s.taskEX.isActive) : ∃ task latch busy,
    launchEX (clearEX s) = { s with taskEX := task, idex := latch, busyEX := busy }
      ∧ Admission s.exFlushing s.taskEX s.idex task latch busy := by
  obtain ⟨hbusy, ⟨d, running⟩, e⟩ | ⟨free, ungated, d, populated, e⟩ | ⟨free, nothing, e⟩ := admitEX_cases h
  · exact ⟨_, _, s.busyEX, e, hbusy ▸ .atWork d running⟩
  · exact ⟨_, _, _, e, .launched d free ungated populated⟩
  · exact ⟨_, _, _, e, .idle free nothing⟩

theorem admitID_admission {s : State} (h : s.busyID = s.taskID.isActive) : ∃ task latch busy,
    launchID (clearID s) = { s with taskID := task, ifid := latch, busyID := busy }
      ∧ Admission false s.taskID s.ifid task latch busy := by
  obtain ⟨hbusy, ⟨d, running⟩, e⟩ | ⟨free, d, populated, e⟩ | ⟨free, empty, e⟩ := admitID_cases h
  · exact ⟨_, _, s.busyID, e, hbusy ▸ .atWork d running⟩
  · exact ⟨_, _, _, e, .launched d free rfl populated⟩
  · exact ⟨_, _, _, e, .idle free (.inr empty)⟩

/-- Fetch has no input; it is launched when the latch it will fill is empty (R204). -/
theorem admitIF_meets {s : State} (h : s.busyIF = s.taskIF.isActive) : ∃ task busy,
    launchIF (clearIF s) = { s with taskIF := task, busyIF := busy }
      ∧ (let free := s.busyIF = false ∨ s.taskIF = .done
        (free → s.ifid = none → task = .running () ∧ busy = true)
          ∧ (free → s.ifid ≠ none → task = .none ∧ busy = false)
          ∧ (¬ free → task = s.taskIF ∧ busy = true)) := by
  simp only [free_iff h]
  obtain ⟨hbusy, running, e⟩ | ⟨free, empty, e⟩ | ⟨free, populated, e⟩ := admitIF_cases h
  · exact ⟨s.taskIF, s.busyIF, e, by simp [running, hbusy]⟩
  · exact ⟨_, _, e, by simp [free, empty]⟩
  · exact ⟨_, _, e, by simp [free, populated]⟩

/-- Settles O39: each admission writes its own stage's task, latch and busy flag, so what it finds is what stood there
before the pulse, but for fetch, which finds IFID as decode's admission left it. -/
theorem pulseAdmitsTailFirst : Obligations.PulseAdmitsTailFirst := by
  intro s ⟨hIF, hID, hEX, hMEM, hWB⟩ hhalted hfatal
  obtain ⟨taskWB, memwb, busyWB, eWB, admitsWB⟩ := admitWB_admission (s := beginRun s) hWB
  let afterWB : State := { beginRun s with taskWB := taskWB, memwb := memwb, busyWB := busyWB }
  obtain ⟨taskMEM, exmem, busyMEM, eMEM, admitsMEM⟩ := admitMEM_admission (s := afterWB) hMEM
  let afterMEM : State := { afterWB with taskMEM := taskMEM, exmem := exmem, busyMEM := busyMEM }
  obtain ⟨taskEX, idex, busyEX, eEX, admitsEX⟩ := admitEX_admission (s := afterMEM) hEX
  let afterEX : State := { afterMEM with taskEX := taskEX, idex := idex, busyEX := busyEX }
  obtain ⟨taskID, ifid, busyID, eID, admitsID⟩ := admitID_admission (s := afterEX) hID
  let afterID : State := { afterEX with taskID := taskID, ifid := ifid, busyID := busyID }
  obtain ⟨taskIF, busyIF, eIF, admitsIF⟩ := admitIF_meets (s := afterID) hIF
  have admits := performEvent_pulse hhalted hfatal
  rw [pulse, eWB, eMEM, eEX, eID, eIF] at admits
  exact ⟨_, admits, admitsWB.meets_ungated hWB, admitsMEM.meets_ungated hMEM, admitsEX.meets hEX,
    admitsID.meets_ungated hID, admitsIF⟩

/-! ## One instruction with nothing in flight (46_pipeline_stages.md R172, 47_pipeline_control.md R231) -/

theorem step_of_ready {s : State} (h : s.Ready) : step s = instructionStep (beginRun s) := by
  obtain ⟨hschedule, hquiescent, hhalted, hfatal⟩ := h
  rw [step_of_schedule_nil hschedule, defaultEvent, if_pos hquiescent, performEvent, if_pos hquiescent]
  simp [whenClocked, hfatal, hhalted]

/-- A fetch in range writes the PC, MAR and MDR alone. -/
theorem fetchAccess_inRange {s : State} (h : s.fetchInRange) :
    fetchAccess s = { s with pc := s.pc + 4, mar := s.pc, mdr := s.wordAt s.pc } := by
  have inRange : s.spanInRange s.pc 8 = true := h
  simp [fetchAccess_eq, inRange]

theorem execWord_of_decode {meaning : Instr → State → Host.Outcome State Fault Refusal} {w : IWord} {i : Instr}
    (h : decode w = .ok i) (s : State) : execWord meaning w s = meaning i s := by
  unfold execWord
  rw [h]

theorem upperWord_fetchAccess_mdr (s : State) : upperWord (fetchAccess s).mdr = s.fetchedWord := by
  rw [fetchAccess_eq]
  rfl

/-- A fetch in range gives its word its meaning (log 12). -/
theorem instructionStep_of_decode {s : State} {i : Instr} (hhalted : s.halted = false) (h : s.fetchInRange)
    (hi : decode s.fetchedWord = .ok i) : instructionStep s = exec i (fetchAccess s) := by
  have clockRuns : ¬ (fetchAccess s).halted = true := by simp [fetchAccess_inRange h, hhalted]
  rw [instructionStep, if_neg clockRuns, upperWord_fetchAccess_mdr, execWord_of_decode hi]

theorem stepSeq_of_decode {s : State} {i : Instr} (hhalted : s.halted = false) (hfatal : s.fatal = none)
    (hi : decode s.fetchedWord = .ok i) : stepSeq s = execSeq i (fetchAccess s) := by
  rw [stepSeq, upperWord_fetchAccess_mdr, execWord_of_decode hi]
  simp [whenClocked, hfatal, hhalted]

/-- Settles O32: the default event's one instruction; the phase is read by neither the fetch nor the meaning. -/
theorem stepRunsTheDecodedInstruction : Obligations.StepRunsTheDecodedInstruction := by
  intro s i ready inRange hi
  have step := step_of_ready ready
  obtain ⟨-, -, hhalted, hfatal⟩ := ready
  rw [← fetchedWord_eq] at hi
  rw [instructionStep_of_decode (s := beginRun s) hhalted inRange hi] at step
  refine ⟨step, fun hload => ?sequential, fetchAccess_inRange (s := beginRun s) inRange⟩
  case sequential =>
    rw [step, stepSeq_of_decode (s := beginRun s) hhalted hfatal hi]
    exact execSeq_eq_exec hload

end Sys2Proof.Machine


/-! # The decoder and the encoder (30_encoding.md) -/

namespace Sys2Proof

open Sys2Proof.Laws.EncodesInOwnRow (classOfInstr)

/-! ## The word of an instruction decodes to it (30_encoding.md R72 to R79) -/

/-- Every instruction's word lies in its own row (R86). -/
theorem classOf_encode (i : Instr) : classOf (encode i) = some (classOfInstr i) := by
  cases i with
  | movz => exact Laws.EncodesInOwnRow.movz ..
  | movk => exact Laws.EncodesInOwnRow.movk ..
  | add => exact Laws.EncodesInOwnRow.add ..
  | adds => exact Laws.EncodesInOwnRow.adds ..
  | sub => exact Laws.EncodesInOwnRow.sub ..
  | subs => exact Laws.EncodesInOwnRow.subs ..
  | addi => exact Laws.EncodesInOwnRow.addi ..
  | addis => exact Laws.EncodesInOwnRow.addis ..
  | subi => exact Laws.EncodesInOwnRow.subi ..
  | subis => exact Laws.EncodesInOwnRow.subis ..
  | ldur => exact Laws.EncodesInOwnRow.ldur ..
  | ldurb => exact Laws.EncodesInOwnRow.ldurb ..
  | ldurh => exact Laws.EncodesInOwnRow.ldurh ..
  | ldursw => exact Laws.EncodesInOwnRow.ldursw ..
  | stur => exact Laws.EncodesInOwnRow.stur ..
  | sturb => exact Laws.EncodesInOwnRow.sturb ..
  | sturh => exact Laws.EncodesInOwnRow.sturh ..
  | sturw => exact Laws.EncodesInOwnRow.sturw ..
  | hlt => exact Laws.EncodesInOwnRow.hlt
  | b => exact Laws.EncodesInOwnRow.b ..
  | cbz => exact Laws.EncodesInOwnRow.cbz ..
  | cbnz => exact Laws.EncodesInOwnRow.cbnz ..

theorem decode_of_classOf {w : IWord} {c : OpClass} (h : classOf w = some c) : decode w = .ok (instrOf w c) := by
  unfold decode
  rw [h]

/-- A field is read off the word's number. -/
theorem bits_eq_of_toNat {w : IWord} {lo len : Nat} {f : BitVec len} (h : w.toNat / 2 ^ lo % 2 ^ len = f.toNat) :
    bits w lo len = f :=
  BitVec.eq_of_toNat_eq ((toNat_bits w lo len).trans h)

theorem regAt_eq_of_toNat {w : IWord} {lo : Nat} {r : Reg} (h : w.toNat / 2 ^ lo % 2 ^ 5 = r.field.toNat) :
    regAt w lo = r := by
  rw [regAt, bits_eq_of_toNat h, ofField_field]

/-- R format (R72). -/
theorem encodeR_fields (op : BitVec 11) (rd rn rm : Reg) : regAt (encodeR op rd rn rm) 0 = rd
    ∧ regAt (encodeR op rd rn rm) 5 = rn ∧ regAt (encodeR op rd rn rm) 16 = rm := by
  have hd := rd.field.isLt
  have hn := rn.field.isLt
  have hm := rm.field.isLt
  refine ⟨regAt_eq_of_toNat ?_, regAt_eq_of_toNat ?_, regAt_eq_of_toNat ?_⟩
  all_goals
    simp only [encodeR, toNat_append_fields, BitVec.toNat_ofNat]
    omega

/-- I format (R73). -/
theorem encodeI_fields (op : BitVec 10) (rd rn : Reg) (imm12 : BitVec 12) : regAt (encodeI op rd rn imm12) 0 = rd
    ∧ regAt (encodeI op rd rn imm12) 5 = rn ∧ bits (encodeI op rd rn imm12) 10 12 = imm12 := by
  have hd := rd.field.isLt
  have hn := rn.field.isLt
  have hi := imm12.isLt
  refine ⟨regAt_eq_of_toNat ?_, regAt_eq_of_toNat ?_, bits_eq_of_toNat ?_⟩
  all_goals
    simp only [encodeI, toNat_append_fields]
    omega

/-- D format (R74). -/
theorem encodeD_fields (op : BitVec 11) (rt rn : Reg) (off9 : BitVec 9) : regAt (encodeD op rt rn off9) 0 = rt
    ∧ regAt (encodeD op rt rn off9) 5 = rn ∧ bits (encodeD op rt rn off9) 12 9 = off9 := by
  have ht := rt.field.isLt
  have hn := rn.field.isLt
  have ho := off9.isLt
  refine ⟨regAt_eq_of_toNat ?_, regAt_eq_of_toNat ?_, bits_eq_of_toNat ?_⟩
  all_goals
    simp only [encodeD, toNat_append_fields, BitVec.toNat_ofNat]
    omega

/-- IM format (R75). -/
theorem encodeIM_fields (op : BitVec 9) (rd : Reg) (hw : BitVec 2) (imm16 : BitVec 16) :
    regAt (encodeIM op rd hw imm16) 0 = rd ∧ bits (encodeIM op rd hw imm16) 21 2 = hw
      ∧ bits (encodeIM op rd hw imm16) 5 16 = imm16 := by
  have hd := rd.field.isLt
  have hh := hw.isLt
  have hi := imm16.isLt
  refine ⟨regAt_eq_of_toNat ?_, bits_eq_of_toNat ?_, bits_eq_of_toNat ?_⟩
  all_goals
    simp only [encodeIM, toNat_append_fields]
    omega

/-- B format (R76). -/
theorem encodeB_fields (op : BitVec 6) (off26 : BitVec 26) : bits (encodeB op off26) 0 26 = off26 := by
  have ho := off26.isLt
  apply bits_eq_of_toNat
  simp only [encodeB, toNat_append_fields]
  omega

/-- CB format (R77). -/
theorem encodeCB_fields (op : BitVec 8) (rt : Reg) (off19 : BitVec 19) :
    regAt (encodeCB op rt off19) 0 = rt ∧ bits (encodeCB op rt off19) 5 19 = off19 := by
  have ht := rt.field.isLt
  have ho := off19.isLt
  refine ⟨regAt_eq_of_toNat ?_, bits_eq_of_toNat ?_⟩
  all_goals
    simp only [encodeCB, toNat_append_fields]
    omega

/-- The fields of an instruction's own class give its operands back. -/
theorem instrOf_encode (i : Instr) : instrOf (encode i) (classOfInstr i) = i := by
  cases i with
  | hlt => rfl
  | movz | movk => simp only [classOfInstr, instrOf, encode, encodeIM_fields]
  | add | adds | sub | subs => simp only [classOfInstr, instrOf, encode, encodeR_fields]
  | addi | addis | subi | subis => simp only [classOfInstr, instrOf, encode, encodeI_fields]
  | ldur | ldurb | ldurh | ldursw | stur | sturb | sturh | sturw =>
    simp only [classOfInstr, instrOf, encode, encodeD_fields]
  | b => simp only [classOfInstr, instrOf, encode, encodeB_fields]
  | cbz | cbnz => simp only [classOfInstr, instrOf, encode, encodeCB_fields]

/-- Settles O1: the word's class is the instruction's own, and that class's fields hold its operands. -/
theorem decodeOfEncodeGivesTheInstruction : Obligations.DecodeOfEncodeGivesTheInstruction := by
  intro i
  rw [decode_of_classOf (classOf_encode i), instrOf_encode]

/-! ## The class is the row of the printed table (30_encoding.md R86, R87) -/

/-- The printed table is the opcode map with each row's mask and match value. -/
theorem maskMatchRows_eq : Machine.maskMatchRows = opcodeRows.map fun r => (r.cls, r.mask, r.matchValue) := by
  decide

/-- Masking clears the bits below the opcode. -/
theorem and_prefixMask (w : IWord) (n : Nat) : w &&& BitVec.allOnes 32 <<< n = w >>> n <<< n := by
  apply BitVec.eq_of_getLsbD_eq
  intro k hk
  have same : ¬ k < n → n + (k - n) = k := by omega
  have inWord : k - n < 32 := by omega
  simp only [BitVec.getLsbD_and, BitVec.getLsbD_shiftLeft, BitVec.getLsbD_allOnes, BitVec.getLsbD_ushiftRight, hk,
    inWord]
  by_cases below : k < n <;> simp [below, same]

/-- What stands above the lowest `n` bits comes back when those are cleared. -/
theorem shiftRight_of_cleared (w : IWord) (n : Nat) : w >>> n <<< n >>> n = w >>> n := by
  apply BitVec.eq_of_getLsbD_eq
  intro k hk
  by_cases inWord : n + k < 32
  · simp [inWord]
  · simp [BitVec.getLsbD_of_ge w (n + k) (by omega)]

/-- The row's opcode, moved up to its place and down again, is not cut: it has no more bits than that place. -/
def OpRow.Fits (r : OpRow) : Prop := r.opcode <<< (32 - r.width) >>> (32 - r.width) = r.opcode

/-- A word starts with an opcode exactly when the masked word is the match value. -/
theorem selects_iff_masked {r : OpRow} (fits : r.Fits) (w : IWord) :
    r.selects w = true ↔ w &&& r.mask = r.matchValue := by
  rw [OpRow.selects, beq_iff_eq, OpRow.mask, OpRow.matchValue, and_prefixMask]
  constructor
  · intro prefixed
    rw [prefixed]
  · intro masked
    rw [← shiftRight_of_cleared, masked, fits]

theorem opcodeRows_fit : ∀ r ∈ opcodeRows, r.Fits := by
  unfold OpRow.Fits
  decide

/-- Two rows that a word starts with: the longer opcode begins with the shorter. -/
theorem opcode_prefix_of_selects {r q : OpRow} {w : IWord} (hr : r.selects w = true) (hq : q.selects w = true)
    (hle : r.width ≤ q.width) (hw : q.width ≤ 32) : r.opcode = q.opcode >>> (q.width - r.width) := by
  rw [OpRow.selects, beq_iff_eq] at hr hq
  have shifts : 32 - r.width = 32 - q.width + (q.width - r.width) := by omega
  rw [← hr, ← hq, shifts, BitVec.shiftRight_add]

/-- No opcode begins with another (R87). -/
theorem opcodeRows_prefixFree : ∀ r ∈ opcodeRows, ∀ q ∈ opcodeRows, r.width ≤ q.width →
    r.opcode = q.opcode >>> (q.width - r.width) → r = q := by
  decide

theorem row_unique {r q : OpRow} {w : IWord} (mr : r ∈ opcodeRows) (mq : q ∈ opcodeRows) (hr : r.selects w = true)
    (hq : q.selects w = true) : r = q := by
  have width : ∀ r ∈ opcodeRows, r.width ≤ 32 := by decide
  obtain hle | hle := Nat.le_total r.width q.width
  · exact opcodeRows_prefixFree r mr q mq hle (opcode_prefix_of_selects hr hq hle (width q mq))
  · exact (opcodeRows_prefixFree q mq r mr hle (opcode_prefix_of_selects hq hr hle (width r mr))).symm

theorem classOf_eq_some_iff {w : IWord} {c : OpClass} :
    classOf w = some c ↔ ∃ r ∈ opcodeRows, r.cls = c ∧ r.selects w = true := by
  have selects : ∀ {r}, opcodeRows.find? (fun r => r.selects w) = some r → r.selects w = true :=
    fun found => List.find?_some (p := fun r : OpRow => r.selects w) found
  rw [classOf, Option.map_eq_some_iff]
  constructor
  · rintro ⟨r, found, cls⟩
    exact ⟨r, List.mem_of_find?_eq_some found, cls, selects found⟩
  · rintro ⟨r, mem, cls, selected⟩
    refine ⟨r, ?_, cls⟩
    cases found : opcodeRows.find? fun r => r.selects w with
    | none => exact absurd selected (List.find?_eq_none.1 found r mem)
    | some q => rw [row_unique mem (List.mem_of_find?_eq_some found) selected (selects found)]

/-- Settles O2: the row a word starts with is the only one, and it is the one whose mask and match the word meets. -/
theorem classIsTheMatchingTableRow : Obligations.ClassIsTheMatchingTableRow := by
  intro w c
  rw [classOf_eq_some_iff, maskMatchRows_eq]
  simp only [List.mem_map, exists_exists_and_eq_and]
  exact exists_congr fun r => and_congr_right fun mem => and_congr_right fun _ =>
    selects_iff_masked (opcodeRows_fit r mem) w

/-- A word that meets no row of the printed table is of no class (R88). -/
theorem decode_unknown {w : IWord} (h : ∀ r ∈ Machine.maskMatchRows, w &&& r.2.1 ≠ r.2.2) :
    decode w = .error .unknownOpcode := by
  unfold decode
  cases classified : classOf w with
  | none => rfl
  | some c =>
    obtain ⟨r, mem, -, masked⟩ := (classIsTheMatchingTableRow w c).1 classified
    exact absurd masked (h r mem)

/-! ## Bits that take no part in decoding (30_encoding.md R90) -/

/-- A field outside the mask does not change with the masked bits. -/
theorem bits_xor_masked (w v : IWord) {m : IWord} {lo len : Nat} (outside : bits m lo len = 0) :
    bits (w ^^^ (v &&& m)) lo len = bits w lo len := by
  simp only [bits] at outside ⊢
  rw [BitVec.extractLsb'_xor, BitVec.extractLsb'_and, outside]
  simp

theorem regAt_xor_masked (w v : IWord) {m : IWord} {lo : Nat} (outside : bits m lo 5 = 0) :
    regAt (w ^^^ (v &&& m)) lo = regAt w lo := by
  rw [regAt, bits_xor_masked w v outside, regAt]

/-- The class is read off the top 11 bits (R87). -/
theorem classOf_xor_masked (w v : IWord) {m : IWord} (outside : bits m 21 11 = 0) :
    classOf (w ^^^ (v &&& m)) = classOf w := by
  have top : ∀ w : IWord, w.toNat / 2 ^ 21 = (bits w 21 11).toNat := fun w => by
    have := w.isLt
    rw [toNat_bits]
    omega
  rw [classOf_eq_top, classOf_eq_top, top, top, bits_xor_masked w v outside]

/-- Decoding is unchanged when the class and the fields of that class are. -/
theorem decode_xor_masked {w v m : IWord} {c : OpClass} (hc : classOf w = some c) (outside : bits m 21 11 = 0)
    (fields : instrOf (w ^^^ (v &&& m)) c = instrOf w c) : decode (w ^^^ (v &&& m)) = decode w := by
  rw [decode_of_classOf hc, decode_of_classOf ((classOf_xor_masked w v outside).trans hc), fields]

/-- Settles O3: the ignored bits lie outside the top 11 and outside each field of the classes named. -/
theorem ignoredBitsDoNotMatter : Obligations.IgnoredBitsDoNotMatter := by
  refine ⟨fun w v h => ?shamt, fun w v h => ?op2, fun w v h => decode_xor_masked h (by decide) rfl⟩
  case shamt =>
    have rd := regAt_xor_masked w v (m := 0x0000FC00) (lo := 0) (by decide)
    have rn := regAt_xor_masked w v (m := 0x0000FC00) (lo := 5) (by decide)
    have rm := regAt_xor_masked w v (m := 0x0000FC00) (lo := 16) (by decide)
    simp only [List.mem_cons, List.not_mem_nil, or_false] at h
    obtain h | h | h | h := h <;> exact decode_xor_masked h (by decide) (by simp only [instrOf, rd, rn, rm])
  case op2 =>
    have rt := regAt_xor_masked w v (m := 0x00000C00) (lo := 0) (by decide)
    have rn := regAt_xor_masked w v (m := 0x00000C00) (lo := 5) (by decide)
    have off9 := bits_xor_masked w v (m := 0x00000C00) (lo := 12) (len := 9) (by decide)
    simp only [List.mem_cons, List.not_mem_nil, or_false] at h
    obtain h | h | h | h | h | h | h | h := h <;>
      exact decode_xor_masked h (by decide) (by simp only [instrOf, rt, rn, off9])

/-- Settles O4: each word is decoded by computation. -/
theorem workedEncodingsDecode : Obligations.WorkedEncodingsDecode :=
  ⟨rfl, rfl, rfl, rfl, rfl, rfl, rfl, rfl, rfl⟩

end Sys2Proof


/-! # The state that the work in flight will leave (47_pipeline_control.md R216) -/

namespace Sys2Proof.Machine

/-! ## What a retirement reads and writes -/

/-- The fields by which a program sees a state, and the parameters, agree. -/
structure State.Agrees (s t : State) : Prop where
  regs : t.regs = s.regs
  pc : t.pc = s.pc
  flags : t.flags = s.flags
  mem : t.mem = s.mem
  params : t.params = s.params

theorem State.Agrees.trans {s t u : State} (h : s.Agrees t) (h' : t.Agrees u) : s.Agrees u :=
  ⟨h'.regs.trans h.regs, h'.pc.trans h.pc, h'.flags.trans h.flags, h'.mem.trans h.mem, h'.params.trans h.params⟩

/-- The state with another PC and other flags. -/
def State.withPcFlags (pc : Word) (flags : Flags) (s : State) : State := { s with pc := pc, flags := flags }

theorem State.Agrees.withPcFlags {s t : State} (h : s.Agrees t) (pc : Word) (flags : Flags) :
    (s.withPcFlags pc flags).Agrees (t.withPcFlags pc flags) :=
  ⟨h.regs, rfl, rfl, h.mem, h.params⟩

theorem writeReg_agrees {s t : State} (h : s.Agrees t) (n : Fin 31) (v : Word) :
    (writeReg n v s).Agrees (writeReg n v t) :=
  ⟨congrArg (·.set n v) h.regs, h.pc, h.flags, h.mem, h.params⟩

theorem retireMEMWB_reserving {m : MEMWB} {n : Fin 31} (h : reservesOf m.instr = [n]) (s : State) :
    retireMEMWB m s = writeReg n m.val s := by
  unfold retireMEMWB
  rw [h]

theorem retireMEMWB_signalling {m : MEMWB} (h : reservesOf m.instr = []) (s : State) : retireMEMWB m s = s := by
  unfold retireMEMWB
  rw [h]

theorem retireMEMWB_agrees {s t : State} (h : s.Agrees t) (m : MEMWB) :
    (retireMEMWB m s).Agrees (retireMEMWB m t) := by
  unfold retireMEMWB
  split
  · exact writeReg_agrees h _ _
  · exact h

/-- The memory-access unit reads Memory and its size, and writes Memory, alike in states that agree. -/
theorem memoryUnit_agrees {s t : State} (h : s.Agrees t) (i : Instr) (res wdata : Word) :
    (memoryUnit i res wdata s).1.Agrees (memoryUnit i res wdata t).1
      ∧ (memoryUnit i res wdata t).2 = (memoryUnit i res wdata s).2 := by
  have load : ∀ view : Word → Word, (loadVia view res s).1.Agrees (loadVia view res t).1
      ∧ (loadVia view res t).2 = (loadVia view res s).2 := fun view => by
    rw [loadVia_eq, loadVia_eq, wordAt_of_mem h.mem h.params]
    exact ⟨⟨h.regs, h.pc, h.flags, h.mem, h.params⟩, rfl⟩
  have store : ∀ w, (storeVia w res wdata s).1.Agrees (storeVia w res wdata t).1
      ∧ (storeVia w res wdata t).2 = (storeVia w res wdata s).2 := fun w => by
    rw [storeVia_eq, storeVia_eq]
    exact ⟨⟨h.regs, h.pc, h.flags, by rw [h.mem, h.params], h.params⟩, rfl⟩
  cases i with
  | ldur | ldurb | ldurh | ldursw => exact load _
  | stur | sturb | sturh | sturw => exact store _
  | movz | movk | add | adds | sub | subs | addi | addis | subi | subis | hlt | b | cbz | cbnz => exact ⟨h, rfl⟩

theorem retireEXMEM_eq {e : EXMEM} {i : Instr} (h : decode e.instr = .ok i) (s : State) :
    retireEXMEM e s =
      retireMEMWB ⟨e.instr, (memoryUnit i e.res e.wdata s).2⟩ (memoryUnit i e.res e.wdata s).1 := by
  unfold retireEXMEM
  rw [h]

theorem retireEXMEM_of_unknown {e : EXMEM} {x : DecodeReject} (h : decode e.instr = .error x) (s : State) :
    retireEXMEM e s = s := by
  unfold retireEXMEM
  rw [h]

theorem retireEXMEM_agrees {s t : State} (h : s.Agrees t) (e : EXMEM) :
    (retireEXMEM e s).Agrees (retireEXMEM e t) := by
  cases decoded : decode e.instr with
  | error x =>
    rw [retireEXMEM_of_unknown decoded, retireEXMEM_of_unknown decoded]
    exact h
  | ok i =>
    obtain ⟨access, value⟩ := memoryUnit_agrees h i e.res e.wdata
    rw [retireEXMEM_eq decoded, retireEXMEM_eq decoded, value]
    exact retireMEMWB_agrees access _

/-! ## What a retirement leaves to the others -/

theorem retireMEMWB_withPcFlags (m : MEMWB) (pc : Word) (flags : Flags) (s : State) :
    retireMEMWB m (s.withPcFlags pc flags) = (retireMEMWB m s).withPcFlags pc flags := by
  unfold retireMEMWB
  split <;> rfl

theorem memoryUnit_withPcFlags (i : Instr) (res wdata pc : Word) (flags : Flags) (s : State) :
    memoryUnit i res wdata (s.withPcFlags pc flags)
      = ((memoryUnit i res wdata s).1.withPcFlags pc flags, (memoryUnit i res wdata s).2) := by
  cases i <;> rfl

theorem retireEXMEM_withPcFlags (e : EXMEM) (pc : Word) (flags : Flags) (s : State) :
    retireEXMEM e (s.withPcFlags pc flags) = (retireEXMEM e s).withPcFlags pc flags := by
  cases decoded : decode e.instr with
  | error x => rw [retireEXMEM_of_unknown decoded, retireEXMEM_of_unknown decoded]
  | ok i => rw [retireEXMEM_eq decoded, memoryUnit_withPcFlags, retireMEMWB_withPcFlags, retireEXMEM_eq decoded]

/-- An older retirement and a memory access do not meet: the one writes a register, the other Memory. -/
theorem memoryUnit_retireMEMWB (i : Instr) (res wdata : Word) (m : MEMWB) (s : State) :
    memoryUnit i res wdata (retireMEMWB m s)
      = (retireMEMWB m (memoryUnit i res wdata s).1, (memoryUnit i res wdata s).2) := by
  unfold retireMEMWB
  cases reservesOf m.instr <;> cases i <;> rfl

/-- A record in execute, carried on: its target or no change to the PC, its flags, and then as from memory access. -/
theorem retireIDEX_eq {d : IDEX} {o : ExOut} (h : d.outcome = some o) (s : State) :
    retireIDEX d s = retireEXMEM ⟨d.instr, o.res, o.wdata⟩ (s.withPcFlags (o.taken.getD s.pc) o.flags) := by
  have sets : setFlags o.flags s = s.withPcFlags s.pc o.flags := rfl
  unfold retireIDEX
  simp only [h, sets, retireEXMEM_withPcFlags]
  cases o.taken <;> rfl

theorem retireIDEX_agrees {s t : State} (h : s.Agrees t) (d : IDEX) : (retireIDEX d s).Agrees (retireIDEX d t) := by
  cases outcome : d.outcome with
  | none =>
    unfold retireIDEX
    rw [outcome]
    exact h
  | some o =>
    rw [retireIDEX_eq outcome, retireIDEX_eq outcome, h.pc]
    exact retireEXMEM_agrees (h.withPcFlags _ _) _

/-! ## The completed state in two parts: past execute, and from execute on -/

/-- Records of one stage and the latch before it retired, the oldest first. -/
def retireAll {α : Type} (retire : α → State → State) (records : List α) (s : State) : State :=
  records.foldl (fun t a => retire a t) s

theorem retireAll_append {α : Type} (retire : α → State → State) (l l' : List α) (s : State) :
    retireAll retire (l ++ l') s = retireAll retire l' (retireAll retire l s) := List.foldl_append ..

theorem retireAll_agrees {α : Type} {retire : α → State → State}
    (h : ∀ a {s t}, s.Agrees t → (retire a s).Agrees (retire a t)) (records : List α) {s t : State}
    (agrees : s.Agrees t) : (retireAll retire records s).Agrees (retireAll retire records t) := by
  induction records generalizing s t with
  | nil => exact agrees
  | cons a l ih => exact ih (h a agrees)

/-- A change to the state that no retirement meets may come before them or after them. -/
theorem retireAll_comm {α : Type} {retire : α → State → State} {change : State → State} {records : List α}
    (h : ∀ a ∈ records, ∀ s, retire a (change s) = change (retire a s)) (s : State) :
    retireAll retire records (change s) = change (retireAll retire records s) := by
  induction records generalizing s with
  | nil => rfl
  | cons a l ih =>
    exact (congrArg (retireAll retire l) (h a List.mem_cons_self s)).trans
      (ih (fun b hb => h b (List.mem_cons_of_mem a hb)) _)

/-- The records in writeback and before it, and then those in memory access and before it, retired. -/
def retirePast (ms : List MEMWB) (es : List EXMEM) (s : State) : State :=
  retireAll retireEXMEM es (retireAll retireMEMWB ms s)

/-- The record in execute retired, and the one in IDEX if it is on the path. -/
def retireYoung (task : Task IDEX) (latch : Option IDEX) (s : State) : State :=
  if task.inputs.any (·.endsPath) then retireAll retireIDEX task.inputs s
  else retireAll retireIDEX (task.inputs ++ latch.toList) s

/-- The present state with the PC at the next word decode will see. -/
def State.onPath (s : State) : State := s.withPcFlags s.nextAddress s.flags

theorem completed_eq (s : State) : s.completed = retireYoung s.taskEX s.idex
    (retirePast (s.taskWB.inputs ++ s.memwb.toList) (s.taskMEM.inputs ++ s.exmem.toList) s.onPath) := by
  simp only [retireYoung, retirePast, retireAll_append]
  rfl

/-- The youngest record past execute retires last. -/
theorem retireEXMEM_retirePast (ms : List MEMWB) (es : List EXMEM) (e : EXMEM) (s : State) :
    retireEXMEM e (retirePast ms es s) = retirePast ms (es ++ [e]) s :=
  (retireAll_append retireEXMEM es [e] _).symm

theorem retirePast_agrees {s t : State} (h : s.Agrees t) (ms : List MEMWB) (es : List EXMEM) :
    (retirePast ms es s).Agrees (retirePast ms es t) :=
  retireAll_agrees (fun e _ _ h => retireEXMEM_agrees h e) es
    (retireAll_agrees (fun m _ _ h => retireMEMWB_agrees h m) ms h)

theorem retireYoung_agrees {s t : State} (h : s.Agrees t) (task : Task IDEX) (latch : Option IDEX) :
    (retireYoung task latch s).Agrees (retireYoung task latch t) := by
  unfold retireYoung
  split <;> exact retireAll_agrees (fun d _ _ h => retireIDEX_agrees h d) _ h

theorem retirePast_withPcFlags (ms : List MEMWB) (es : List EXMEM) (pc : Word) (flags : Flags) (s : State) :
    retirePast ms es (s.withPcFlags pc flags) = (retirePast ms es s).withPcFlags pc flags := by
  unfold retirePast
  rw [retireAll_comm (change := State.withPcFlags pc flags) fun m _ s => retireMEMWB_withPcFlags m pc flags s,
    retireAll_comm (change := State.withPcFlags pc flags) fun e _ s => retireEXMEM_withPcFlags e pc flags s]

theorem retirePast_pc (ms : List MEMWB) (es : List EXMEM) (s : State) : (retirePast ms es s).pc = s.pc := by
  have unchanged : s = s.withPcFlags s.pc s.flags := rfl
  rw [unchanged, retirePast_withPcFlags]
  rfl

/-! ## The two parts event by event -/

/-- Where the work in flight of a state is the work named, its completed state agrees with that work retired from any
state that agrees with the present one. -/
theorem agrees_completed {s t : State} {ms : List MEMWB} {es : List EXMEM} {task : Task IDEX} {latch : Option IDEX}
    (hms : t.taskWB.inputs ++ t.memwb.toList = ms) (hes : t.taskMEM.inputs ++ t.exmem.toList = es)
    (htask : t.taskEX = task) (hlatch : t.idex = latch) (h : s.Agrees t.onPath) :
    (retireYoung task latch (retirePast ms es s)).Agrees t.completed := by
  subst hms hes htask hlatch
  rw [completed_eq]
  exact retireYoung_agrees (retirePast_agrees h _ _) _ _

/-- A launch moves a record from its latch to its task. -/
theorem Admission.inputs {α : Type} {gated busy : Bool} {task task' : Task α} {latch latch' : Option α}
    (h : Admission gated task latch task' latch' busy) :
    task'.inputs ++ latch'.toList = task.inputs ++ latch.toList := by
  cases h with
  | atWork a running => rfl
  | launched a free ungated populated => simp [inputs_of_idle free, populated]
  | idle free nothing => simp [inputs_of_idle free]

/-- Nothing stands in IDEX behind a record just launched, so it makes no difference whether that one ends the path. -/
theorem Admission.retireYoung {gated busy : Bool} {task task' : Task IDEX} {latch latch' : Option IDEX}
    (h : Admission gated task latch task' latch' busy) (s : State) :
    retireYoung task' latch' s = retireYoung task latch s := by
  cases h with
  | atWork a running => rfl
  | launched a free ungated populated => simp [Machine.retireYoung, inputs_of_idle free, populated]
  | idle free nothing => simp [Machine.retireYoung, inputs_of_idle free]

/-- What a pulse does with each stage that has a latch before it; a fetch it launches finds IFID empty (R203, R204). -/
theorem pulse_admissions {s : State} (h : s.BusyOk) :
    Admission false s.taskWB s.memwb (pulse s).taskWB (pulse s).memwb (pulse s).busyWB
      ∧ Admission false s.taskMEM s.exmem (pulse s).taskMEM (pulse s).exmem (pulse s).busyMEM
      ∧ Admission s.exFlushing s.taskEX s.idex (pulse s).taskEX (pulse s).idex (pulse s).busyEX
      ∧ Admission false s.taskID s.ifid (pulse s).taskID (pulse s).ifid (pulse s).busyID
      ∧ (pulse s).busyIF = (pulse s).taskIF.isActive
      ∧ ((pulse s).taskIF = .running () → s.taskIF = .running () ∨ (pulse s).ifid = none) := by
  obtain ⟨hIF, hID, hEX, hMEM, hWB⟩ := h
  obtain ⟨taskWB, memwb, busyWB, eWB, admitsWB⟩ := admitWB_admission hWB
  let afterWB : State := { s with taskWB := taskWB, memwb := memwb, busyWB := busyWB }
  obtain ⟨taskMEM, exmem, busyMEM, eMEM, admitsMEM⟩ := admitMEM_admission (s := afterWB) hMEM
  let afterMEM : State := { afterWB with taskMEM := taskMEM, exmem := exmem, busyMEM := busyMEM }
  obtain ⟨taskEX, idex, busyEX, eEX, admitsEX⟩ := admitEX_admission (s := afterMEM) hEX
  let afterEX : State := { afterMEM with taskEX := taskEX, idex := idex, busyEX := busyEX }
  obtain ⟨taskID, ifid, busyID, eID, admitsID⟩ := admitID_admission (s := afterEX) hID
  let afterID : State := { afterEX with taskID := taskID, ifid := ifid, busyID := busyID }
  rw [pulse, eWB, eMEM, eEX, eID]
  obtain ⟨hbusy, running, e⟩ | ⟨-, empty, e⟩ | ⟨-, -, e⟩ := admitIF_cases (s := afterID) hIF <;> rw [e]
  · exact ⟨admitsWB, admitsMEM, admitsEX, admitsID, hIF, .inl⟩
  · exact ⟨admitsWB, admitsMEM, admitsEX, admitsID, rfl, fun _ => .inr empty⟩
  · exact ⟨admitsWB, admitsMEM, admitsEX, admitsID, rfl, nofun⟩

/-- The address decode sees next goes with the record from IFID to decode. -/
theorem nextAddress_of_admission {s t : State} {busy : Bool}
    (h : Admission false s.taskID s.ifid t.taskID t.ifid busy) (hpc : t.pc = s.pc) :
    t.nextAddress = s.nextAddress := by
  unfold State.nextAddress
  rw [hpc]
  generalize s.taskID = task, s.ifid = latch, t.taskID = task', t.ifid = latch' at h
  cases h with
  | atWork a running => rfl
  | launched a free ungated populated => obtain rfl | rfl := free <;> simp [populated]
  | idle free nothing => obtain rfl | rfl := free <;> simp_all

theorem pulse_completed {s : State} (h : s.BusyOk) : s.completed.Agrees (pulse s).completed := by
  obtain ⟨admitsWB, admitsMEM, admitsEX, admitsID, -⟩ := pulse_admissions h
  obtain ⟨regs, pc, flags, mem, -⟩ := pulse_keeps_data s
  obtain ⟨params, -⟩ := pulse_host s
  rw [completed_eq s, ← admitsEX.retireYoung]
  exact agrees_completed admitsWB.inputs admitsMEM.inputs rfl rfl
    ⟨regs, nextAddress_of_admission admitsID pc, flags, mem, params⟩

/-- The word a fetch publishes is the next one decode sees. -/
theorem fetchStep_completed {s : State} (h : s.ifid = none) : s.completed.Agrees (fetchStep s).completed := by
  have next : (fetchStep s).nextAddress = s.nextAddress := by
    rw [fetchStep_eq]
    unfold State.nextAddress
    cases s.taskID <;> simp [h]
  rw [completed_eq s]
  refine agrees_completed ?_ ?_ ?_ ?_ ⟨?_, next, ?_, ?_, ?_⟩ <;> rw [fetchStep_eq] <;> rfl

/-- A record's access may come before the retirement of older ones, which write registers alone. -/
theorem retirePast_access {e : EXMEM} {i : Instr} (hi : decode e.instr = .ok i) (ms : List MEMWB) (es : List EXMEM)
    (s : State) : retirePast ms (e :: es) s =
      retirePast (ms ++ [⟨e.instr, (memoryUnit i e.res e.wdata s).2⟩]) es (memoryUnit i e.res e.wdata s).1 := by
  have access : memoryUnit i e.res e.wdata (retireAll retireMEMWB ms s)
      = (retireAll retireMEMWB ms (memoryUnit i e.res e.wdata s).1, (memoryUnit i e.res e.wdata s).2) := by
    induction ms generalizing s with
    | nil => rfl
    | cons m ms ih => simp only [retireAll, List.foldl_cons] at ih ⊢; rw [ih, memoryUnit_retireMEMWB]
  have first : retireAll retireEXMEM (e :: es) (retireAll retireMEMWB ms s)
      = retireAll retireEXMEM es (retireEXMEM e (retireAll retireMEMWB ms s)) := rfl
  rw [retirePast, first, retireEXMEM_eq hi, access, retirePast, retireAll_append]
  rfl

/-- The memory-access step does what its unit does, hands on the value, and completes. -/
theorem memoryStep_of_decode {e : EXMEM} {i : Instr} (hi : decode e.instr = .ok i) (s : State) :
    memoryStep e s = { (memoryUnit i e.res e.wdata s).1 with
      memwb := some ⟨e.instr, (memoryUnit i e.res e.wdata s).2⟩, taskMEM := .done } := by
  unfold memoryStep
  rw [hi]

theorem memoryStep_completed {s : State} {e : EXMEM} {i : Instr} (ht : s.taskMEM = .running e)
    (hempty : s.memwb = none) (hi : decode e.instr = .ok i) : s.completed.Agrees (memoryStep e s).completed := by
  obtain ⟨mem, mar, mdr, halted, frame⟩ := memoryUnit_frame i e.res e.wdata s
  have moved : memoryUnit i e.res e.wdata s.onPath = _ := memoryUnit_withPcFlags ..
  rw [completed_eq s, ht, hempty, inputs_running, List.singleton_append, retirePast_access hi, moved,
    memoryStep_of_decode hi, frame]
  refine agrees_completed ?_ rfl rfl rfl ⟨rfl, rfl, rfl, rfl, rfl⟩
  simp

/-- From the bookkeeping, writeback is the retirement of its record: the LockQueue's head is the record's own
reservation (46_pipeline_stages.md R190). -/
theorem writebackStep_retires {s : State} {m : MEMWB} (h : s.Bookkeeping) (ht : s.taskWB = .running m) :
    ∃ lq, s.lq = reservesOf m.instr ++ lq
      ∧ writebackStep m s = .next { retireMEMWB m s with lq := lq, taskWB := .done } := by
  have dequeued := dequeues_of_accepted (accepted_of_writeback h ht)
  have lockQueue := lq_of_writeback h ht
  obtain none | ⟨n, reserved⟩ := reservesOf_nil_or_singleton m.instr
  · rw [none] at dequeued ⊢
    exact ⟨s.lq, rfl, by rw [writebackStep_signal s dequeued, retireMEMWB_signalling none]⟩
  · rw [reserved] at dequeued lockQueue ⊢
    exact ⟨_, lockQueue, by rw [writebackStep_dequeue dequeued lockQueue, retireMEMWB_reserving reserved]; rfl⟩

theorem writebackStep_completed {s t : State} {m : MEMWB} (h : s.Bookkeeping) (ht : s.taskWB = .running m)
    (e : writebackStep m s = .next t) : s.completed.Agrees t.completed := by
  obtain ⟨lq, -, retires⟩ := writebackStep_retires h ht
  obtain rfl := Host.Outcome.next.inj (retires.symm.trans e)
  have moved : retireMEMWB m s.onPath = (retireMEMWB m s).withPcFlags s.nextAddress s.flags :=
    retireMEMWB_withPcFlags ..
  have first : retirePast (m :: s.memwb.toList) (s.taskMEM.inputs ++ s.exmem.toList) s.onPath
    = retirePast s.memwb.toList (s.taskMEM.inputs ++ s.exmem.toList) (retireMEMWB m s.onPath) := rfl
  rw [completed_eq s, ht, inputs_running, List.singleton_append, first, moved]
  unfold retireMEMWB
  split <;> exact agrees_completed rfl rfl rfl rfl ⟨rfl, rfl, rfl, rfl, rfl⟩

/-- A record in execute, retired from there: IDEX behind it is on the path unless it takes a branch. -/
theorem retireYoung_running {d : IDEX} {o : ExOut} (h : d.outcome = some o) (latch : Option IDEX) (s : State) :
    retireYoung (.running d) latch s = retireYoung .done (if o.taken.isSome then none else latch)
      (retireEXMEM ⟨d.instr, o.res, o.wdata⟩ (s.withPcFlags (o.taken.getD s.pc) o.flags)) := by
  have ends : d.endsPath = o.taken.isSome := by
    unfold IDEX.endsPath
    rw [h]
  rw [← retireIDEX_eq h]
  cases taken : o.taken.isSome <;> simp [retireYoung, retireAll, ends, taken]

theorem executeStep_completed {s : State} {d : IDEX} {i : Instr} {o : ExOut} (hempty : s.exmem = none)
    (ht : s.taskEX = .running d) (hi : decode d.instr = .ok i)
    (ho : executeUnit i d.ipc d.a d.b d.imm = some o) : s.completed.Agrees (executeStep d s).completed := by
  have outcome : d.outcome = some o := by
    unfold IDEX.outcome
    rw [hi]
    exact ho
  rw [completed_eq s, ht, hempty, retireYoung_running outcome, retirePast_pc, ← retirePast_withPcFlags,
    retireEXMEM_retirePast, Option.toList_none, List.append_nil]
  cases taken : o.taken with
  | none =>
    have step : executeStep d s = { setFlags o.flags s with
        exmem := some ⟨d.instr, o.res, o.wdata⟩, taskEX := .done } := by
      unfold executeStep
      simp only [hi, ho, taken]
      rfl
    rw [step]
    exact agrees_completed rfl rfl rfl rfl ⟨rfl, rfl, rfl, rfl, rfl⟩
  | some target =>
    obtain ⟨-, -, rfl⟩ := executeUnit_taken ho taken
    rw [executeStep_taken s hi ho taken, flush_eq]
    exact agrees_completed rfl rfl rfl rfl ⟨rfl, rfl, rfl, rfl, rfl⟩

/-- The first pulse starts the run and no more. -/
theorem beginRun_completed (s : State) : s.completed.Agrees (beginRun s).completed := by
  rw [completed_eq s]
  exact agrees_completed rfl rfl rfl rfl ⟨rfl, rfl, rfl, rfl, rfl⟩

/-- Settles O56: each event moves work from one place in flight to the next, or does a part of it early. -/
theorem pipelineEventsKeepTheCompletedState : Obligations.PipelineEventsKeepTheCompletedState := by
  intro e s t hs _ he notHlt step
  obtain ⟨bookkeeping, -⟩ := pipelineOk_iff.1 hs
  obtain ⟨accepted, -, -⟩ := bookkeeping.accepted
  obtain ⟨-, gate⟩ := bookkeeping.gate
  suffices agrees : s.completed.Agrees t.completed from ⟨agrees.regs, agrees.flags, agrees.mem, agrees.pc⟩
  simp only [List.mem_cons, List.not_mem_nil, or_false] at he
  obtain rfl | rfl | rfl | rfl | rfl := he
  · obtain ⟨-, -, step⟩ := whenClocked_next.1 step
    cases step
    exact (beginRun_completed s).trans (pulse_completed (s := beginRun s) bookkeeping.busy)
  · obtain ⟨-, running, rfl⟩ := performEvent_fetch_next.1 step
    exact fetchStep_completed (gate running)
  · obtain ⟨-, d, running, enabled, rfl⟩ := performEvent_execute_next.1 step
    obtain ⟨i, hi, -⟩ := accepted d.instr (by simp [State.inFlight, running])
    have hne : i ≠ .hlt := fun h => notHlt rfl d running (by rw [hi, h])
    obtain ⟨o, ho⟩ := Option.ne_none_iff_exists'.1 (mt (executeUnit_none_iff i d.ipc d.a d.b d.imm).1 hne)
    rw [executeEnabled_other s hi hne, Option.isNone_iff_eq_none] at enabled
    exact executeStep_completed enabled running hi ho
  · obtain ⟨-, e, running, empty, rfl⟩ := performEvent_memory_next.1 step
    obtain ⟨i, hi, -⟩ := accepted e.instr (by simp [State.inFlight, State.pastExecute, running])
    exact memoryStep_completed running empty hi
  · obtain ⟨-, m, running, step⟩ := performEvent_writeback_next.1 step
    exact writebackStep_completed bookkeeping running step

/-! ## Decode adds its instruction's sequential meaning (47_pipeline_control.md R216, R231) -/

/-- A retirement writes no register but the reserved one. -/
theorem retireMEMWB_x {m : MEMWB} {n : Fin 31} (h : n ∉ reservesOf m.instr) (s : State) :
    (retireMEMWB m s).x (.x n) = s.x (.x n) := by
  obtain e | ⟨k, e⟩ := reservesOf_nil_or_singleton m.instr
  · rw [retireMEMWB_signalling e]
  · rw [retireMEMWB_reserving e]
    refine writeReg_x_other (fun hk => h ?_) _ _
    rw [e, Reg.x.inj hk]
    exact List.mem_singleton_self k

theorem retireEXMEM_x {e : EXMEM} {n : Fin 31} (h : n ∉ reservesOf e.instr) (s : State) :
    (retireEXMEM e s).x (.x n) = s.x (.x n) := by
  cases decoded : decode e.instr with
  | error x => rw [retireEXMEM_of_unknown decoded]
  | ok i =>
    obtain ⟨mem, mar, mdr, halted, access⟩ := memoryUnit_frame i e.res e.wdata s
    rw [retireEXMEM_eq decoded, retireMEMWB_x (m := ⟨e.instr, _⟩) h, access]
    rfl

theorem retireIDEX_x {d : IDEX} {n : Fin 31} (h : n ∉ reservesOf d.instr) (s : State) :
    (retireIDEX d s).x (.x n) = s.x (.x n) := by
  cases outcome : d.outcome with
  | none =>
    unfold retireIDEX
    rw [outcome]
  | some o =>
    rw [retireIDEX_eq outcome, retireEXMEM_x (e := ⟨d.instr, _, _⟩) h]
    rfl

theorem retireAll_x {α : Type} {retire : α → State → State} {n : Fin 31} {records : List α}
    (h : ∀ a ∈ records, ∀ s : State, (retire a s).x (.x n) = s.x (.x n)) (s : State) :
    (retireAll retire records s).x (.x n) = s.x (.x n) := by
  induction records generalizing s with
  | nil => rfl
  | cons a l ih =>
    exact (ih (fun b hb => h b (List.mem_cons_of_mem a hb)) _).trans (h a List.mem_cons_self s)

/-- A register that no work in flight reserves is left as it is. -/
theorem completed_x {s : State} {n : Fin 31} (h : ∀ w ∈ s.inFlight, n ∉ reservesOf w) :
    s.completed.x (.x n) = s.x (.x n) := by
  simp only [State.inFlight, State.pastExecute, List.mem_append, or_imp, forall_and, List.forall_mem_map] at h
  obtain ⟨⟨⟨⟨⟨hWB, hmemwb⟩, hMEM⟩, hexmem⟩, hEX⟩, hidex⟩ := h
  have past : (retirePast (s.taskWB.inputs ++ s.memwb.toList) (s.taskMEM.inputs ++ s.exmem.toList) s.onPath).x (.x n)
      = s.x (.x n) := by
    rw [retirePast, retireAll_x, retireAll_x]
    · rfl
    · exact fun m hm => retireMEMWB_x ((List.mem_append.1 hm).elim (hWB m) (hmemwb m))
    · exact fun e he => retireEXMEM_x ((List.mem_append.1 he).elim (hMEM e) (hexmem e))
  rw [completed_eq, ← past, retireYoung]
  split
  · exact retireAll_x (fun d hd => retireIDEX_x (hEX d hd)) _
  · exact retireAll_x (fun d hd => retireIDEX_x ((List.mem_append.1 hd).elim (hEX d) (hidex d))) _

theorem retireBranch_eq (o : ExOut) (s : State) :
    retireBranch o s = .next (s.withPcFlags (o.taken.getD s.pc) o.flags) := by
  unfold retireBranch
  cases o.taken <;> rfl

theorem dst_ne_xzr_of_wellFormed {i : Instr} (h : i.wellFormed = true) : dst i ≠ some .xzr :=
  writesXzr_eq_false_iff.1 (by simpa [wellFormed_eq_not_writesXzr] using h)

/-- For an instruction that decode accepts, other than HLT, and a load in range: its meaning is what the stages after
decode make of the record that decode publishes. -/
theorem exec_eq_retireIDEX {w : IWord} {i : Instr} (hi : decode w = .ok i) (wellFormed : i.wellFormed = true)
    (hne : i ≠ .hlt) {s : State} (inRange : loadInRange i s) (reserved : Bool) :
    exec i s = .next (retireIDEX ⟨w, s.pc, s.xOpt (src1 i), s.xOpt (src2 i), immOf i, reserved⟩ s) := by
  obtain ⟨o, ho⟩ := Option.ne_none_iff_exists'.1
    (mt (executeUnit_none_iff i s.pc (s.xOpt (src1 i)) (s.xOpt (src2 i)) (immOf i)).1 hne)
  have outcome : IDEX.outcome ⟨w, s.pc, s.xOpt (src1 i), s.xOpt (src2 i), immOf i, reserved⟩ = some o := by
    unfold IDEX.outcome
    rw [hi]
    exact ho
  rw [retireIDEX_eq outcome, retireEXMEM_eq (e := ⟨w, o.res, o.wdata⟩) hi]
  have signals : dst i = none → ∀ v u, retireMEMWB ⟨w, v⟩ u = u := fun h v u =>
    retireMEMWB_signalling (m := ⟨w, v⟩) (by rw [reservesOf_of_decode hi, reservation_of_dst_none h]; rfl) u
  have reserves : ∀ n, dst i = some (.x n) → ∀ v u, retireMEMWB ⟨w, v⟩ u = writeReg n v u := fun n h v u =>
    retireMEMWB_reserving (m := ⟨w, v⟩) (by rw [reservesOf_of_decode hi, reservation_of_dst h]; rfl) u
  have valid := dst_ne_xzr_of_wellFormed wellFormed
  cases i with
  | hlt => exact absurd rfl hne
  | movz rd | movk rd | add rd | adds rd | sub rd | subs rd | addi rd | addis rd | subi rd | subis rd =>
    cases rd with
    | xzr => exact absurd rfl valid
    | x n =>
      cases ho
      rw [reserves n rfl]
      rfl
  | stur | sturb | sturh | sturw =>
    cases ho
    rw [signals rfl]
    rfl
  | ldur rt | ldurb rt | ldurh rt | ldursw rt =>
    cases rt with
    | xzr => exact absurd rfl valid
    | x n =>
      cases ho
      rw [reserves n rfl]
      exact congrArg Host.Outcome.next (if_pos inRange)
  | b | cbz | cbnz =>
    have retired := retireBranch_eq o s
    rw [signals rfl]
    cases ho
    exact retired

/-- A record that does not end the path leaves the PC to the others. -/
theorem retireIDEX_pc_moved {d : IDEX} (h : d.endsPath = false) (pc : Word) (s : State) :
    retireIDEX d { s with pc := pc } = { retireIDEX d s with pc := pc } := by
  unfold IDEX.endsPath at h
  cases outcome : d.outcome with
  | none => simp [outcome] at h
  | some o =>
    have untaken : o.taken = none := by simpa [outcome] using h
    have moved : State.withPcFlags pc o.flags { s with pc := pc } = s.withPcFlags pc o.flags := rfl
    simp only [retireIDEX_eq outcome, untaken, Option.getD_none, moved, retireEXMEM_withPcFlags]
    rfl

theorem retirePast_pc_moved (ms : List MEMWB) (es : List EXMEM) (pc : Word) (s : State) :
    retirePast ms es { s with pc := pc } = { retirePast ms es s with pc := pc } := by
  have kept : retirePast ms es s = (retirePast ms es s).withPcFlags s.pc s.flags :=
    retirePast_withPcFlags ms es s.pc s.flags s
  calc retirePast ms es { s with pc := pc } = (retirePast ms es s).withPcFlags pc s.flags :=
        retirePast_withPcFlags ms es pc s.flags s
    _ = { (retirePast ms es s).withPcFlags s.pc s.flags with pc := pc } := rfl
    _ = { retirePast ms es s with pc := pc } := by rw [← kept]

/-- The completed state of decode's step: its record retired from the completed state before it, at its incremented
PC. -/
theorem decodeStep_completed {s : State} {d : IFID} {i : Instr} (hID : s.taskID = .running d)
    (hi : decode d.instr = .ok i) (hx : dst i ≠ some .xzr) (hempty : s.idex = none) (fetchOrder : s.FetchOrderOk)
    (onPath : s.taskEX.inputs.any (·.endsPath) = false) :
    (retireIDEX (idexRecord d i s) { s.completed with pc := d.ipc }).Agrees (decodeStep d s).completed := by
  obtain ⟨-, youngest, consecutive⟩ := fetchOrder
  have next : (decodeStep d s).nextAddress = d.ipc := by
    rw [decodeStep_publishes s hi hx]
    unfold State.nextAddress
    cases hf : s.ifid with
    | none => exact youngest d hID hf
    | some f => simp [consecutive d f hID hf]
  have young : ∀ latch u, retireYoung s.taskEX latch u
      = retireAll retireIDEX latch.toList (retireAll retireIDEX s.taskEX.inputs u) := fun latch u => by
    rw [retireYoung, onPath, if_neg Bool.false_ne_true, retireAll_append]
  have moved : { s.completed with pc := d.ipc } = retireAll retireIDEX s.taskEX.inputs (retirePast
      (s.taskWB.inputs ++ s.memwb.toList) (s.taskMEM.inputs ++ s.exmem.toList) { s.onPath with pc := d.ipc }) := by
    have untaken : ∀ r ∈ s.taskEX.inputs, r.endsPath = false := by simpa using onPath
    rw [retirePast_pc_moved, retireAll_comm (change := fun u => { u with pc := d.ipc }) fun r hr =>
      retireIDEX_pc_moved (untaken r hr) d.ipc, completed_eq, hempty, young]
    rfl
  have last : ∀ u, retireIDEX (idexRecord d i s) (retireAll retireIDEX s.taskEX.inputs u)
      = retireYoung s.taskEX (some (idexRecord d i s)) u := fun u => (young (some (idexRecord d i s)) u).symm
  rw [moved, last]
  refine agrees_completed ?_ ?_ ?_ ?_ ⟨?_, next, ?_, ?_, ?_⟩ <;> rw [decodeStep_publishes s hi hx] <;> rfl

theorem xOpt_congr {s t : State} {r : Option Reg} (h : ∀ q, r = some q → t.x q = s.x q) : t.xOpt r = s.xOpt r := by
  cases r with
  | none => rfl
  | some q => exact h q rfl

/-- An unlocked register is reserved by no word in flight (10_state.md R25). -/
theorem not_reserved_of_unlocked {s : State} (h : s.LockQueueOk) {n : Fin 31} (unlocked : s.locked (.x n) = false) :
    ∀ w ∈ s.inFlight, n ∉ reservesOf w := by
  have lockQueue : s.lq = _ := h
  simpa [State.locked, lockQueue] using unlocked

/-- A source that decode finds unlocked reads as the work in flight will leave it. -/
theorem completed_x_of_unlocked {s : State} (h : s.LockQueueOk) {r : Reg} (unlocked : s.locked r = false) :
    s.completed.x r = s.x r := by
  cases r with
  | xzr => rfl
  | x n => exact completed_x (not_reserved_of_unlocked h unlocked)

/-- Settles O57: decode's operands are those of the completed state, so the record it publishes retires to the
instruction's meaning there. -/
theorem decodeIssuesTheSequentialInstruction : Obligations.DecodeIssuesTheSequentialInstruction := by
  intro s t d i hs fetchOrder hID hi wellFormed hne onPath inRange step
  obtain ⟨bookkeeping, -⟩ := pipelineOk_iff.1 hs
  obtain ⟨-, d', hID', enabled, rfl⟩ := performEvent_decode_next.1 step
  obtain rfl := Task.running.inj (hID.symm.trans hID')
  have hx := dst_ne_xzr_of_wellFormed wellFormed
  obtain ⟨free, empty⟩ := (decodeEnabled_iff hi hx).1 enabled
  have operand1 : s.completed.xOpt (src1 i) = s.xOpt (src1 i) :=
    xOpt_congr fun r hr => completed_x_of_unlocked bookkeeping.lockQueue (free r (.inl hr))
  have operand2 : s.completed.xOpt (src2 i) = s.xOpt (src2 i) :=
    xOpt_congr fun r hr => completed_x_of_unlocked bookkeeping.lockQueue (free r (.inr hr))
  have record : idexRecord d i s = ⟨d.instr, d.ipc, s.completed.xOpt (src1 i), s.completed.xOpt (src2 i), immOf i,
      (reservation i).isSome⟩ := by
    rw [operand1, operand2]
    rfl
  have inRange' : loadInRange i { s.completed with pc := d.ipc } := by cases i <;> exact inRange
  have agrees := decodeStep_completed hID hi hx empty fetchOrder onPath
  rw [record] at agrees
  exact ⟨_, exec_eq_retireIDEX hi wellFormed hne inRange' _, agrees.regs, agrees.flags, agrees.mem, agrees.pc⟩

end Sys2Proof.Machine


/-! # The LockQueue in use (10_state.md R25, 46_pipeline_stages.md R170, R179, R190) -/

namespace Sys2Proof.Machine

/-- Settles O51: the retirement of the record writes the register that the record reserves. -/
theorem writebackWritesTheInstructionsOwnDestination : Obligations.WritebackWritesTheInstructionsOwnDestination := by
  intro s m i n hs hfatal hWB hi hdst
  obtain ⟨bookkeeping, -⟩ := pipelineOk_iff.1 hs
  have reserved : reservesOf m.instr = [n] := by
    rw [reservesOf_of_decode hi, reservation_of_dst hdst]
    rfl
  obtain ⟨lq, lockQueue, retires⟩ := writebackStep_retires bookkeeping hWB
  rw [retireMEMWB_reserving reserved] at retires
  refine ⟨_, performEvent_writeback_next.2 ⟨hfatal, m, hWB, retires⟩, writeReg_x_same n m.val s,
    fun _ hr => writeReg_x_other hr m.val s, ?_⟩
  rw [lockQueue, reserved]
  rfl

theorem sourcesFree_of_decodeEnabled {d : IFID} {s : State} {i : Instr} (hi : decode d.instr = .ok i)
    (h : decodeEnabled d s = true) : s.sourcesFree i = true := by
  unfold decodeEnabled at h
  rw [hi] at h
  exact (Bool.and_eq_true_iff.1 h).1

/-- Settles O52: a source is unlocked, so no word in flight reserves it. -/
theorem enabledDecodeHasNoOlderWriterInFlight : Obligations.EnabledDecodeHasNoOlderWriterInFlight := by
  intro s d i n hs hID hi enabled source w hw j hj hdst
  obtain ⟨bookkeeping, -⟩ := pipelineOk_iff.1 hs
  obtain ⟨d', hID', enabled⟩ := stageEnabled_decode.1 enabled
  obtain rfl := Task.running.inj (hID.symm.trans hID')
  have unlocked := sourcesFree_iff.1 (sourcesFree_of_decodeEnabled hi enabled) (.x n) source
  refine not_reserved_of_unlocked bookkeeping.lockQueue unlocked w hw ?_
  rw [reservesOf_of_decode hj, reservation_of_dst hdst]
  exact List.mem_singleton_self n

/-! ## It is never dequeued empty, and holds six entries at most -/

/-- Writeback alone may stop at an empty LockQueue, and does not when the bookkeeping holds. -/
theorem stageStep_answers {st : Stage} {s : State} (h : st = .writeback → s.Bookkeeping) :
    ∃ t, stageStep st s = .next t := by
  cases st with
  | fetch => exact ⟨_, rfl⟩
  | decode | execute | memory => simp only [stageStep]; split <;> exact ⟨_, rfl⟩
  | writeback =>
    simp only [stageStep]
    split
    · rename_i m hWB
      obtain ⟨lq, -, retires⟩ := writebackStep_retires (h rfl) hWB
      exact ⟨_, retires⟩
    · exact ⟨_, rfl⟩
    · exact ⟨_, rfl⟩

theorem settleStage_answers {st : Stage} {s : State} (h : st = .writeback → s.Bookkeeping) :
    ∃ t, settleStage st s = .next t := by
  unfold settleStage
  split
  · exact stageStep_answers h
  · exact ⟨_, rfl⟩

/-- Writeback settles first, and so on the state as the tick finds it. -/
theorem tick_answers {s : State} (h : s.Bookkeeping) : ∃ t, tick s = .next t := by
  have later : ∀ st u, st ≠ .writeback → ∃ t, settleStage st u = .next t := fun st u hst =>
    settleStage_answers (absurd · hst)
  obtain ⟨u1, e1⟩ := settleStage_answers (st := .writeback) fun _ => h
  obtain ⟨u2, e2⟩ := later .memory u1 nofun
  obtain ⟨u3, e3⟩ := later .execute u2 nofun
  obtain ⟨u4, e4⟩ := later .decode u3 nofun
  obtain ⟨u5, e5⟩ := later .fetch u4 nofun
  exact ⟨admitPhase u5, by simp only [tick, settle, andThen, e1, e2, e3, e4, e5]⟩

theorem instructionStep_answers (s : State) : ∃ t, instructionStep s = .next t := by
  unfold instructionStep execWord
  split
  · exact ⟨_, rfl⟩
  · split
    · obtain ⟨_, _, _, _, _, _, _, _, e⟩ := exec_next _ (fetchAccess s)
      exact ⟨_, e⟩
    · exact ⟨_, rfl⟩

/-- The outcome is not the fault of dequeuing an empty LockQueue. -/
def NotEmptyQueue (o : Host.Outcome State Fault Refusal) : Prop := o ≠ .fault .emptyLockQueue

theorem notEmptyQueue_of_answers {o : Host.Outcome State Fault Refusal} (h : ∃ t, o = .next t) : NotEmptyQueue o := by
  obtain ⟨t, rfl⟩ := h
  nofun

theorem notEmptyQueue_whenClocked {s : State} {o : Host.Outcome State Fault Refusal} (h : NotEmptyQueue o) :
    NotEmptyQueue (whenClocked s o) := by
  unfold whenClocked
  split
  · nofun
  · split
    · nofun
    · exact h

theorem notEmptyQueue_whenAllowed {ok : Bool} {o : Host.Outcome State Fault Refusal} (h : NotEmptyQueue o) :
    NotEmptyQueue (whenAllowed ok o) := by
  unfold whenAllowed
  split
  · exact h
  · nofun

theorem notEmptyQueue_stageEvent {st : Stage} {s : State} (h : s.Bookkeeping) : NotEmptyQueue (stageEvent st s) := by
  unfold stageEvent
  split
  · nofun
  · split
    · exact notEmptyQueue_of_answers (stageStep_answers fun _ => h)
    · nofun

theorem notEmptyQueue_performEvent {s : State} (h : s.Bookkeeping) (e : Event) : NotEmptyQueue (performEvent e s) := by
  cases e with
  | pulse => exact notEmptyQueue_whenClocked nofun
  | stage st => exact notEmptyQueue_stageEvent h
  | tick => exact notEmptyQueue_whenClocked (notEmptyQueue_of_answers (tick_answers h))
  | instruction =>
    refine notEmptyQueue_whenClocked ?_
    split
    · exact notEmptyQueue_of_answers (instructionStep_answers _)
    · nofun
  | reset => nofun
  | createMemory size => exact notEmptyQueue_whenAllowed nofun
  | zeroMemory => exact notEmptyQueue_whenAllowed nofun
  | flash image => exact notEmptyQueue_whenAllowed nofun
  | load image =>
    refine notEmptyQueue_whenAllowed ?_
    split <;> nofun

theorem flatMap_reservesOf_length_le (ws : List IWord) : (ws.flatMap reservesOf).length ≤ ws.length := by
  induction ws with
  | nil => exact Nat.le_refl 0
  | cons w ws ih =>
    rw [List.flatMap_cons, List.length_append, List.length_cons]
    obtain e | ⟨n, e⟩ := reservesOf_nil_or_singleton w <;> rw [e]
    · simp only [List.length_nil]; omega
    · simp only [List.length_singleton]; omega

theorem inputs_length_le {α : Type} (t : Task α) : t.inputs.length ≤ 1 := by cases t <;> simp

theorem toList_length_le {α : Type} (o : Option α) : o.toList.length ≤ 1 := by cases o <;> simp

/-- Six places hold one word each. -/
theorem inFlight_length_le (s : State) : s.inFlight.length ≤ 6 := by
  have hWB := inputs_length_le s.taskWB
  have hmemwb := toList_length_le s.memwb
  have hMEM := inputs_length_le s.taskMEM
  have hexmem := toList_length_le s.exmem
  have hEX := inputs_length_le s.taskEX
  have hidex := toList_length_le s.idex
  simp only [State.inFlight, State.pastExecute, List.length_append, List.length_map]
  omega

/-- Settles O50: the LockQueue holds the reservations of the words in flight, one at most for each. -/
theorem lockQueueIsNeverDequeuedEmpty : Obligations.LockQueueIsNeverDequeuedEmpty := by
  intro s hs
  obtain ⟨bookkeeping, -⟩ := pipelineOk_iff.1 hs
  constructor
  · unfold step nextEvent
    split
    · exact notEmptyQueue_performEvent bookkeeping _
    · rename_i e rest _
      exact notEmptyQueue_performEvent (s := { s with schedule := rest }) ⟨bookkeeping.busy, bookkeeping.gate,
        bookkeeping.accepted, bookkeeping.lockQueue, bookkeeping.drain⟩ e
  · have lockQueue : s.lq = _ := bookkeeping.lockQueue
    rw [lockQueue]
    exact (flatMap_reservesOf_length_le _).trans (inFlight_length_le s)

end Sys2Proof.Machine


/-! # The program counter and the order of the words fetched (10_state.md R14, R16, R30) -/

namespace Sys2Proof.Machine

/-! ## The steps of the five stages -/

/-- All that an enabled stage's step can be. -/
theorem stageStep_cases {st : Stage} {s t : State} (he : stageEnabled st s = true) (e : stageStep st s = .next t) :
    (s.taskIF = .running () ∧ t = fetchStep s) ∨ (∃ d, s.taskID = .running d ∧ t = decodeStep d s)
      ∨ (∃ d, s.taskEX = .running d ∧ t = executeStep d s) ∨ (∃ r, s.taskMEM = .running r ∧ t = memoryStep r s)
      ∨ (∃ m, s.taskWB = .running m ∧ writebackStep m s = .next t) := by
  cases st with
  | fetch => exact .inl ⟨stageEnabled_fetch.1 he, (Host.Outcome.next.inj e).symm⟩
  | decode =>
    obtain ⟨d, ht, -⟩ := stageEnabled_decode.1 he
    simp only [stageStep, ht] at e
    exact .inr (.inl ⟨d, ht, (Host.Outcome.next.inj e).symm⟩)
  | execute =>
    obtain ⟨d, ht, -⟩ := stageEnabled_execute.1 he
    simp only [stageStep, ht] at e
    exact .inr (.inr (.inl ⟨d, ht, (Host.Outcome.next.inj e).symm⟩))
  | memory =>
    obtain ⟨r, ht, -⟩ := stageEnabled_memory.1 he
    simp only [stageStep, ht] at e
    exact .inr (.inr (.inr (.inl ⟨r, ht, (Host.Outcome.next.inj e).symm⟩)))
  | writeback =>
    obtain ⟨m, ht⟩ := stageEnabled_writeback.1 he
    simp only [stageStep, ht] at e
    exact .inr (.inr (.inr (.inr ⟨m, ht, e⟩)))

/-! ## Alignment (10_state.md R16) -/

theorem aligned_add {a b : Word} (ha : aligned a) (hb : aligned b) : aligned (a + b) := by
  unfold aligned at *
  rw [BitVec.toNat_add]
  omega

theorem aligned_four : aligned 4 := rfl

theorem aligned_shifted (off : Word) : aligned (off <<< 2) := by
  unfold aligned
  rw [BitVec.toNat_shiftLeft, Nat.shiftLeft_eq]
  omega

theorem pulse_pcOk {s : State} (h : s.PcOk) : (pulse s).PcOk := by
  have one : ∀ f ∈ [clearWB, launchWB, clearMEM, launchMEM, clearEX, launchEX, clearID, launchID, clearIF, launchIF],
      ∀ u : State, u.PcOk → (f u).PcOk := by
    intro f hf u hu
    simp only [List.mem_cons, List.not_mem_nil, or_false] at hf
    rcases hf with rfl | rfl | rfl | rfl | rfl | rfl | rfl | rfl | rfl | rfl
    all_goals
      simp only [clearWB, launchWB, clearMEM, launchMEM, clearEX, launchEX, clearID, launchID, clearIF, launchIF]
      (repeat' split) <;> simp_all [State.PcOk]
  simp only [List.forall_mem_cons] at one
  obtain ⟨clWB, laWB, clMEM, laMEM, clEX, laEX, clID, laID, clIF, laIF, -⟩ := one
  exact laIF _ (clIF _ (laID _ (clID _ (laEX _ (clEX _ (laMEM _ (clMEM _ (laWB _ (clWB s h)))))))))

theorem fetchStep_pcOk {s : State} (h : s.PcOk) : (fetchStep s).PcOk := by
  obtain ⟨hpc, -, hID, hidex, hEX⟩ := h
  have next := aligned_add hpc aligned_four
  rw [fetchStep_eq]
  refine ⟨next, ?_, hID, hidex, hEX⟩
  rintro d ⟨⟩
  exact next

theorem decodeStep_pcOk {d : IFID} {s : State} (h : s.PcOk) (ht : s.taskID = .running d) : (decodeStep d s).PcOk := by
  obtain ⟨c, e⟩ | ⟨i, -, -, e⟩ := decodeStep_cases d s <;> rw [e]
  · exact h
  · obtain ⟨hpc, hifid, hID, -, hEX⟩ := h
    rw [reserve_eq]
    refine ⟨hpc, hifid, nofun, ?_, hEX⟩
    rintro _ ⟨⟩
    exact hID d ht

theorem executeStep_pcOk {d : IDEX} {s : State} (h : s.PcOk) (ht : s.taskEX = .running d) : (executeStep d s).PcOk := by
  obtain ⟨hpc, hifid, hID, hidex, hEX⟩ := h
  obtain ⟨e, -⟩ | ⟨e, -⟩ | ⟨i, o, hi, hu, e⟩ := executeStep_cases d s
  · rw [e]
    exact ⟨hpc, hifid, hID, hidex, hEX⟩
  · rw [e]
    exact ⟨hpc, hifid, hID, hidex, nofun⟩
  · cases taken : o.taken with
    | none =>
      rw [e, taken]
      exact ⟨hpc, hifid, hID, hidex, nofun⟩
    | some target =>
      obtain ⟨-, rfl, -⟩ := executeUnit_taken hu taken
      rw [executeStep_taken s hi hu taken, flush_eq]
      exact ⟨aligned_add (hEX d ht) (aligned_shifted d.imm), nofun, nofun, nofun, nofun⟩

theorem stageStep_pcOk {st : Stage} {s t : State} (h : s.PcOk) (he : stageEnabled st s = true)
    (e : stageStep st s = .next t) : t.PcOk := by
  obtain ⟨-, rfl⟩ | ⟨d, ht, rfl⟩ | ⟨d, ht, rfl⟩ | ⟨r, -, rfl⟩ | ⟨m, -, e⟩ := stageStep_cases he e
  · exact fetchStep_pcOk h
  · exact decodeStep_pcOk h ht
  · exact executeStep_pcOk h ht
  · obtain ⟨mem, mar, mdr, halted, val, frame⟩ := memoryStep_frame r s
    rw [frame]
    exact h
  · obtain ⟨-, n, rest, -, rfl⟩ | ⟨-, rfl⟩ := writebackStep_next e <;> exact h

theorem fetchAccess_pcOk {s : State} (h : s.PcOk) : (fetchAccess s).PcOk := by
  obtain ⟨hpc, hifid, hID, hidex, hEX⟩ := h
  rw [fetchAccess_eq]
  exact ⟨aligned_add hpc aligned_four, hifid, hID, hidex, hEX⟩

theorem exec_pcOk {i : Instr} {s t : State} (h : s.PcOk) (e : exec i s = .next t) : t.PcOk := by
  obtain ⟨hpc, carried⟩ := h
  obtain ⟨-, ifid, idex, -, -, -, -, -, -, -, -, taskID, taskEX, -⟩ := exec_control e
  refine ⟨?_, by rw [ifid, idex, taskID, taskEX]; exact carried⟩
  obtain kept | ⟨off, moved⟩ := exec_pc e
  · rw [kept]; exact hpc
  · rw [moved]; exact aligned_add hpc (aligned_shifted off)

theorem instructionStep_pcOk {s t : State} (h : s.PcOk) (e : instructionStep s = .next t) : t.PcOk := by
  obtain rfl | ⟨i, -, e⟩ | rfl := instructionStep_next e
  · exact fetchAccess_pcOk h
  · exact exec_pcOk (fetchAccess_pcOk h) e
  · exact fetchAccess_pcOk h

/-- Settles O48: the PC advances by 4, or to a target an offset in words away, and the rest is handed on. -/
theorem stepKeepsPcAligned : Obligations.StepKeepsPcAligned := by
  intro s t hs h
  refine step_keeps (P := State.PcOk) ?schedule ?pulse ?stage ?instruction ?reset ?create ?zero ?flash ?load hs h
  case schedule => exact fun s _ hs => hs
  case pulse => exact fun s hs _ _ => pulse_pcOk (s := beginRun s) hs
  case stage => exact fun st s t hs _ he e => stageStep_pcOk hs he e
  case instruction => exact fun s t hs _ _ e => instructionStep_pcOk (s := beginRun s) hs e
  case reset => exact fun s _ => ⟨rfl, nofun, nofun, nofun, nofun⟩
  case create => exact fun s _ hs _ => hs
  case zero => exact fun s hs => hs
  case flash => exact fun s _ hs _ => hs
  case load => exact fun s _ hs _ => hs

/-! ## Fetch order (10_state.md R14, R26, R30) -/

theorem Admission.busy {α : Type} {gated busy' : Bool} {task task' : Task α} {latch latch' : Option α}
    (h : Admission gated task latch task' latch' busy') : busy' = task'.isActive := by
  cases h with
  | atWork a running => rw [running]; rfl
  | launched a free ungated populated => rfl
  | idle free nothing => rfl

/-- What fetch order rests on: agreeing busy flags, the released gate, and the order itself. -/
structure State.FetchInvariant (s : State) : Prop where
  busy : s.BusyOk
  gate : s.GateOk
  order : s.FetchOrderOk

theorem pulse_fetchInvariant {s : State} (h : s.FetchInvariant) : (pulse s).FetchInvariant := by
  obtain ⟨released, fetching⟩ := h.gate
  obtain ⟨youngest, decoding, consecutive⟩ := h.order
  obtain ⟨admitsWB, admitsMEM, admitsEX, admitsID, busyIF, launchedIF⟩ := pulse_admissions h.busy
  obtain ⟨-, pc, -⟩ := pulse_keeps_data s
  have gate : (pulse s).exFlushing = false := by rw [pulse_frame]; exact released
  refine ⟨⟨busyIF, admitsID.busy, admitsEX.busy, admitsMEM.busy, admitsWB.busy⟩, ⟨gate, fun running => ?_⟩, ?_⟩
  · obtain before | empty := launchedIF running
    · obtain kept | empty := (pulse_fillsNoLatch s).ifid
      · rw [kept, fetching before]
      · exact empty
    · exact empty
  · unfold State.FetchOrderOk
    rw [pc]
    generalize (pulse s).taskID = task', (pulse s).ifid = latch', (pulse s).busyID = busy' at admitsID
    cases admitsID with
    | atWork a running => exact ⟨youngest, decoding, consecutive⟩
    | launched a free ungated populated =>
      refine ⟨nofun, ?_, nofun⟩
      rintro _ ⟨⟩ -
      exact youngest a populated
    | idle free nothing => exact ⟨youngest, nofun, nofun⟩

/-- The word fetched is the one at the PC, so behind the one in decode; IFID was empty (46_pipeline_stages.md R173). -/
theorem fetchStep_fetchInvariant {s : State} (h : s.FetchInvariant) (running : s.taskIF = .running ()) :
    (fetchStep s).FetchInvariant := by
  obtain ⟨hIF, hID, hEX, hMEM, hWB⟩ := h.busy
  obtain ⟨released, fetching⟩ := h.gate
  obtain ⟨-, decoding, -⟩ := h.order
  rw [running] at hIF
  rw [fetchStep_eq]
  refine ⟨⟨hIF, hID, hEX, hMEM, hWB⟩, ⟨released, nofun⟩, ?_, nofun, ?_⟩
  · rintro _ ⟨⟩
    rfl
  · rintro d _ hd ⟨⟩
    exact congrArg (· + 4) (decoding d hd (fetching running))

theorem isActive_of_running_or_done {α : Type} {t u : Task α} {a : α} (h : t = .running a) (hu : u = t ∨ u = .done) :
    t.isActive = u.isActive := by
  obtain rfl | rfl := hu
  · rfl
  · rw [h]; rfl

theorem decodeStep_fetchInvariant {d : IFID} {s : State} (h : s.FetchInvariant) (ht : s.taskID = .running d) :
    (decodeStep d s).FetchInvariant := by
  obtain ⟨hIF, hID, hEX, hMEM, hWB⟩ := h.busy
  obtain ⟨youngest, decoding, consecutive⟩ := h.order
  obtain ⟨added, idex, task, fatal, htask, frame⟩ := decodeStep_frame d s
  rw [frame]
  refine ⟨⟨hIF, hID.trans (isActive_of_running_or_done ht htask), hEX, hMEM, hWB⟩, h.gate, ?_⟩
  obtain rfl | rfl := htask
  · exact ⟨youngest, decoding, consecutive⟩
  · exact ⟨youngest, nofun, nofun⟩

/-- A taken branch leaves no word between fetch and decode (47_pipeline_control.md R207). -/
theorem executeStep_fetchInvariant {d : IDEX} {s : State} (h : s.FetchInvariant) (ht : s.taskEX = .running d) :
    (executeStep d s).FetchInvariant := by
  obtain ⟨hIF, hID, hEX, hMEM, hWB⟩ := h.busy
  obtain ⟨flags, exmem, ⟨task, halted, fatal, htask, frame⟩ | ⟨-, pc, lq, -, frame⟩⟩ := executeStep_frame d s <;>
    rw [frame]
  · exact ⟨⟨hIF, hID, hEX.trans (isActive_of_running_or_done ht htask), hMEM, hWB⟩, h.gate, h.order⟩
  · exact ⟨⟨rfl, rfl, hEX.trans (isActive_of_running_or_done ht (.inr rfl)), hMEM, hWB⟩, ⟨rfl, nofun⟩,
      nofun, nofun, nofun⟩

theorem stageStep_fetchInvariant {st : Stage} {s t : State} (h : s.FetchInvariant) (he : stageEnabled st s = true)
    (e : stageStep st s = .next t) : t.FetchInvariant := by
  obtain ⟨hIF, hID, hEX, hMEM, hWB⟩ := h.busy
  obtain ⟨ht, rfl⟩ | ⟨d, ht, rfl⟩ | ⟨d, ht, rfl⟩ | ⟨r, ht, rfl⟩ | ⟨m, ht, e⟩ := stageStep_cases he e
  · exact fetchStep_fetchInvariant h ht
  · exact decodeStep_fetchInvariant h ht
  · exact executeStep_fetchInvariant h ht
  · have busy := hMEM.trans (isActive_of_running_or_done ht (.inr rfl))
    obtain ⟨mem, mar, mdr, halted, val, frame⟩ := memoryStep_frame r s
    rw [frame]
    exact ⟨⟨hIF, hID, hEX, busy, hWB⟩, h.gate, h.order⟩
  · have busy := hWB.trans (isActive_of_running_or_done ht (.inr rfl))
    obtain ⟨-, n, rest, -, rfl⟩ | ⟨-, rfl⟩ := writebackStep_next e <;>
      exact ⟨⟨hIF, hID, hEX, hMEM, busy⟩, h.gate, h.order⟩

/-- One instruction alone leaves fetch and decode as they were, with no word between them. -/
theorem instructionStep_fetchInvariant {s t : State} (h : s.FetchInvariant) (hq : s.quiescent = true)
    (e : instructionStep (beginRun s) = .next t) : t.FetchInvariant := by
  obtain ⟨hifid, -, -, -, -, hID, -⟩ := quiescent_iff.1 hq
  have kept : t.BusyOk ∧ t.GateOk ∧ t.ifid = s.ifid ∧ t.taskID = s.taskID := by
    obtain rfl | ⟨i, -, e⟩ | rfl := instructionStep_next e
    · rw [fetchAccess_eq]
      exact ⟨h.busy, h.gate, rfl, rfl⟩
    · obtain ⟨_, _, _, _, _, _, _, _, e'⟩ := exec_next i (fetchAccess (beginRun s))
      rw [e', fetchAccess_eq] at e
      cases e
      exact ⟨h.busy, h.gate, rfl, rfl⟩
    · rw [fetchAccess_eq]
      exact ⟨h.busy, h.gate, rfl, rfl⟩
  obtain ⟨busy, gate, ifid, taskID⟩ := kept
  rw [hifid] at ifid
  rw [hID] at taskID
  exact ⟨busy, gate, by simp [ifid], by simp [taskID], by simp [taskID]⟩

/-- Settles O49: a pulse hands the word in IFID to decode, a fetch adds the word at the PC, a flush leaves none. -/
theorem stepKeepsFetchOrder : Obligations.StepKeepsFetchOrder := by
  intro s t busy gate order h
  suffices kept : t.FetchInvariant from kept.order
  refine step_keeps (P := State.FetchInvariant) ?schedule ?pulse ?stage ?instruction ?reset ?create ?zero ?flash ?load
    ⟨busy, gate, order⟩ h
  case schedule => exact fun s _ hs => ⟨hs.busy, hs.gate, hs.order⟩
  case pulse => exact fun s hs _ _ => pulse_fetchInvariant (s := beginRun s) ⟨hs.busy, hs.gate, hs.order⟩
  case stage => exact fun st s t hs _ he e => stageStep_fetchInvariant hs he e
  case instruction => exact fun s t hs _ hq e => instructionStep_fetchInvariant hs hq e
  case reset => exact fun s _ => ⟨⟨rfl, rfl, rfl, rfl, rfl⟩, ⟨rfl, nofun⟩, nofun, nofun, nofun⟩
  case create => exact fun s _ hs _ => ⟨hs.busy, hs.gate, hs.order⟩
  case zero => exact fun s hs => ⟨hs.busy, hs.gate, hs.order⟩
  case flash => exact fun s _ hs _ => ⟨hs.busy, hs.gate, hs.order⟩
  case load => exact fun s _ hs _ => ⟨hs.busy, hs.gate, hs.order⟩

end Sys2Proof.Machine


/-! # The bit-serial adder and multiplier (40_alu.md R103, R105) -/

namespace Sys2Proof.Machine

/-! ## Sixty-four rippled full adders (40_alu.md R103) -/

/-- The rippled carry is the library's carry of an addition. -/
theorem rippleCarry_eq (a b : Word) (i : Nat) : rippleCarry a b i = BitVec.carry i a b false := by
  induction i with
  | zero => simp [rippleCarry, BitVec.carry_zero]
  | succ i ih =>
    rw [rippleCarry, BitVec.carry_succ, ih]
    cases a.getLsbD i <;> cases b.getLsbD i <;> cases BitVec.carry i a b false <;> rfl

/-- A full adder's sum bit is that bit of the library's addition. -/
theorem fullAdder_sum (a b : Word) {i : Nat} (hi : i < 64) :
    (fullAdder (a.getLsbD i) (b.getLsbD i) (rippleCarry a b i)).1 = (a + b).getLsbD i := by
  rw [rippleCarry_eq, BitVec.getLsbD_add hi, fullAdder, halfAdder, halfAdder, Bool.xor_assoc]

/-- After `i` adders the low `i` bits of the sum are there and no others. -/
theorem rippleSum_getLsbD (a b : Word) {i : Nat} (hi : i ≤ 64) (k : Nat) :
    (rippleSum a b i).getLsbD k = (decide (k < i) && (a + b).getLsbD k) := by
  induction i with
  | zero => simp [rippleSum]
  | succ i ih =>
    have shifted : ∀ c : Bool, ((BitVec.ofBool c).setWidth 64 <<< i).getLsbD k = (decide (k = i) && c) := fun c => by
      rw [BitVec.getLsbD_shiftLeft]
      by_cases here : k = i
      · simp [here, Nat.lt_of_succ_le hi]
      · have above : ¬ k < i → ¬ k - i = 0 := by omega
        by_cases below : k < i
        · simp [below, here]
        · cases c <;> simp [here, below, above below]
    rw [rippleSum, fullAdder_sum a b (by omega), BitVec.getLsbD_or, ih (by omega), shifted]
    obtain below | here | above := Nat.lt_trichotomy k i
    · simp [below, Nat.ne_of_lt below, Nat.lt_succ_of_lt below]
    · simp [here]
    · simp [Nat.not_lt_of_lt above, Nat.ne_of_gt above, Nat.not_lt_of_le above]

theorem rippleSum_eq (a b : Word) : rippleSum a b 64 = a + b := by
  apply BitVec.eq_of_getLsbD_eq
  intro k hk
  rw [rippleSum_getLsbD a b (Nat.le_refl 64), decide_eq_true hk, Bool.true_and]

theorem carryOut_eq (a b : Word) : carryOut a b = BitVec.carry 64 a b false := by
  simp [carryOut, BitVec.carry, Nat.mod_eq_of_lt a.isLt, Nat.mod_eq_of_lt b.isLt]

/-- Settles O8: bit by bit the adders give the sum, and their last carry is the carry out. -/
theorem rippledAdderIsTheAddition : Obligations.RippledAdderIsTheAddition := by
  intro a b
  rw [rippleAdd, rippleSum_eq, rippleCarry_eq, ← carryOut_eq]
  rfl

/-! ## Sixty-four steps of shift-and-conditional-add (40_alu.md R105) -/

/-- What step `i` adds: the multiplicand shifted by `i` where bit `i` of the multiplier is set. -/
theorem addend_toNat (a b : Word) {i : Nat} (hi : i < 64) :
    (if b.getLsbD i then a.setWidth 128 <<< i else 0 : BitVec 128).toNat
      = a.toNat * (2 ^ i * (b.toNat / 2 ^ i % 2)) := by
  have bit : b.getLsbD i = decide (b.toNat / 2 ^ i % 2 = 1) := Nat.testBit_eq_decide_div_mod_eq
  rw [bit]
  obtain clear | set := Nat.mod_two_eq_zero_or_one (b.toNat / 2 ^ i)
  · simp [clear]
  · have factor : 2 ^ i < 2 ^ 64 := Nat.pow_lt_pow_right (by decide) hi
    have fits : a.toNat * 2 ^ i < 2 ^ 64 * 2 ^ 64 := Nat.mul_lt_mul'' a.isLt factor
    have wide : (a.setWidth 128).toNat = a.toNat := BitVec.toNat_setWidth_of_le (by decide)
    simp only [set, decide_true, if_true, BitVec.toNat_shiftLeft, wide, Nat.shiftLeft_eq, Nat.mul_one]
    exact Nat.mod_eq_of_lt fits

/-- After `i` steps the sum is the product with the low `i` bits of the multiplier. -/
theorem shiftAddLoop_toNat (a b : Word) {i : Nat} (hi : i ≤ 64) :
    (shiftAddLoop a b i).toNat = a.toNat * (b.toNat % 2 ^ i) := by
  induction i with
  | zero => simp [shiftAddLoop, Nat.mod_one]
  | succ i ih =>
    have power : 2 ^ (i + 1) ≤ 2 ^ 64 := Nat.pow_le_pow_right (by decide) hi
    have low : b.toNat % 2 ^ (i + 1) < 2 ^ 64 := (Nat.mod_lt _ (by positivity)).trans_le power
    have fits : a.toNat * (b.toNat % 2 ^ (i + 1)) < 2 ^ 64 * 2 ^ 64 := Nat.mul_lt_mul'' a.isLt low
    rw [shiftAddLoop, BitVec.toNat_add, ih (by omega), addend_toNat a b (by omega),
      ← Nat.mul_add, ← Nat.mod_pow_succ]
    exact Nat.mod_eq_of_lt fits

/-- Settles O9: the sum of all 64 steps is the product, which the two halves hold between them. -/
theorem shiftAndAddIsTheProduct : Obligations.ShiftAndAddIsTheProduct := by
  intro a b
  have product : (shiftAddLoop a b 64).toNat = a.toNat * b.toNat := by
    rw [shiftAddLoop_toNat a b (Nat.le_refl 64), Nat.mod_eq_of_lt b.isLt]
  have bound : a.toNat * b.toNat < 2 ^ 64 * 2 ^ 64 := Nat.mul_lt_mul'' a.isLt b.isLt
  constructor
  · rw [shiftAddMultiply, aluMultiply]
    refine Prod.ext (BitVec.eq_of_toNat_eq ?high) (BitVec.eq_of_toNat_eq ?low)
    case high =>
      rw [BitVec.extractLsb'_toNat, product, Nat.shiftRight_eq_div_pow, BitVec.toNat_ofNat]
    case low =>
      rw [BitVec.extractLsb'_toNat, product, Nat.shiftRight_zero, BitVec.toNat_ofNat]
  · simp only [aluMultiply, BitVec.toNat_ofNat]
    omega

end Sys2Proof.Machine


/-! # Power-on, reset and the host's actions (10_state.md R33, R34,
20_memory.md R41 to R43, 70_reset_and_hazards.md R271) -/

namespace Sys2Proof.Machine

/-! ## Power-on and reset (10_state.md R33, 47_pipeline_control.md R210) -/

/-- Settles O36: by the fields of `State.reset`. -/
theorem powerOnStateIsAllZeroAndIdle : Obligations.PowerOnStateIsAllZeroAndIdle := by
  have registers : ∀ r, State.reset.x r = 0 := fun r => by
    cases r with
    | xzr => rfl
    | x n => exact Vector.getElem_replicate n.isLt
  exact ⟨registers, rfl, rfl, rfl, rfl, rfl, rfl, rfl, rfl, rfl, rfl, rfl, rfl, rfl, rfl, rfl, rfl, rfl, rfl, rfl, rfl,
    rfl, rfl, Memory.read_nil, rfl, rfl, rfl, rfl⟩

/-- Settles O37: `reset()` writes every field but Memory, the parameters and the events to come. -/
theorem resetRestoresAllButMemory : Obligations.ResetRestoresAllButMemory := by
  intro s
  have phase : s.phase.afterReset ≠ .started ∧ (s.phase.afterReset = .unsized ↔ s.phase = .unsized) := by
    cases s.phase <;> simp [Phase.afterReset]
  exact ⟨resetCore s, rfl, ⟨byteAt_of_mem rfl rfl, rfl⟩, rfl, phase.1, phase.2, rfl⟩

/-- Settles O38: Memory and the pipeline are empty, and the PC is 0. -/
theorem powerOnStateMeetsTheInvariants : Obligations.PowerOnStateMeetsTheInvariants :=
  ⟨memoryOk_of_empty rfl, resetCore_pipelineOk State.reset, ⟨rfl, nofun, nofun, nofun, nofun⟩, nofun, nofun, nofun⟩

/-! ## Images in Memory (20_memory.md R43) -/

/-- A loaded image stands from byte address 0 up, each word most significant byte first. -/
theorem loadImage_read_inside {s : State} (canonical : Memory.wf s.mem = true) (image : List IWord) {k i : Nat}
    (hk : k < image.length) (hi : i < 4) :
    Memory.read (loadImage image s).mem (4 * k + i) = image[k].extractLsb' (8 * (3 - i)) 8 := by
  have inside : 4 * k + i < (imageBytes image).length := by rw [imageBytes_length]; omega
  have written := Memory.read_writeList_inside canonical Config.imageBase (imageBytes image) (4 * k + i) inside
  rw [Config.imageBase, Nat.zero_add] at written
  rw [← imageBytes_getElem image k i hk hi inside]
  exact written

/-- Behind the image nothing changes. -/
theorem loadImage_read_outside (s : State) (image : List IWord) {a : Nat} (h : 4 * image.length ≤ a) :
    Memory.read (loadImage image s).mem a = Memory.read s.mem a := by
  refine Memory.read_writeList_outside _ _ _ (.inr ?_)
  rw [imageBytes_length, Config.imageBase, Nat.zero_add]
  exact h

/-- Settles O15: the image is loaded into a Memory just created with its size. -/
theorem flashedImageIsBigEndianFromZero : Obligations.FlashedImageIsBigEndianFromZero := by
  intro s image unsized
  have flash : performEvent (.flash image) s = .next (flashImage image s) :=
    whenAllowed_next.2 ⟨by rw [unsized]; rfl, rfl⟩
  have byte : ∀ k i, (hk : k < image.length) → i < 4 →
      Memory.read (flashImage image s).mem (4 * k + i) = image[k].extractLsb' (8 * (3 - i)) 8 :=
    fun k i hk hi => loadImage_read_inside (s := createMemory (4 * image.length) s) rfl image hk hi
  exact ⟨_, flash, rfl, loadImage_memoryOk (memoryOk_of_empty rfl) (Nat.le_refl _), rfl, rfl, fun k hk =>
    ⟨byte k 0 hk (by decide), byte k 1 hk (by decide), byte k 2 hk (by decide), byte k 3 hk (by decide)⟩⟩

/-! ## When the host may act (70_reset_and_hazards.md R271, R274) -/

theorem whenAllowed_refused {ok : Bool} (h : ok = false) (o : Host.Outcome State Fault Refusal) :
    whenAllowed ok o = .refused .eventNotEnabled := by
  rw [h]
  rfl

theorem running_iff {s : State} : s.running = true ↔ s.phase = .started ∧ s.halted = false ∧ s.fatal = none := by
  simp [State.running, and_assoc]

/-- Settles O59: each action's guard, and the closed form of what it does. -/
theorem hostActsOnMemoryWhileTheCoreIsNotRunning : Obligations.HostActsOnMemoryWhileTheCoreIsNotRunning := by
  intro s size image
  refine ⟨fun unsized => ?create, fun sized => ?refuseCreate, fun runs => ?refuseRunning, fun stopped => ?stopped⟩
  case create =>
    exact ⟨createMemory size s, whenAllowed_next.2 ⟨by rw [unsized]; rfl, rfl⟩, Memory.read_nil, rfl, rfl, rfl⟩
  case refuseCreate =>
    have closed : (s.phase == .unsized) = false := beq_false_of_ne sized
    exact ⟨whenAllowed_refused closed _, whenAllowed_refused closed _⟩
  case refuseRunning =>
    have closed : (!s.running) = false := by rw [running_iff.2 runs]; rfl
    exact ⟨whenAllowed_refused closed _, whenAllowed_refused closed _⟩
  case stopped =>
    have opened : (!s.running) = true := by
      rw [Bool.not_eq_true', ← Bool.not_eq_true, running_iff]
      rintro ⟨hphase, hhalted, hfatal⟩
      simp [hphase, hhalted, hfatal] at stopped
    refine ⟨⟨zeroMemory s, whenAllowed_next.2 ⟨opened, rfl⟩, Memory.read_nil, rfl⟩, fun canonical fits => ?_⟩
    exact ⟨loadImage image s, whenAllowed_next.2 ⟨opened, if_pos fits⟩, loadImage_memoryOk canonical fits, rfl,
      fun k hk i hi => loadImage_read_inside canonical.1 image hk hi, fun a ha => loadImage_read_outside s image ha⟩

/-! ## The parameters of a run (10_state.md R34) -/

/-- What the events of a run do to the parameters and the phase. -/
structure State.RunsOnTo (s t : State) : Prop where
  params : t.params = s.params
  phase : t.phase = s.phase ∨ t.phase = .started

theorem State.RunsOnTo.refl (s : State) : s.RunsOnTo s := ⟨rfl, .inl rfl⟩

theorem State.RunsOnTo.trans {s t u : State} (h : s.RunsOnTo t) (h' : t.RunsOnTo u) : s.RunsOnTo u :=
  ⟨h'.params.trans h.params, h'.phase.elim (fun e => h.phase.imp e.trans e.trans) .inr⟩

theorem stageStep_runsOnTo {st : Stage} {s t : State} (h : stageStep st s = .next t) : s.RunsOnTo t := by
  obtain ⟨hparams, hphase, -⟩ := stageStep_host h
  exact ⟨hparams, .inl hphase⟩

theorem pulse_starts (s : State) : s.RunsOnTo (pulse (beginRun s)) ∧ (pulse (beginRun s)).phase = .started := by
  obtain ⟨hparams, hphase, -⟩ := pulse_host (beginRun s)
  exact ⟨⟨hparams, .inr hphase⟩, hphase⟩

theorem instructionStep_starts {s t : State} (h : instructionStep (beginRun s) = .next t) :
    s.RunsOnTo t ∧ t.phase = .started := by
  obtain ⟨hparams, hphase, -⟩ := instructionStep_host h
  exact ⟨⟨hparams, .inr hphase⟩, hphase⟩

theorem settleStage_runsOnTo {st : Stage} {s t : State} (h : settleStage st s = .next t) : s.RunsOnTo t := by
  obtain ⟨-, -, h⟩ | rfl := settleStage_next h
  · exact stageStep_runsOnTo h
  · exact .refl _

theorem admitPhase_runsOnTo (s : State) : s.RunsOnTo (admitPhase s) := by
  unfold admitPhase
  split
  · exact .refl s
  · exact (pulse_starts s).1

theorem tick_runsOnTo {s t : State} (h : tick s = .next t) : s.RunsOnTo t := by
  obtain ⟨u, hu, pulsed⟩ := andThen_next.1 h
  obtain ⟨u4, hu, h5⟩ := andThen_next.1 hu
  obtain ⟨u3, hu, h4⟩ := andThen_next.1 hu
  obtain ⟨u2, hu, h3⟩ := andThen_next.1 hu
  obtain ⟨u1, h1, h2⟩ := andThen_next.1 hu
  cases pulsed
  exact (settleStage_runsOnTo h1).trans <| (settleStage_runsOnTo h2).trans <| (settleStage_runsOnTo h3).trans <|
    (settleStage_runsOnTo h4).trans <| (settleStage_runsOnTo h5).trans (admitPhase_runsOnTo u)

/-- An event runs on, is a reset, or creates Memory. -/
theorem performEvent_host {e : Event} {s t : State} (h : performEvent e s = .next t) :
    (s.RunsOnTo t ∧ (e = .pulse ∨ e = .instruction → t.phase = .started))
      ∨ (e = .reset ∧ t = resetCore s)
      ∨ (((∃ size, e = .createMemory size) ∨ ∃ image, e = .flash image) ∧ s.phase = .unsized ∧ t.phase = .ready
          ∧ t.params.oobReadByte = s.params.oobReadByte) := by
  cases e with
  | pulse =>
    obtain ⟨-, -, h⟩ := whenClocked_next.1 h
    cases h
    exact .inl ((pulse_starts s).imp_right fun started _ => started)
  | stage st => exact .inl ⟨stageStep_runsOnTo (stageEvent_next.1 h).2.2, by simp⟩
  | tick => exact .inl ⟨tick_runsOnTo (whenClocked_next.1 h).2.2, by simp⟩
  | instruction =>
    obtain ⟨-, -, h⟩ := whenClocked_next.1 h
    split at h
    · exact .inl ((instructionStep_starts h).imp_right fun started _ => started)
    · cases h
  | reset => cases h; exact .inr (.inl ⟨rfl, rfl⟩)
  | createMemory size =>
    obtain ⟨hphase, h⟩ := whenAllowed_next.1 h
    cases h
    exact .inr (.inr ⟨.inl ⟨size, rfl⟩, eq_of_beq hphase, rfl, rfl⟩)
  | flash image =>
    obtain ⟨hphase, h⟩ := whenAllowed_next.1 h
    cases h
    exact .inr (.inr ⟨.inr ⟨image, rfl⟩, eq_of_beq hphase, rfl, rfl⟩)
  | zeroMemory =>
    obtain ⟨-, h⟩ := whenAllowed_next.1 h
    cases h
    exact .inl ⟨⟨rfl, .inl rfl⟩, by simp⟩
  | load image =>
    obtain ⟨-, h⟩ := whenAllowed_next.1 h
    split at h <;> cases h
    exact .inl ⟨⟨rfl, .inl rfl⟩, by simp⟩

/-- A step is the schedule's next event or the default one. -/
theorem step_event {s t : State} (h : step s = .next t) :
    ∃ e rest, performEvent e { s with schedule := rest } = .next t
      ∧ (s.schedule = e :: rest ∨ s.schedule = [] ∧ e ∈ [Event.pulse, .tick, .instruction]) := by
  cases hs : s.schedule with
  | nil =>
    refine ⟨defaultEvent s, s.schedule, ?_, .inr ⟨rfl, defaultEvent_mem s⟩⟩
    rw [← h, step_of_schedule_nil hs]
  | cons e rest =>
    refine ⟨e, rest, ?_, .inl rfl⟩
    rw [← h, step, nextEvent, hs]

/-- Settles O58: by the event the step takes. -/
theorem parametersAreFixedForARun : Obligations.ParametersAreFixedForARun := by
  intro s t h
  obtain ⟨e, rest, h, origin⟩ := step_event h
  have scheduled : ∀ {e' rest'}, s.schedule = e' :: rest' → e' = e := fun {e' rest'} hs => by
    obtain origin | ⟨origin, -⟩ := origin <;> rw [hs] at origin <;> cases origin
    rfl
  obtain ⟨⟨hparams, hphase⟩, starts⟩ | ⟨rfl, rfl⟩ | ⟨creates, unsized, ready, oob⟩ := performEvent_host h
  · refine ⟨congrArg _ hparams, fun sized => ⟨hparams, ?_⟩, fun changed => absurd hparams changed, fun rest' hs => ?_,
      fun _ started => hphase.elim (·.trans started) id⟩
    · obtain hphase | hphase := hphase <;> rw [hphase]
      · exact sized
      · nofun
    · exact starts (hs.imp (fun hs => (scheduled hs).symm) fun hs => (scheduled hs).symm)
  · have reset : s.schedule = .reset :: rest := origin.elim id fun ⟨_, default⟩ => by simp at default
    refine ⟨rfl, fun sized => ⟨rfl, ?_⟩, fun changed => absurd rfl changed, fun rest' hs => ?_,
      fun noReset => absurd reset (noReset rest)⟩
    · rw [resetCore_phase]
      revert sized
      cases s.phase <;> simp [Phase.afterReset]
    · obtain hs | hs := hs <;> cases scheduled hs
  · refine ⟨oob, fun sized => absurd unsized sized, fun _ => ⟨ready, rest, ?_⟩, fun rest' hs => ?_, fun _ started => ?_⟩
    · obtain origin | ⟨-, default⟩ := origin
      · obtain ⟨size, rfl⟩ | ⟨image, rfl⟩ := creates
        · exact .inl ⟨size, origin⟩
        · exact .inr ⟨image, origin⟩
      · obtain ⟨size, rfl⟩ | ⟨image, rfl⟩ := creates <;> simp at default
    · obtain ⟨size, rfl⟩ | ⟨image, rfl⟩ := creates <;> obtain hs | hs := hs <;> cases scheduled hs
    · exact absurd (started.symm.trans unsized) (by decide)

end Sys2Proof.Machine


/-! # The fatal errors and the fetch that halts (60_exceptions.md R240 to R247) -/

namespace Sys2Proof.Machine

/-! ## A destination of 31 (60_exceptions.md R240) -/

theorem exec_of_dst_xzr {i : Instr} (h : dst i = some .xzr) (s : State) :
    exec i s = .next (raiseFatal .zeroRegisterWrite s) := by
  obtain ⟨e, -⟩ | ⟨n, _, _, -, hd⟩ | ⟨n, _, _, -, hd⟩ | ⟨_, _, _, -, hd⟩ | ⟨_, -, hd, -⟩ | ⟨-, rfl⟩ := exec_cases i s
  · exact e
  · cases h.symm.trans hd
  · cases h.symm.trans hd
  · cases h.symm.trans hd
  · cases h.symm.trans hd
  · cases h

/-- Only the destination 31 is fatal. -/
theorem exec_fatal {i : Instr} {s t : State} (hd : dst i ≠ some .xzr) (h : exec i s = .next t) : t.fatal = s.fatal := by
  obtain ⟨-, xzr⟩ | ⟨n, _, _, e, -⟩ | ⟨n, view, ea, e, -⟩ | ⟨_, _, _, e, -⟩ | ⟨_, e, -, -⟩ | ⟨e, -⟩ := exec_cases i s
  · exact absurd xzr hd
  all_goals
    rw [e] at h
    cases h
  · rfl
  · split <;> rfl
  · rfl
  · rfl
  · rfl

theorem wellFormed_eq_false_iff (i : Instr) : i.wellFormed = false ↔ dst i = some .xzr := by
  rw [wellFormed_eq_not_writesXzr, Bool.not_eq_false', writesXzr, beq_iff_eq]

/-- Settles O29: by the cases of the instructions' meanings. -/
theorem destinationThirtyOneIsFatal : Obligations.DestinationThirtyOneIsFatal :=
  ⟨fun _ s h => exec_of_dst_xzr h s, fun _ _ _ hd h => exec_fatal hd h, wellFormed_eq_false_iff⟩

/-! ## The decode unit (46_pipeline_stages.md R177, R181) -/

theorem decodeEnabled_unknown {d : IFID} {e : DecodeReject} (h : decode d.instr = .error e) (s : State) :
    decodeEnabled d s = true := by
  unfold decodeEnabled
  rw [h]

theorem decodeStep_unknown {d : IFID} {e : DecodeReject} (h : decode d.instr = .error e) (s : State) :
    decodeStep d s = raiseFatal .unknownOpcode s := by
  unfold decodeStep
  rw [h]

/-- The check for a destination of 31 waits for the sources, not for IDEX. -/
theorem decodeEnabled_xzr {d : IFID} {i : Instr} {s : State} (hi : decode d.instr = .ok i) (hx : dst i = some .xzr) :
    decodeEnabled d s = s.sourcesFree i := by
  simp [decodeEnabled, hi, writesXzr, hx]

theorem decodeStep_xzr {d : IFID} {i : Instr} (hi : decode d.instr = .ok i) (hx : dst i = some .xzr) (s : State) :
    decodeStep d s = raiseFatal .zeroRegisterWrite s := by
  simp [decodeStep, hi, writesXzr, hx]

/-- Settles O30: the guard and the step in the two fatal branches of decode. -/
theorem decodeUnitRaisesTheFatalErrors : Obligations.DecodeUnitRaisesTheFatalErrors := by
  intro s d hID hfatal
  refine ⟨fun unknown => ?unknown, fun i hi hx free => ?xzr⟩
  case unknown =>
    have h := decode_unknown unknown
    exact performEvent_decode_next.2 ⟨hfatal, d, hID, decodeEnabled_unknown h s, (decodeStep_unknown h s).symm⟩
  case xzr =>
    have enabled := (decodeEnabled_xzr hi hx).trans (sourcesFree_iff.2 free)
    exact performEvent_decode_next.2 ⟨hfatal, d, hID, enabled, (decodeStep_xzr hi hx s).symm⟩

/-! ## One instruction with nothing in flight -/

theorem execWord_unknown {meaning : Instr → State → Host.Outcome State Fault Refusal} {w : IWord} {e : DecodeReject}
    (h : decode w = .error e) (s : State) : execWord meaning w s = .next (raiseFatal .unknownOpcode s) := by
  unfold execWord
  rw [h]

theorem fetchAccess_halted (s : State) : (fetchAccess s).halted = (s.halted || !s.spanInRange s.pc 8) := by
  rw [fetchAccess_eq]

theorem instructionStep_unknown {s : State} {e : DecodeReject} (hhalted : s.halted = false) (h : s.fetchInRange)
    (unknown : decode s.fetchedWord = .error e) :
    instructionStep s = .next (raiseFatal .unknownOpcode (fetchAccess s)) := by
  have clockRuns : ¬ (fetchAccess s).halted = true := by simp [fetchAccess_inRange h, hhalted]
  rw [instructionStep, if_neg clockRuns, upperWord_fetchAccess_mdr, execWord_unknown unknown]

theorem instructionStep_outOfBounds {s : State} (h : s.spanInRange s.pc 8 = false) :
    instructionStep s = .next (fetchAccess s) := by
  have requested : (fetchAccess s).halted = true := by rw [fetchAccess_halted, h, Bool.not_false, Bool.or_true]
  rw [instructionStep, if_pos requested]

/-- Settles O33: the fetch in range keeps the four bytes at the PC, and no row takes them. -/
theorem unknownWordIsFatal : Obligations.UnknownWordIsFatal := by
  intro s ready inRange unknown
  have step := step_of_ready ready
  obtain ⟨-, -, hhalted, -⟩ := ready
  rw [← fetchedWord_eq] at unknown
  rw [instructionStep_unknown (s := beginRun s) hhalted inRange (decode_unknown unknown),
    fetchAccess_inRange (s := beginRun s) inRange] at step
  exact ⟨_, step, rfl, hhalted, rfl, x_of_regs rfl, rfl, byteAt_of_mem rfl rfl, rfl⟩

/-- Settles O34: the halted fetch is all that happens. -/
theorem fetchOutOfBoundsHaltsFirst : Obligations.FetchOutOfBoundsHaltsFirst := by
  intro s ready outOfBounds
  have step := step_of_ready ready
  obtain ⟨-, -, -, hfatal⟩ := ready
  rw [instructionStep_outOfBounds (s := beginRun s) outOfBounds, fetchAccess_eq] at step
  refine ⟨_, step, ?halted, hfatal, rfl, x_of_regs rfl, rfl, byteAt_of_mem rfl rfl, rfl⟩
  case halted =>
    have outOfBounds : (beginRun s).spanInRange s.pc 8 = false := outOfBounds
    simp [beginRun_pc, outOfBounds]

/-! ## The placed instruction (20_memory.md R43, R52) -/

theorem wordOfBytes_bytesOfWord (w : IWord) :
    wordOfBytes (w.extractLsb' 24 8) (w.extractLsb' 16 8) (w.extractLsb' 8 8) (w.extractLsb' 0 8) = w := by
  unfold wordOfBytes
  rw [BitVec.extractLsb'_append_extractLsb'_eq_extractLsb' (by decide),
    BitVec.extractLsb'_append_extractLsb'_eq_extractLsb' (by decide),
    BitVec.extractLsb'_append_extractLsb'_eq_extractLsb' (by decide)]
  exact BitVec.extractLsb'_eq_self

theorem decode_of_decodeTableWord {nbits w : Nat} {i : Instr} (h : decodeTableWord nbits w = some i) :
    decode (tableWord nbits w) = .ok i := by
  simp only [decodeTableWord, decodeBytes, bytesOfWord, wordOfBytes_bytesOfWord] at h
  cases hd : decode (tableWord nbits w) with
  | error e => simp [hd] at h
  | ok j => simpa [hd] using h

theorem withFetchWord_ready (s : State) (nbits w : Nat) : (s.withFetchWord nbits w).Ready := ⟨rfl, rfl, rfl, rfl⟩

/-- Memory is large enough for the eight bytes at the PC, also where their addresses wrap around. -/
theorem withFetchWord_inRange (s : State) (nbits w : Nat) {k : Nat} (hk : k < 8) :
    (s.pc + BitVec.ofNat 64 k).toNat < (s.withFetchWord nbits w).params.memSize := by
  have size : (s.withFetchWord nbits w).params.memSize = max s.params.memSize (s.pc.toNat + 8) := rfl
  rw [size, BitVec.toNat_add, BitVec.toNat_ofNat]
  omega

theorem withFetchWord_fetchInRange (s : State) (nbits w : Nat) : (s.withFetchWord nbits w).fetchInRange :=
  spanInRange_iff.2 fun _ hk => decide_eq_true (withFetchWord_inRange s nbits w hk)

theorem withFetchWord_byteAt {s : State} (canonical : Memory.wf s.mem = true) (nbits w : Nat) {k : Nat} (hk : k < 4) :
    (s.withFetchWord nbits w).byteAt (s.pc + BitVec.ofNat 64 k) = (bytesOfWord (tableWord nbits w))[k] := by
  have inRange := withFetchWord_inRange s nbits w (Nat.lt_trans hk (by decide))
  refine (if_pos (decide_eq_true inRange)).trans ?_
  exact writtenMem_read_inside (bytesOfWord (tableWord nbits w)) s.pc canonical (by simp [bytesOfWord]) k hk inRange

theorem withFetchWord_fetchedWord {s : State} (canonical : Memory.wf s.mem = true) (nbits w : Nat) :
    (s.withFetchWord nbits w).fetchedWord = tableWord nbits w := by
  have byte0 := withFetchWord_byteAt canonical nbits w (k := 0) (by decide)
  have byte1 := withFetchWord_byteAt canonical nbits w (k := 1) (by decide)
  have byte2 := withFetchWord_byteAt canonical nbits w (k := 2) (by decide)
  have byte3 := withFetchWord_byteAt canonical nbits w (k := 3) (by decide)
  rw [BitVec.add_zero] at byte0
  rw [fetchedWord_eq, ← wordOfBytes_bytesOfWord (tableWord nbits w)]
  congr 1

/-- Settles O35: the state after the placing is ready, its fetch is in range and reads the placed word. -/
theorem placedInstructionIsTheNextOneRun : Obligations.PlacedInstructionIsTheNextOneRun := by
  intro s nbits w i canonical table
  have hi : decode (s.withFetchWord nbits w).fetchedWord = .ok i :=
    (congrArg decode (withFetchWord_fetchedWord canonical nbits w)).trans (decode_of_decodeTableWord table)
  refine ⟨?_, rfl, x_of_regs rfl⟩
  rw [step_of_ready (withFetchWord_ready s nbits w)]
  exact instructionStep_of_decode (s := beginRun (s.withFetchWord nbits w)) rfl
    (withFetchWord_fetchInRange s nbits w) hi

/-! ## The sequential machine (47_pipeline_control.md R231) -/

theorem execSeq_loadInstr (w : Width) (rt rn : Reg) (off9 : BitVec 9) (s : State) :
    execSeq (loadInstr w rt rn off9) s =
      retireLoadSeq rt (ExOut.access (s.x rn + offsetImm off9) 0) (loadVia w.view) s := by
  cases w <;> rfl

/-- A load of the sequential machine reads and writes its register, in range or not. -/
theorem execSeq_loadInstr_x (w : Width) (n : Fin 31) (rn : Reg) (off9 : BitVec 9) (s : State) :
    execSeq (loadInstr w (.x n) rn off9) s =
      .next (writeReg n (w.view (s.wordAt (s.x rn + offsetImm off9)))
        (mmuRead (s.x rn + offsetImm off9) (setFlags clearFlags s))) := by
  rw [execSeq_loadInstr]
  rfl

theorem loadInRange_of_not_load {i : Instr} (h : ∀ w rt rn off9, i ≠ loadInstr w rt rn off9) (s : State) :
    loadInRange i s := by
  cases i with
  | ldur rt rn off9 => exact absurd rfl (h .double rt rn off9)
  | ldurb rt rn off9 => exact absurd rfl (h .byte rt rn off9)
  | ldurh rt rn off9 => exact absurd rfl (h .half rt rn off9)
  | ldursw rt rn off9 => exact absurd rfl (h .word rt rn off9)
  | movz | movk | add | adds | sub | subs | addi | addis | subi | subis | stur | sturb | sturh | sturw | hlt | b | cbz
    | cbnz => trivial

theorem stepSeq_ended {s : State} (h : s.ended) : ∃ f, stepSeq s = .fault f := by
  cases hfatal : s.fatal with
  | some c => exact ⟨_, whenClocked_fatal hfatal _⟩
  | none => exact ⟨_, whenClocked_halted hfatal (h.resolve_right (absurd hfatal)) _⟩

theorem stepSeq_unknown {s : State} {e : DecodeReject} (hhalted : s.halted = false) (hfatal : s.fatal = none)
    (h : decode s.fetchedWord = .error e) : stepSeq s = .next (raiseFatal .unknownOpcode (fetchAccess s)) := by
  rw [stepSeq, upperWord_fetchAccess_mdr, execWord_unknown h]
  simp [whenClocked, hfatal, hhalted]

/-- Settles O60: by the row of the fetched word, and for a load by its view. -/
theorem sequentialStepCommitsEveryLoad : Obligations.SequentialStepCommitsEveryLoad := by
  intro s
  refine ⟨stepSeq_ended, fun hhalted hfatal word hword => ?_⟩
  rw [← fetchedWord_eq] at hword
  subst hword
  refine ⟨fun unknown => ?unknown, fun i hi notLoad => ?other, fun w rn off9 hi => ?xzr,
    fun w n rn off9 ea hi address => ?load⟩
  case unknown => exact stepSeq_unknown hhalted hfatal (decode_unknown unknown)
  case other =>
    rw [stepSeq_of_decode hhalted hfatal hi]
    exact execSeq_eq_exec (loadInRange_of_not_load notLoad _)
  case xzr =>
    rw [stepSeq_of_decode hhalted hfatal hi, execSeq_loadInstr]
    rfl
  case load =>
    obtain rfl := address_eq_of_isNumber address
    have step := stepSeq_of_decode hhalted hfatal hi
    rw [execSeq_loadInstr_x, fetchAccess_eq] at step
    refine ⟨_, step, ?value, rfl, rfl, ?halted, fun r hr => ?registers, ⟨byteAt_of_mem rfl rfl, rfl⟩, ?control⟩
    case value =>
      rw [writeReg_x_same]
      cases w with
      | byte => exact viewByte_wordAt_toNat s _
      | half => exact viewHalf_wordAt_toNat s _
      | word => exact viewSignedWord_wordAt_toInt s _
      | double => exact fun i hi => wordAt_byte s _ hi
    case halted =>
      have requested : (s.halted || !s.spanInRange s.pc 8 || !s.spanInRange (s.x rn + offsetImm off9) 8) = true ↔
          s.spanInRange s.pc 8 = false ∨ s.spanInRange (s.x rn + offsetImm off9) 8 = false := by simp [hhalted]
      exact requested
    case registers => exact (writeReg_x_other hr _ _).trans (x_of_regs rfl r)
    case control =>
      exact ⟨rfl, rfl, rfl, rfl, rfl, rfl, rfl, rfl, rfl, rfl, rfl, rfl, rfl, rfl, rfl, rfl, rfl, rfl, rfl, rfl⟩

end Sys2Proof.Machine


/-! # Runs of pulses and stage steps (47_pipeline_control.md R215, R220) -/

namespace Sys2Proof.Machine

/-! ## No pulse and no stage step reads the events to come -/

/-- The same state with other events to come. -/
def State.withSchedule (s : State) (es : List Event) : State := { s with schedule := es }

theorem withSchedule_ite (c : Bool) (s t : State) (es : List Event) :
    (if c then s else t).withSchedule es = if c then s.withSchedule es else t.withSchedule es := by
  cases c <;> rfl

theorem pulse_withSchedule (s : State) (es : List Event) : pulse (s.withSchedule es) = (pulse s).withSchedule es := by
  have clears : ∀ f ∈ [clearWB, clearMEM, clearEX, clearID, clearIF],
      ∀ u : State, f (u.withSchedule es) = (f u).withSchedule es := by
    intro f hf u
    symm
    simp only [List.mem_cons, List.not_mem_nil, or_false] at hf
    rcases hf with rfl | rfl | rfl | rfl | rfl <;> exact withSchedule_ite ..
  have launches : ∀ f ∈ [launchWB, launchMEM, launchEX, launchID, launchIF],
      ∀ u : State, f (u.withSchedule es) = (f u).withSchedule es := by
    intro f hf ⟨_, _, _, _, _, _, _, ifid, idex, exmem, memwb, _, _, _, _, _, _, _, _, _, _, _, _, _, _, _, _⟩
    symm
    simp only [List.mem_cons, List.not_mem_nil, or_false] at hf
    rcases hf with rfl | rfl | rfl | rfl | rfl
    · cases memwb with
      | none => rfl
      | some m => exact withSchedule_ite ..
    · cases exmem with
      | none => rfl
      | some m => exact withSchedule_ite ..
    · cases idex with
      | none => rfl
      | some m => exact withSchedule_ite ..
    · cases ifid with
      | none => rfl
      | some m => exact withSchedule_ite ..
    · cases ifid with
      | none => exact withSchedule_ite ..
      | some m => rfl
  simp only [List.forall_mem_cons] at clears launches
  simp [pulse, clears, launches]

theorem decodeStep_withSchedule (d : IFID) (s : State) (es : List Event) :
    decodeStep d (s.withSchedule es) = (decodeStep d s).withSchedule es := by
  unfold decodeStep
  cases decode d.instr with
  | error => rfl
  | ok i =>
    cases hx : writesXzr i with
    | true => simp only [hx]; rfl
    | false => simp only [hx, reserve_eq]; rfl

theorem executeStep_withSchedule (d : IDEX) (s : State) (es : List Event) :
    executeStep d (s.withSchedule es) = (executeStep d s).withSchedule es := by
  unfold executeStep
  cases decode d.instr with
  | error => rfl
  | ok i =>
    cases hu : executeUnit i d.ipc d.a d.b d.imm with
    | none => simp only [hu]; rfl
    | some o =>
      cases ht : o.taken with
      | none => simp only [hu, ht]; rfl
      | some target => simp only [hu, ht, resolveBranch, flush_eq]; rfl

theorem memoryUnit_withSchedule (i : Instr) (res wdata : Word) (s : State) (es : List Event) :
    memoryUnit i res wdata (s.withSchedule es) =
      ((memoryUnit i res wdata s).1.withSchedule es, (memoryUnit i res wdata s).2) := by
  cases i <;> rfl

theorem memoryStep_withSchedule (e : EXMEM) (s : State) (es : List Event) :
    memoryStep e (s.withSchedule es) = (memoryStep e s).withSchedule es := by
  unfold memoryStep
  cases decode e.instr with
  | error => rfl
  | ok i => simp only [memoryUnit_withSchedule]; rfl

theorem writebackStep_withSchedule {m : MEMWB} {s t : State} (h : writebackStep m s = .next t) (es : List Event) :
    writebackStep m (s.withSchedule es) = .next (t.withSchedule es) := by
  obtain ⟨dequeues, n, rest, hlq, rfl⟩ | ⟨signals, rfl⟩ := writebackStep_next h
  · exact writebackStep_dequeue dequeues hlq
  · exact writebackStep_signal _ signals

/-- A pulse or a stage's own step, which are all that a run of the pipeline is made of (R215). -/
def Event.IsPipeline (e : Event) : Prop := e = .pulse ∨ ∃ st, e = .stage st

theorem performEvent_withSchedule {e : Event} {s t : State} (he : e.IsPipeline) (h : performEvent e s = .next t)
    (es : List Event) : performEvent e (s.withSchedule es) = .next (t.withSchedule es) := by
  obtain rfl | ⟨st, rfl⟩ := he
  · obtain ⟨hfatal, hhalted, h⟩ := whenClocked_next.1 h
    cases h
    exact whenClocked_next.2 ⟨hfatal, hhalted, congrArg Host.Outcome.next (pulse_withSchedule (beginRun s) es)⟩
  cases st with
  | fetch =>
    obtain ⟨hfatal, hIF, rfl⟩ := performEvent_fetch_next.1 h
    exact performEvent_fetch_next.2 ⟨hfatal, hIF, rfl⟩
  | decode =>
    obtain ⟨hfatal, d, hID, enabled, rfl⟩ := performEvent_decode_next.1 h
    exact performEvent_decode_next.2 ⟨hfatal, d, hID, enabled, (decodeStep_withSchedule d s es).symm⟩
  | execute =>
    obtain ⟨hfatal, d, hEX, enabled, rfl⟩ := performEvent_execute_next.1 h
    exact performEvent_execute_next.2 ⟨hfatal, d, hEX, enabled, (executeStep_withSchedule d s es).symm⟩
  | memory =>
    obtain ⟨hfatal, e, hMEM, empty, rfl⟩ := performEvent_memory_next.1 h
    exact performEvent_memory_next.2 ⟨hfatal, e, hMEM, empty, (memoryStep_withSchedule e s es).symm⟩
  | writeback =>
    obtain ⟨hfatal, m, hWB, h⟩ := performEvent_writeback_next.1 h
    exact performEvent_writeback_next.2 ⟨hfatal, m, hWB, writebackStep_withSchedule h es⟩

/-! ## A list of events, one after the other -/

/-- The events happen in this order and take the one state to the other. -/
def Runs : List Event → State → State → Prop
  | [], s, t => s = t
  | e :: es, s, t => ∃ u, performEvent e s = .next u ∧ Runs es u t

theorem Runs.append {es es' : List Event} {s t u : State} (h : Runs es s t) (h' : Runs es' t u) :
    Runs (es ++ es') s u := by
  induction es generalizing s with
  | nil => cases h; exact h'
  | cons e es ih =>
    obtain ⟨v, first, h⟩ := h
    exact ⟨v, first, ih h⟩

theorem run_succ_of_step {M : Host.Core} {s u : M.State} {k : Nat} (h : M.step s = .next u) :
    M.run (k + 1) s = M.run k u := by
  rw [Host.Core.run, h]

/-- The machine's own steps perform what stands first in its schedule. -/
theorem run_of_runs {es : List Event} {s t : State} (pipeline : ∀ e ∈ es, e.IsPipeline) (h : Runs es s t)
    (rest : List Event) :
    Host.Core.run core es.length (s.withSchedule (es ++ rest)) = .next (t.withSchedule rest) := by
  induction es generalizing s with
  | nil => cases h; rfl
  | cons e es ih =>
    rw [List.forall_mem_cons] at pipeline
    obtain ⟨u, first, h⟩ := h
    have step : core.step (s.withSchedule (e :: es ++ rest)) = .next (u.withSchedule (es ++ rest)) :=
      performEvent_withSchedule pipeline.1 first (es ++ rest)
    exact (run_succ_of_step step).trans (ih pipeline.2 h)

/-! ## The reference tick (47_pipeline_control.md R220) -/

/-- Some pulses and stage steps take the one state to the other. -/
def State.Reaches (s t : State) : Prop := ∃ es : List Event, (∀ e ∈ es, e.IsPipeline) ∧ Runs es s t

theorem State.Reaches.refl (s : State) : s.Reaches s := ⟨[], nofun, rfl⟩

theorem State.Reaches.trans {s t u : State} (h : s.Reaches t) (h' : t.Reaches u) : s.Reaches u := by
  obtain ⟨es, pipeline, runs⟩ := h
  obtain ⟨es', pipeline', runs'⟩ := h'
  exact ⟨es ++ es', List.forall_mem_append.2 ⟨pipeline, pipeline'⟩, runs.append runs'⟩

theorem State.Reaches.event {e : Event} {s t : State} (he : e.IsPipeline) (h : performEvent e s = .next t) :
    s.Reaches t :=
  ⟨[e], List.forall_mem_singleton.2 he, t, h, rfl⟩

theorem settleStage_reaches {st : Stage} {s t : State} (h : settleStage st s = .next t) : s.Reaches t := by
  obtain ⟨hfatal, enabled, h⟩ | rfl := settleStage_next h
  · exact .event (.inr ⟨st, rfl⟩) (stageEvent_next.2 ⟨hfatal, enabled, h⟩)
  · exact .refl _

theorem admitPhase_reaches (s : State) : s.Reaches (admitPhase s) := by
  unfold admitPhase
  cases hc : s.halted || s.fatal.isSome with
  | true => exact .refl s
  | false =>
    obtain ⟨hhalted, hfatal⟩ := Bool.or_eq_false_iff.1 hc
    exact .event (.inl rfl) (performEvent_pulse hhalted (by simpa using hfatal))

theorem tick_reaches {s t : State} (h : tick s = .next t) : s.Reaches t := by
  obtain ⟨u, hu, pulsed⟩ := andThen_next.1 h
  obtain ⟨u4, hu, h5⟩ := andThen_next.1 hu
  obtain ⟨u3, hu, h4⟩ := andThen_next.1 hu
  obtain ⟨u2, hu, h3⟩ := andThen_next.1 hu
  obtain ⟨u1, h1, h2⟩ := andThen_next.1 hu
  cases pulsed
  exact (settleStage_reaches h1).trans <| (settleStage_reaches h2).trans <| (settleStage_reaches h3).trans <|
    (settleStage_reaches h4).trans <| (settleStage_reaches h5).trans (admitPhase_reaches u)

/-- Settles O54: each settled stage is its step or nothing, and the admission a pulse or nothing. -/
theorem referenceTickIsARunOfEvents : Obligations.ReferenceTickIsARunOfEvents := by
  intro s t _ _ h
  obtain ⟨es, pipeline, runs⟩ := tick_reaches h
  have run := run_of_runs pipeline runs []
  rw [List.append_nil] at run
  exact ⟨es, pipeline, run⟩

end Sys2Proof.Machine


/-! # One instruction alone in the pipeline (47_pipeline_control.md R215, R231) -/

namespace Sys2Proof.Machine

/-! ## The state right after each pulse -/

/-- Right after a pulse that found IFID empty: the latches are empty, a fetch is launched, and the other stages run
the given tasks. -/
def State.carrying (lq : List (Fin 31)) (taskID : Task IFID) (taskEX : Task IDEX) (taskMEM : Task EXMEM)
    (taskWB : Task MEMWB) (s : State) : State := { s with
  lq := lq, ifid := none, idex := none, exmem := none, memwb := none
  taskIF := .running (), taskID := taskID, taskEX := taskEX, taskMEM := taskMEM, taskWB := taskWB
  busyIF := true, busyID := taskID.isActive, busyEX := taskEX.isActive, busyMEM := taskMEM.isActive
  busyWB := taskWB.isActive, exFlushing := false, phase := .started }

theorem pulse_of_quiescent {s : State} (quiescent : s.quiescent = true) (busy : s.BusyOk) :
    pulse (beginRun s) = s.carrying [] .none .none .none .none := by
  cases s with
  | mk _ _ _ _ _ _ _ _ _ _ _ _ _ _ _ _ taskIF =>
    obtain ⟨rfl, rfl, rfl, rfl, notDone, rfl, rfl, rfl, rfl, rfl, rfl, rfl, rfl, rfl, rfl⟩ :=
      quiescent_iff.1 quiescent
    obtain ⟨fetching, -⟩ := busy
    obtain rfl : _ = taskIF.isActive := fetching
    cases taskIF with
    | none => rfl
    | running => rfl
    | done => exact absurd rfl notDone

theorem pulse_fetchStep_carrying (s : State) :
    pulse (beginRun (fetchStep (s.carrying [] .none .none .none .none))) =
      (fetchAccess s).carrying [] (.running ⟨s.fetchedWord, s.pc + 4⟩) .none .none .none := by
  rw [fetchStep_eq, fetchAccess_eq]
  rfl

theorem pulse_decodeStep_carrying {d : IFID} {i : Instr} (hi : decode d.instr = .ok i) (hx : dst i ≠ some .xzr)
    (s : State) : pulse (beginRun (decodeStep d (s.carrying [] (.running d) .none .none .none))) =
      s.carrying (reservation i).toList .none (.running (idexRecord d i s)) .none .none := by
  rw [decodeStep_publishes _ hi hx]
  rfl

theorem pulse_executeStep_carrying {d : IDEX} {i : Instr} {o : ExOut} (hi : decode d.instr = .ok i)
    (ho : executeUnit i d.ipc d.a d.b d.imm = some o) (lq : List (Fin 31)) (s : State) :
    pulse (beginRun (executeStep d (s.carrying lq .none (.running d) .none .none))) =
      (s.withPcFlags (o.taken.getD s.pc) o.flags).carrying lq .none .none (.running ⟨d.instr, o.res, o.wdata⟩)
        .none := by
  cases taken : o.taken with
  | none =>
    unfold executeStep
    simp only [hi, ho, taken]
    rfl
  | some target =>
    obtain ⟨-, -, rfl⟩ := executeUnit_taken ho taken
    rw [executeStep_taken _ hi ho taken, flush_eq]
    rfl

theorem memoryUnit_carrying (i : Instr) (res wdata : Word) (lq : List (Fin 31)) (task : Task EXMEM) (s : State) :
    memoryUnit i res wdata (s.carrying lq .none .none task .none) =
      ((memoryUnit i res wdata s).1.carrying lq .none .none task .none, (memoryUnit i res wdata s).2) := by
  cases i <;> rfl

theorem pulse_memoryStep_carrying {e : EXMEM} {i : Instr} (hi : decode e.instr = .ok i) (lq : List (Fin 31))
    (s : State) : pulse (beginRun (memoryStep e (s.carrying lq .none .none (.running e) .none))) =
      (memoryUnit i e.res e.wdata s).1.carrying lq .none .none .none
        (.running ⟨e.instr, (memoryUnit i e.res e.wdata s).2⟩) := by
  rw [memoryStep_of_decode hi, memoryUnit_carrying]
  rfl

/-- Writeback retires its record when the LockQueue holds the record's own reservation and no more. -/
theorem writebackStep_carrying {m : MEMWB} (accepted : Accepted m.instr) (s : State) :
    writebackStep m (s.carrying (reservesOf m.instr) .none .none .none (.running m)) =
      .next ((retireMEMWB m s).carrying [] .none .none .none .done) := by
  have dequeued := dequeues_of_accepted accepted
  obtain none | ⟨n, reserved⟩ := reservesOf_nil_or_singleton m.instr
  · rw [none] at dequeued ⊢
    rw [writebackStep_signal _ dequeued, retireMEMWB_signalling none]
    rfl
  · rw [reserved] at dequeued ⊢
    rw [writebackStep_dequeue dequeued rfl, retireMEMWB_reserving reserved]
    rfl

/-! ## What the run leaves, from a state back to the first -/

/-- A beginning of the events takes the state to one with this architecture, and it is all of them, with nothing left
in the LockQueue, unless the run ends. -/
def Completes (es : List Event) (u s : State) : Prop :=
  ∃ done rest t, es = done ++ rest ∧ Runs done s t ∧ u.SameArch t ∧ (¬ u.ended → rest = [] ∧ t.lq = [])

theorem Completes.cons {e : Event} {es : List Event} {u s s' : State} (first : performEvent e s = .next s')
    (h : Completes es u s') : Completes (e :: es) u s := by
  obtain ⟨done, rest, t, rfl, runs, arch, all⟩ := h
  exact ⟨e :: done, rest, t, rfl, ⟨s', first, runs⟩, arch, all⟩

theorem Completes.pulse {es : List Event} {u s : State} (hhalted : s.halted = false) (hfatal : s.fatal = none)
    (h : Completes es u (pulse (beginRun s))) : Completes (.pulse :: es) u s :=
  h.cons (performEvent_pulse hhalted hfatal)

theorem Completes.ended {es : List Event} {u s : State} (arch : u.SameArch s) (ended : u.ended) : Completes es u s :=
  ⟨[], es, s, rfl, rfl, arch, absurd ended⟩

theorem Completes.nil {u s : State} (arch : u.SameArch s) (empty : s.lq = []) : Completes [] u s :=
  ⟨[], [], s, rfl, rfl, arch, fun _ => ⟨rfl, empty⟩⟩

theorem completes_writeback {m : MEMWB} {s : State} (accepted : Accepted m.instr) (hfatal : s.fatal = none) :
    Completes [.stage .writeback] (retireMEMWB m s)
      (s.carrying (reservesOf m.instr) .none .none .none (.running m)) :=
  .cons (performEvent_writeback_next.2 ⟨hfatal, m, rfl, writebackStep_carrying accepted s⟩)
    (.nil ⟨rfl, rfl, rfl, rfl, rfl, rfl⟩ rfl)

/-- What memory access and writeback make of a record: nothing more than the access when that requests a halt. -/
def accessAndRetire (e : EXMEM) (i : Instr) (s : State) : State :=
  if (memoryUnit i e.res e.wdata s).1.halted then (memoryUnit i e.res e.wdata s).1
  else retireMEMWB ⟨e.instr, (memoryUnit i e.res e.wdata s).2⟩ (memoryUnit i e.res e.wdata s).1

theorem completes_memory {e : EXMEM} {i : Instr} {s : State} (hi : decode e.instr = .ok i)
    (wellFormed : i.wellFormed = true) (hfatal : s.fatal = none) :
    Completes [.stage .memory, .pulse, .stage .writeback] (accessAndRetire e i s)
      (s.carrying (reservesOf e.instr) .none .none (.running e) .none) := by
  obtain ⟨mem, mar, mdr, halted, frame⟩ := memoryUnit_frame i e.res e.wdata s
  have stepped := memoryStep_of_decode hi (s.carrying (reservesOf e.instr) .none .none (.running e) .none)
  rw [memoryUnit_carrying] at stepped
  refine .cons (performEvent_memory_next.2 ⟨hfatal, e, rfl, rfl, rfl⟩) ?_
  have hfatal' : (memoryUnit i e.res e.wdata s).1.fatal = none := by rw [frame]; exact hfatal
  unfold accessAndRetire
  cases access : (memoryUnit i e.res e.wdata s).1.halted with
  | true => exact .ended (by rw [stepped]; exact ⟨rfl, rfl, rfl, rfl, rfl, rfl⟩) (.inl access)
  | false =>
    refine .pulse (by rw [stepped]; exact access) (by rw [stepped]; exact hfatal') ?_
    rw [pulse_memoryStep_carrying hi]
    exact completes_writeback (m := ⟨e.instr, _⟩) ⟨i, hi, wellFormed⟩ hfatal'

theorem executeStep_runState {d : IDEX} {i : Instr} {o : ExOut} (hi : decode d.instr = .ok i)
    (ho : executeUnit i d.ipc d.a d.b d.imm = some o) (s : State) :
    (executeStep d s).halted = s.halted ∧ (executeStep d s).fatal = s.fatal := by
  cases taken : o.taken with
  | none =>
    unfold executeStep
    simp only [hi, ho, taken]
    exact ⟨rfl, rfl⟩
  | some target =>
    rw [executeStep_taken s hi ho taken, flush_eq]
    exact ⟨rfl, rfl⟩

theorem completes_execute {d : IDEX} {i : Instr} {o : ExOut} {s : State} (hi : decode d.instr = .ok i)
    (wellFormed : i.wellFormed = true) (ho : executeUnit i d.ipc d.a d.b d.imm = some o)
    (hhalted : s.halted = false) (hfatal : s.fatal = none) :
    Completes [.stage .execute, .pulse, .stage .memory, .pulse, .stage .writeback]
      (accessAndRetire ⟨d.instr, o.res, o.wdata⟩ i (s.withPcFlags (o.taken.getD s.pc) o.flags))
      (s.carrying (reservesOf d.instr) .none (.running d) .none .none) := by
  have notHlt : i ≠ .hlt := mt (executeUnit_none_iff i d.ipc d.a d.b d.imm).2 (by simp [ho])
  have enabled := executeEnabled_other (s.carrying (reservesOf d.instr) .none (.running d) .none .none) hi notHlt
  obtain ⟨halted, fatal⟩ := executeStep_runState hi ho (s.carrying (reservesOf d.instr) .none (.running d) .none .none)
  refine .cons (performEvent_execute_next.2 ⟨hfatal, d, rfl, enabled, rfl⟩) ?_
  refine .pulse (halted.trans hhalted) (fatal.trans hfatal) ?_
  rw [pulse_executeStep_carrying hi ho]
  exact completes_memory (e := ⟨d.instr, _, _⟩) hi wellFormed hfatal

/-- HLT is alone, so its step is enabled, and it ends the run. -/
theorem completes_hlt {d : IDEX} {es : List Event} {s : State} (hi : decode d.instr = .ok .hlt)
    (hfatal : s.fatal = none) :
    Completes (.stage .execute :: es) (requestHalt s) (s.carrying [] .none (.running d) .none .none) := by
  refine .cons (performEvent_execute_next.2 ⟨hfatal, d, rfl, executeEnabled_hlt _ hi, rfl⟩) (.ended ?_ (.inl rfl))
  unfold executeStep
  rw [hi]
  exact ⟨rfl, rfl, rfl, rfl, rfl, rfl⟩

/-! ## The stages' work is the instruction's meaning -/

/-- The access requests no halt, and a load is in range; or it does, and it is all that the meaning does. -/
theorem access_cases {i : Instr} {o : ExOut} {s : State} (wellFormed : i.wellFormed = true)
    (hhalted : s.halted = false) (ho : executeUnit i s.pc (s.xOpt (src1 i)) (s.xOpt (src2 i)) (immOf i) = some o)
    {t : State} (ht : t = (memoryUnit i o.res o.wdata (s.withPcFlags (o.taken.getD s.pc) o.flags)).1) :
    t.halted = false ∧ loadInRange i s ∨ t.halted = true ∧ exec i s = .next t := by
  have valid := dst_ne_xzr_of_wellFormed wellFormed
  subst ht
  cases i with
  | hlt => cases ho
  | movz | movk | add | adds | sub | subs | addi | addis | subi | subis | b | cbz | cbnz =>
    exact .inl ⟨hhalted, trivial⟩
  | stur | sturb | sturh | sturw =>
    cases ho
    exact (Bool.eq_false_or_eq_true _).symm.imp (⟨·, trivial⟩) (⟨·, rfl⟩)
  | ldur rt rn off9 | ldurb rt rn off9 | ldurh rt rn off9 | ldursw rt rn off9 =>
    cases rt with
    | xzr => exact absurd rfl valid
    | x n =>
      cases ho
      have halted : ∀ view, (loadVia view (s.x rn + offsetImm off9) (s.withPcFlags s.pc clearFlags)).1.halted
          = !s.spanInRange (s.x rn + offsetImm off9) 8 := fun view => by
        rw [loadVia_eq]
        exact (congrArg (· || _) hhalted).trans (Bool.false_or _)
      cases inRange : s.spanInRange (s.x rn + offsetImm off9) 8 with
      | true => exact .inl ⟨(halted _).trans (by rw [inRange]; rfl), inRange⟩
      | false =>
        refine .inr ⟨(halted _).trans (by rw [inRange]; rfl), ?_⟩
        exact congrArg Host.Outcome.next (if_neg (Bool.eq_false_iff.1 inRange))

theorem exec_eq_accessAndRetire {w : IWord} {i : Instr} {o : ExOut} {s : State} (hi : decode w = .ok i)
    (wellFormed : i.wellFormed = true) (hhalted : s.halted = false)
    (ho : executeUnit i s.pc (s.xOpt (src1 i)) (s.xOpt (src2 i)) (immOf i) = some o) :
    exec i s = .next (accessAndRetire ⟨w, o.res, o.wdata⟩ i (s.withPcFlags (o.taken.getD s.pc) o.flags)) := by
  unfold accessAndRetire
  obtain ⟨access, inRange⟩ | ⟨access, meaning⟩ := access_cases wellFormed hhalted ho rfl
  · have notHlt : i ≠ .hlt := mt (executeUnit_none_iff ..).2 (by rw [ho]; exact Option.some_ne_none o)
    have outcome : IDEX.outcome ⟨w, s.pc, s.xOpt (src1 i), s.xOpt (src2 i), immOf i, false⟩ = some o := by
      unfold IDEX.outcome
      rw [hi]
      exact ho
    rw [access, exec_eq_retireIDEX hi wellFormed notHlt inRange false, retireIDEX_eq outcome,
      retireEXMEM_eq (e := ⟨w, o.res, o.wdata⟩) hi]
    rfl
  · rw [access]
    exact meaning

/-! ## The front of the pipeline -/

/-- A fatal error of decode ends the run. -/
theorem completes_raise {d : IFID} {cause : FatalCause} {es : List Event} {s : State} (hfatal : s.fatal = none)
    (enabled : decodeEnabled d (s.carrying [] (.running d) .none .none .none) = true)
    (raised : decodeStep d (s.carrying [] (.running d) .none .none .none) =
      raiseFatal cause (s.carrying [] (.running d) .none .none .none)) :
    Completes (.stage .decode :: es) (raiseFatal cause s) (s.carrying [] (.running d) .none .none .none) :=
  .cons (performEvent_decode_next.2 ⟨hfatal, d, rfl, enabled, raised.symm⟩)
    (.ended ⟨rfl, rfl, rfl, rfl, rfl, rfl⟩ (.inr nofun))

theorem completes_decode {d : IFID} {s u : State} (hpc : d.ipc = s.pc) (hhalted : s.halted = false)
    (hfatal : s.fatal = none) (meaning : execWord exec d.instr s = .next u) :
    Completes [.stage .decode, .pulse, .stage .execute, .pulse, .stage .memory, .pulse, .stage .writeback] u
      (s.carrying [] (.running d) .none .none .none) := by
  cases hi : decode d.instr with
  | error e =>
    rw [execWord_unknown hi] at meaning
    cases meaning
    exact completes_raise hfatal (decodeEnabled_unknown hi _) (decodeStep_unknown hi _)
  | ok i =>
    have free : ∀ r, src1 i = some r ∨ src2 i = some r →
        (s.carrying [] (.running d) .none .none .none).locked r = false := fun r _ => by cases r <;> rfl
    rw [execWord_of_decode hi] at meaning
    by_cases hx : dst i = some .xzr
    · rw [exec_of_dst_xzr hx] at meaning
      cases meaning
      exact completes_raise hfatal ((decodeEnabled_xzr hi hx).trans (sourcesFree_iff.2 free)) (decodeStep_xzr hi hx _)
    · have wellFormed : i.wellFormed = true := by simpa using mt (wellFormed_eq_false_iff i).1 hx
      have publishes := decodeStep_publishes (s.carrying [] (.running d) .none .none .none) hi hx
      refine .cons (performEvent_decode_next.2 ⟨hfatal, d, rfl, (decodeEnabled_iff hi hx).2 ⟨free, rfl⟩, rfl⟩) ?_
      refine .pulse (by rw [publishes]; exact hhalted) (by rw [publishes]; exact hfatal) ?_
      rw [pulse_decodeStep_carrying hi hx, ← reservesOf_of_decode hi]
      cases ho : executeUnit i s.pc (s.xOpt (src1 i)) (s.xOpt (src2 i)) (immOf i) with
      | none =>
        obtain rfl := (executeUnit_none_iff ..).1 ho
        cases meaning
        rw [reservesOf_of_decode hi]
        exact completes_hlt (d := idexRecord d .hlt s) hi hfatal
      | some o =>
        rw [exec_eq_accessAndRetire hi wellFormed hhalted ho] at meaning
        cases meaning
        rw [← hpc] at ho
        exact completes_execute (d := idexRecord d i s) hi wellFormed ho hhalted hfatal

theorem completes_fetch {s u : State} (hfatal : s.fatal = none)
    (h : instructionStep s = .next u) :
    Completes [.stage .fetch, .pulse, .stage .decode, .pulse, .stage .execute, .pulse, .stage .memory, .pulse,
      .stage .writeback] u (s.carrying [] .none .none .none .none) := by
  refine .cons (performEvent_fetch_next.2 ⟨hfatal, rfl, rfl⟩) ?_
  have halted : (fetchStep (s.carrying [] .none .none .none .none)).halted = (fetchAccess s).halted := rfl
  unfold instructionStep at h
  cases access : (fetchAccess s).halted with
  | true =>
    rw [access, if_pos rfl] at h
    cases h
    refine .ended ?_ (.inl access)
    rw [fetchStep_eq, fetchAccess_eq]
    exact ⟨rfl, rfl, rfl, rfl, rfl, rfl⟩
  | false =>
    rw [access, if_neg Bool.false_ne_true, upperWord_fetchAccess_mdr] at h
    refine .pulse (halted.trans access) hfatal ?_
    rw [pulse_fetchStep_carrying]
    exact completes_decode (d := ⟨s.fetchedWord, s.pc + 4⟩) rfl access hfatal h

/-- Settles O55: from the first pulse on, each event's state is known, and the architecture it leaves is that of the
instruction's meaning. -/
theorem oneInstructionThroughThePipelineIsTheStep : Obligations.OneInstructionThroughThePipelineIsTheStep := by
  intro s u ready busy step
  rw [step_of_ready ready] at step
  obtain ⟨-, quiescent, hhalted, hfatal⟩ := ready
  have completes : Completes isolatedSchedule u s := by
    refine .pulse hhalted hfatal ?_
    rw [pulse_of_quiescent quiescent busy]
    exact completes_fetch (s := beginRun s) hfatal step
  obtain ⟨done, rest, t, schedule, runs, arch, all⟩ := completes
  have pipeline : ∀ e ∈ isolatedSchedule, e.IsPipeline := by
    simp [isolatedSchedule, Event.IsPipeline]
  have length : done.length + rest.length = 10 := by
    rw [← List.length_append, ← schedule]
    rfl
  rw [schedule] at pipeline
  have run := run_of_runs (List.forall_mem_append.1 pipeline).1 runs rest
  rw [← schedule] at run
  refine ⟨done.length, t.withSchedule rest, by omega, run, arch, fun goesOn => ?_⟩
  obtain ⟨rfl, empty⟩ := all goesOn
  exact ⟨length, empty⟩

end Sys2Proof.Machine
